-- ==== Sys2Proof/Word.lean ====
section
/-! DEFINITION. The words of the machine: the 32-bit memory word, its bytes, the 16-bit index and the operand fields
of an instruction word (spec/30_encoding.md R101 to R109). -/

namespace Sys2Proof

/-- The 32-bit unit of IMEM, DMEM and the host window (R71, R73, R74). -/
abbrev Word := BitVec 32

/-- One byte of a word (R77). -/
abbrev Byte := BitVec 8

/-- A program counter, a counter register or a 16-bit immediate (R34, R36, R109). -/
abbrev Half := BitVec 16

/-- The storage of one limb of one lane (R31). -/
abbrev Limb := BitVec 64

/-- A 5-bit field that names a field register F0 to F31 (R109). -/
abbrev FReg := BitVec 5

/-- A 5-bit field that must name a scalar register or a digit register and may name none: a value above 3 is
an illegal operand (R109, R114). -/
abbrev RField := BitVec 5

/-- A scalar register S0 to S3 (R32). -/
abbrev SReg := BitVec 2

/-- A digit register D0 to D3 (R33). -/
abbrev DReg := BitVec 2

/-- A counter register C0 to C7 (R34). -/
abbrev CReg := BitVec 3

/-- The 17-bit constant of FMULC and FSETI (R103). -/
abbrev Imm17 := BitVec 17

/-- One of the four lanes (R4). -/
abbrev Lane := Fin 4

end Sys2Proof
end

