-- ==== Sys2Proof/Syntax.lean ====
section
/-! DEFINITION. The instructions: one constructor per row of spec/opcode_table.json (spec/30_encoding.md R110), its
arguments the operand fields of the row at their encoded widths. -/

namespace Sys2Proof

/-- An instruction of AVXECC-ENG. A word that matches a row can still name operands the machine does not have (R114);
`Instr.wellFormed` says when it does not. -/
inductive Instr where
  -- sequencer
  | nop
  | halt
  | jmp (tgt : Half)
  | bnez (ca : CReg) (tgt : Half)
  | dbnz (ca : CReg) (tgt : Half)
  | cseti (cd : CReg) (imm : Half)
  | caddi (cd : CReg) (simm : Half)
  -- loads and stores
  | fld (fd : FReg) (ca : CReg) (addr : Half)
  | fst (fs : FReg) (ca : CReg) (addr : Half)
  | fldl (fd : FReg) (ca : CReg) (addr : Half)
  | fstl (fs : FReg) (ca : CReg) (addr : Half)
  | sld (sd : RField) (ca : CReg) (addr : Half)
  | sst (ss : RField) (ca : CReg) (addr : Half)
  -- field arithmetic
  | fadd (fd fa fb : FReg)
  | fsub (fd fa fb : FReg)
  | fmul (fd fa fb : FReg)
  | fsqr (fd fa : FReg)
  | fmov (fd fa : FReg)
  | fnorm (fd fa : FReg)
  | finv (fd fa : FReg)
  | fmulc (fd fa : FReg) (imm : Imm17)
  | fseti (fd : FReg) (imm : Imm17)
  -- scalars
  | clamp (sd sa : RField)
  | recode (dd sa : RField)
  -- conditional swap: `n` is the encoded N, the group size is N + 1 (R107)
  | cswap (fa fb : FReg) (sa : SReg) (cc : CReg) (n : BitVec 2)
  | cswapf (fa fb : FReg) (n : BitVec 2)
  -- table lookup
  | tblsel (fd : FReg) (dd : DReg) (cc : CReg)
  -- Edwards points
  | edinit (fd : FReg)
  | edadd (fd fa fb : FReg)
  | eddbl (fd fa : FReg)
  -- Montgomery ladder
  | ladstep (fd fa : FReg)
  -- macro instructions
  | edfbmul (fd : FReg) (sb : RField)
  | monfb (fd : FReg) (sb : RField)
  | monvb (fd fa : FReg) (sb : RField)
  | keygen (fd : FReg) (sb : RField)
  | shsec (fd fa : FReg) (sb : RField)
deriving DecidableEq, Repr

end Sys2Proof
end

