-- ==== Sys2Proof/Decode.lean ====
section
/-! DEFINITION. Decoding and encoding. The decoder is the opcode table of spec/30_encoding.md R110 row by row: a word
encodes the instruction of a row exactly when (w AND mask) = match, and its operands are the bit ranges of the row. The
encoder is written apart from it, from the formats R102 to R108 and the opcode map. Byte order: spec/20_memory.md R77. -/

namespace Sys2Proof

/-- The four bytes of a word, byte 0 (bits 7:0) first (R77). -/
def bytesOfWord (w : Word) : List Byte :=
  [w.extractLsb' 0 8, w.extractLsb' 8 8, w.extractLsb' 16 8, w.extractLsb' 24 8]

/-- The word whose byte b holds bits [8b+7:8b] (R77). -/
def wordOfBytes (b0 b1 b2 b3 : Byte) : Word := b3 ++ b2 ++ b1 ++ b0

/-! ## Encoder -/

/-- Format R: OP, RD, RA, RB, seven zero bits, FN (R102). -/
def formatR (op : BitVec 5) (rd ra rb : BitVec 5) (fn : BitVec 5) : Word := op ++ rd ++ ra ++ rb ++ 0#7 ++ fn

/-- Format K: OP, RD, RA, IMM17 (R103). -/
def formatK (op : BitVec 5) (rd ra : BitVec 5) (imm : Imm17) : Word := op ++ rd ++ ra ++ imm

/-- Format J: OP, CA, eight zero bits, TGT16 (R104). -/
def formatJ (op : BitVec 5) (ca : CReg) (tgt : Half) : Word := op ++ ca ++ 0#8 ++ tgt

/-- Format C: OP, CD, eight zero bits, IMM16 (R105). -/
def formatC (op : BitVec 5) (cd : CReg) (imm : Half) : Word := op ++ cd ++ 0#8 ++ imm

/-- Format M: OP, R, CA, three zero bits, ADDR16 (R106). -/
def formatM (op : BitVec 5) (r : BitVec 5) (ca : CReg) (addr : Half) : Word := op ++ r ++ ca ++ 0#3 ++ addr

/-- Format S: OP, FA, FB, SA, CC, N, five zero bits, FN (R107). -/
def formatS (op : BitVec 5) (fa fb : FReg) (sa : SReg) (cc : CReg) (n : BitVec 2) (fn : BitVec 5) : Word :=
  op ++ fa ++ fb ++ sa ++ cc ++ n ++ 0#5 ++ fn

/-- Format T: OP, FD, DD, CC, seventeen zero bits (R108). -/
def formatT (op : BitVec 5) (fd : FReg) (dd : DReg) (cc : CReg) : Word := op ++ fd ++ dd ++ cc ++ 0#17

/-- The word of an instruction, from the formats and the opcode map (R102 to R110). Unused register fields are 0. -/
def encode : Instr → Word
  | .nop => formatR 0x00 0 0 0 1
  | .halt => formatR 0x00 0 0 0 2
  | .jmp tgt => formatJ 0x01 0 tgt
  | .bnez ca tgt => formatJ 0x02 ca tgt
  | .dbnz ca tgt => formatJ 0x03 ca tgt
  | .cseti cd imm => formatC 0x04 cd imm
  | .caddi cd simm => formatC 0x05 cd simm
  | .fld fd ca addr => formatM 0x06 fd ca addr
  | .fst fs ca addr => formatM 0x07 fs ca addr
  | .fldl fd ca addr => formatM 0x08 fd ca addr
  | .fstl fs ca addr => formatM 0x09 fs ca addr
  | .sld sd ca addr => formatM 0x0A sd ca addr
  | .sst ss ca addr => formatM 0x0B ss ca addr
  | .fadd fd fa fb => formatR 0x0C fd fa fb 0
  | .fsub fd fa fb => formatR 0x0C fd fa fb 1
  | .fmul fd fa fb => formatR 0x0C fd fa fb 2
  | .fsqr fd fa => formatR 0x0C fd fa 0 3
  | .fmov fd fa => formatR 0x0C fd fa 0 4
  | .fnorm fd fa => formatR 0x0C fd fa 0 5
  | .finv fd fa => formatR 0x0C fd fa 0 6
  | .fmulc fd fa imm => formatK 0x0D fd fa imm
  | .fseti fd imm => formatK 0x0E fd 0 imm
  | .clamp sd sa => formatR 0x0F sd sa 0 0
  | .recode dd sa => formatR 0x0F dd sa 0 1
  | .cswap fa fb sa cc n => formatS 0x10 fa fb sa cc n 0
  | .cswapf fa fb n => formatS 0x10 fa fb 0 0 n 1
  | .tblsel fd dd cc => formatT 0x11 fd dd cc
  | .edinit fd => formatR 0x12 fd 0 0 0
  | .edadd fd fa fb => formatR 0x12 fd fa fb 1
  | .eddbl fd fa => formatR 0x12 fd fa 0 2
  | .ladstep fd fa => formatR 0x13 fd fa 0 0
  | .edfbmul fd sb => formatR 0x14 fd 0 sb 0
  | .monfb fd sb => formatR 0x14 fd 0 sb 1
  | .monvb fd fa sb => formatR 0x14 fd fa sb 2
  | .keygen fd sb => formatR 0x14 fd 0 sb 3
  | .shsec fd fa sb => formatR 0x14 fd fa sb 4

/-! ## Decoder -/

/-- `bits w lo len` is the field of `len` bits of `w` whose lowest bit is `lo`, that is w[lo+len-1:lo] (R7). -/
def bits (w : Word) (lo len : Nat) : BitVec len := w.extractLsb' lo len

/-- One row of the opcode table: its mask, its match value, and the instruction its operand fields make (R110). -/
structure Row where
  mask  : Word
  value : Word
  build : Word → Instr

/-- Rows of the sequencer (R110). -/
def rowsControl : List Row := [
  ⟨0xFFFFFFFF, 0x00000001, fun _ => .nop⟩,
  ⟨0xFFFFFFFF, 0x00000002, fun _ => .halt⟩,
  ⟨0xFFFF0000, 0x08000000, fun w => .jmp (bits w 0 16)⟩,
  ⟨0xF8FF0000, 0x10000000, fun w => .bnez (bits w 24 3) (bits w 0 16)⟩,
  ⟨0xF8FF0000, 0x18000000, fun w => .dbnz (bits w 24 3) (bits w 0 16)⟩,
  ⟨0xF8FF0000, 0x20000000, fun w => .cseti (bits w 24 3) (bits w 0 16)⟩,
  ⟨0xF8FF0000, 0x28000000, fun w => .caddi (bits w 24 3) (bits w 0 16)⟩]

/-- Rows of the loads and stores (R110). -/
def rowsMemory : List Row := [
  ⟨0xF8070000, 0x30000000, fun w => .fld (bits w 22 5) (bits w 19 3) (bits w 0 16)⟩,
  ⟨0xF8070000, 0x38000000, fun w => .fst (bits w 22 5) (bits w 19 3) (bits w 0 16)⟩,
  ⟨0xF8070000, 0x40000000, fun w => .fldl (bits w 22 5) (bits w 19 3) (bits w 0 16)⟩,
  ⟨0xF8070000, 0x48000000, fun w => .fstl (bits w 22 5) (bits w 19 3) (bits w 0 16)⟩,
  ⟨0xF8070000, 0x50000000, fun w => .sld (bits w 22 5) (bits w 19 3) (bits w 0 16)⟩,
  ⟨0xF8070000, 0x58000000, fun w => .sst (bits w 22 5) (bits w 19 3) (bits w 0 16)⟩]

/-- Rows of the field arithmetic (R110). -/
def rowsField : List Row := [
  ⟨0xF8000FFF, 0x60000000, fun w => .fadd (bits w 22 5) (bits w 17 5) (bits w 12 5)⟩,
  ⟨0xF8000FFF, 0x60000001, fun w => .fsub (bits w 22 5) (bits w 17 5) (bits w 12 5)⟩,
  ⟨0xF8000FFF, 0x60000002, fun w => .fmul (bits w 22 5) (bits w 17 5) (bits w 12 5)⟩,
  ⟨0xF801FFFF, 0x60000003, fun w => .fsqr (bits w 22 5) (bits w 17 5)⟩,
  ⟨0xF801FFFF, 0x60000004, fun w => .fmov (bits w 22 5) (bits w 17 5)⟩,
  ⟨0xF801FFFF, 0x60000005, fun w => .fnorm (bits w 22 5) (bits w 17 5)⟩,
  ⟨0xF801FFFF, 0x60000006, fun w => .finv (bits w 22 5) (bits w 17 5)⟩,
  ⟨0xF8000000, 0x68000000, fun w => .fmulc (bits w 22 5) (bits w 17 5) (bits w 0 17)⟩,
  ⟨0xF83E0000, 0x70000000, fun w => .fseti (bits w 22 5) (bits w 0 17)⟩]

/-- Rows of the scalar, swap and table instructions (R110). -/
def rowsScalar : List Row := [
  ⟨0xF801FFFF, 0x78000000, fun w => .clamp (bits w 22 5) (bits w 17 5)⟩,
  ⟨0xF801FFFF, 0x78000001, fun w => .recode (bits w 22 5) (bits w 17 5)⟩,
  ⟨0xF80003FF, 0x80000000, fun w => .cswap (bits w 22 5) (bits w 17 5) (bits w 15 2) (bits w 12 3) (bits w 10 2)⟩,
  ⟨0xF801F3FF, 0x80000001, fun w => .cswapf (bits w 22 5) (bits w 17 5) (bits w 10 2)⟩,
  ⟨0xF801FFFF, 0x88000000, fun w => .tblsel (bits w 22 5) (bits w 20 2) (bits w 17 3)⟩]

/-- Rows of the point and macro instructions (R110). -/
def rowsPoint : List Row := [
  ⟨0xF83FFFFF, 0x90000000, fun w => .edinit (bits w 22 5)⟩,
  ⟨0xF8000FFF, 0x90000001, fun w => .edadd (bits w 22 5) (bits w 17 5) (bits w 12 5)⟩,
  ⟨0xF801FFFF, 0x90000002, fun w => .eddbl (bits w 22 5) (bits w 17 5)⟩,
  ⟨0xF801FFFF, 0x98000000, fun w => .ladstep (bits w 22 5) (bits w 17 5)⟩,
  ⟨0xF83E0FFF, 0xA0000000, fun w => .edfbmul (bits w 22 5) (bits w 12 5)⟩,
  ⟨0xF83E0FFF, 0xA0000001, fun w => .monfb (bits w 22 5) (bits w 12 5)⟩,
  ⟨0xF8000FFF, 0xA0000002, fun w => .monvb (bits w 22 5) (bits w 17 5) (bits w 12 5)⟩,
  ⟨0xF83E0FFF, 0xA0000003, fun w => .keygen (bits w 22 5) (bits w 12 5)⟩,
  ⟨0xF8000FFF, 0xA0000004, fun w => .shsec (bits w 22 5) (bits w 17 5) (bits w 12 5)⟩]

/-- The opcode table: one row per instruction (R110). -/
def rows : List Row := rowsControl ++ rowsMemory ++ rowsField ++ rowsScalar ++ rowsPoint

/-- The word lies in the row: (w AND mask) = match (R110). -/
def Row.covers (r : Row) (w : Word) : Bool := w &&& r.mask == r.value

/-- Why a word is illegal (R112). Every reason raises ILLEGAL_INSTRUCTION. -/
inductive Illegal where
  /-- A primary opcode in 0x15 .. 0x1F. -/
  | reservedOpcode
  /-- A group opcode with a function code that is not listed. -/
  | unlistedFunction
  /-- A nonzero bit in a field that the row's mask requires to be zero. -/
  | nonzeroField
deriving DecidableEq, Repr

/-- The primary opcodes whose bits [4:0] are a function code (R101). -/
def groupOpcodes : List (BitVec 5) := [0x00, 0x0C, 0x0F, 0x10, 0x12, 0x13, 0x14]

/-- Which of R112's reasons makes the word illegal, for a word that lies in no row. -/
def illegality (w : Word) : Illegal :=
  if 0x15 ≤ (bits w 27 5).toNat then .reservedOpcode
  else if groupOpcodes.contains (bits w 27 5)
      && !rows.any (fun r => bits r.value 27 5 == bits w 27 5 && bits r.value 0 5 == bits w 0 5) then .unlistedFunction
  else .nonzeroField

/-- Decode one word: the instruction of the row it lies in, or the reason it is illegal (R110, R112, R115). -/
def decode (w : Word) : Except Illegal Instr :=
  match rows.find? (fun r => r.covers w) with
  | some r => .ok (r.build w)
  | none => .error (illegality w)

/-- Decode the four bytes of a word as memory holds them (R77, R100). -/
def decodeBytes (b0 b1 b2 b3 : Byte) : Except Illegal Instr := decode (wordOfBytes b0 b1 b2 b3)

/-- The instruction the decoder reads from the word whose bits are `w` (numbered as the opcode table numbers them), the
bits above `nbits` being 0: the word is laid out in bytes as the hardware stores it and given to the decoder. -/
def decodeTableWord (nbits w : Nat) : Option Instr :=
  match bytesOfWord (BitVec.ofNat 32 (w % 2 ^ nbits)) with
  | [b0, b1, b2, b3] =>
    match decodeBytes b0 b1 b2 b3 with
    | .ok i => some i
    | .error _ => none
  | _ => none

end Sys2Proof
end

