-- ==== Sys2Proof/Config.lean ====
section
/-! DEFINITION. What is fixed for the machine: the prime and the curve constants (spec/00_scope.md R5, R6), the build-time
parameters with their legal ranges (R5), and the free values: memory not written since reset (spec/20_memory.md R78) and
the system address of the host window (R70). -/

namespace Sys2Proof.Config

/-- The prime of the field, 2^255 - 19 (R5). -/
def p : Nat := 2 ^ 255 - 19

/-- The Montgomery coefficient A (R6). -/
def montgomeryA : Nat := 486662

/-- The ladder constant (A - 2) / 4 (R6). -/
def a24 : Nat := 121665

/-- The twisted Edwards d = -121665 / 121666 mod p (R6). -/
def edwardsD : Nat := 0x52036cee2b6ffe738cc740797779e89800700a4d4141d8ab75eb4dca135978a3

/-- The Montgomery u of the base point (R6). -/
def baseU : Nat := 9

/-- The Edwards x of the base point, the even square root (R6). -/
def baseX : Nat := 0x216936d3cd6e53fec0a4e231fdd6dc5c692cc7609525a7b2c9562d608f25d51a

/-- The Edwards y of the base point, 4 / 5 mod p (R6). -/
def baseY : Nat := 0x6666666666666666666666666666666666666666666666666666666666666658

/-- A table point in the Duif form ((y + x)/2, (y - x)/2, d·x·y), as integers (R210, R220). -/
structure Duif where
  yp : Nat
  ym : Nat
  t2 : Nat
deriving DecidableEq, Repr

/-- The precomputed table: 32 windows of 8 triples (R76, R210). -/
abbrev BaseTable := Vector (Vector Duif 8) 32

/-- The build-time parameters of the block (R5). The two memory sizes are powers of two, so they are held as their
base-2 logarithms, which is also how PARAMS shows them (spec/10_state.md R48). -/
structure Params where
  imemBits : Nat
  dmemBits : Nat
  table    : BaseTable
deriving DecidableEq, Repr

/-- IMEM_WORDS (R5). -/
def Params.imemWords (P : Params) : Nat := 2 ^ P.imemBits

/-- DMEM_WORDS (R5). -/
def Params.dmemWords (P : Params) : Nat := 2 ^ P.dmemBits

/-- The legal parameters: IMEM_WORDS in 16..4096, DMEM_WORDS in 128..8192, and table entries in [0, 2^255) (R5, R76). -/
abbrev Params.Legal (P : Params) : Prop :=
  (4 ≤ P.imemBits ∧ P.imemBits ≤ 12) ∧ (7 ≤ P.dmemBits ∧ P.dmemBits ≤ 13) ∧
    ∀ w : Fin 32, ∀ j : Fin 8,
      (P.table.get w |>.get j).yp < 2 ^ 255 ∧ (P.table.get w |>.get j).ym < 2 ^ 255 ∧ (P.table.get w |>.get j).t2 < 2 ^ 255

/-- The two memories of 32-bit words (R73, R74). -/
inductive Space where
  | imem
  | dmem
deriving DecidableEq, Repr

/-- FREE VALUE (log entry 2). The byte that memory `sp` holds at byte index `a` when nothing has written it since the
reset event counted by `epoch`: unspecified (R78), a free draw with no value any proof can see. -/
opaque unwritten (sp : Space) (epoch a : Nat) : Byte

/-- FREE VALUE (log entry 7). HOST_BASE in units of 64 KiB: the platform places the window (R70, D51). -/
opaque hostBaseIndex : Nat

/-- HOST_BASE, the system address of host offset 0x0000; it is 64 KiB-aligned (R70, D51). -/
def hostBase : Nat := 0x10000 * hostBaseIndex

end Sys2Proof.Config
end

