-- ==== Sys2Proof/Machine/BaseTable.lean ====
section
/-! DEFINITION. The default contents of the precomputed table (spec/43_table_lookup.md R214): entry (w, j) is the Duif form
of (j + 1) · 256^w · B. The numbers were computed from that definition (log entry 6); `Safety.lean` states the
definition (`tablePoint`), so that the table can be held against it. -/

namespace Sys2Proof.Machine

open Sys2Proof.Config

/-- Window 0: the multiples 1 to 8 of 256^0 · B (R214). -/
def window0 : Vector Duif 8 := #v[
  ⟨0x43e7ce9d19ea5d329385a44c321ea16167c996e37dc6070c97de49e37ac61db9,
    0x227e97c94c7c0933d2e0c21a3447c504fe9ccf82e8a05f59ce881c82eba0489f,
    0x3788bdb44f8632d42d0dbee5eea1acc6136cf411e655624f55e48902c3bd5534⟩,
  ⟨0x6c86031fd43e97172d534d32f0eb03814fa34ecb3d07fadac91273fe499e38e2,
    0x35dacad334e492aaf04f11b5d8b71bd54795c0862730567b454cd2b0215a6ad4,
    0x780d7ad89f5285b9a807d042059eb5189b60b5eeaecd67bc21fd5459d2cdbd26⟩,
  ⟨0x3d0b270dcd407c7a608da8014f80b399012d4218744325c55792d85426774b98,
    0x555c8ac3aaaded314098f98d10a5eb5e9de9a9fef2e0dd3eab308ff4527e6929,
    0x6d141357895cda6368b872a2c6796da62c4a11910e1aed310a57499f86e86c3b⟩,
  ⟨0x7407488190f2c393e51a469efd854932b3b2e37a3efe929c1439a8dcc77e04c6,
    0x53c99fa63a22d24d61f471e683502839993f44b8ab307d54caff028502b40c56,
    0x7fce865fb1aa9f15aeedee7c8815a24a374f1ca2bdae60b92d09fdf4e23b7f7b⟩,
  ⟨0x54a2e678a3710375ee8df5862d5ff62246a82461e3af768151095e220452dd90,
    0x0aa53f39f58daaf9f19e788e5c325043ea800a68a59394dbbfc8c161d223eb5d,
    0x61d55f34b59ddb4d5a0db3858dded39693870403e85ee8fe5e5dedf8c0954139⟩,
  ⟨0x68f2bddb51661c5ec032db346d2cd39b4d938ac4806457c41d067775bb8ab88f,
    0x1c5b2620d720bc425d842e739022a9dcabadf14213e9139ca4cc035b3dbec652,
    0x485c748d4f86b0f1a9f25125841de0a25f387001a0d0dd80c2d61933817525af⟩,
  ⟨0x630df534941e493f38d92941142a1724ba381a9d59cee069358d2e684a2751d6,
    0x4eb76eae97298bf04ef53b27c90c961d365010a99ddd11d3dd37964d551910cf,
    0x3d4fdd8e3507c853a94e20dd2c3bd6f9d981afa3829f524d78c1b6e400dc59d1⟩,
  ⟨0x448af3b030de7297d899ce332f6ce191b65981bbf14438162cdbacb3026e9f3e,
    0x5d481250990700e19613a0d6371e11fdcb1ebb4070daac7cf153aef6f9c91a63,
    0x13483e2e1766274ab1b2090c875b15195c51b8bc45e653ebf3e0faece4d1488d⟩]

/-- Window 1: the multiples 1 to 8 of 256^1 · B (R214). -/
def window1 : Vector Duif 8 := #v[
  ⟨0x76e9bea4d007779ca96fdbb5d431bd2c28e85b4b3b44988a97666e873197ce05,
    0x186bb6b781e98adcc2860ff4ada168e25432e24f85e3411d76adb1aa24d528af,
    0x48634b88974325d85a39cf5234a69f937da9eb404946bfb4b622220b9083725a⟩,
  ⟨0x41dfcdd7aa840377ba3269d31d88f6ee351ea571bd1021238653155041ac63f9,
    0x12f30e55f6b37f0487006fe4231822c8132ea7d68cd6bf513249e213bedf2fef,
    0x2b36bc31a2c37116505b1ef6e609347ab7ac39f65a2cba3f1f89f094662c3302⟩,
  ⟨0x0a7dd2f9a3c9d91534057120398d772c36320895798b33e1d082a142e32d17e8,
    0x19cbade52f661aec8e5af607bfbfe96dde472b6ad44de2288b1bd24fce60841a,
    0x0a414e7541fe293617e1f95b3db0898f2c9f2f4264e4002b9e6ba30b34c2fbea⟩,
  ⟨0x02fe1de229aebdbf5fb2ab67670ea7c0732b6edca0523bf190f38597a738f65c,
    0x17ece38f2fbac0b9cf062eb09e42f445b63a271855275ad3ffa1bdc24beecae1,
    0x5b9bb3a3ae328f8219d25e41d4df40ca9a4ab1c6769d9867925c59d72957ef65⟩,
  ⟨0x35fac82b98483e464f1c0a0644885e3077890a200b60aa9ab1a04ae58a1232c8,
    0x4fdf52b61d8c7ccca1b1f8290af81dd759838b37cb7a681397dd4cfea068d6e3,
    0x01290e7b3d31ad2b37a96bdc4d514d2803204ffbdd61d3bf07d3bc78f0a0adc5⟩,
  ⟨0x000ba9ecfbe6b662257c112680564125747c4a58cb03cd67588a33903b97af72,
    0x1fd0053f389c1676ea30c3445ff083e747cc73ae07efad33289ff705854ea94a,
    0x095aff17d02476db556be8fcd048f9428eef43ed5a4b9c2c1e349196cb1eed9a⟩,
  ⟨0x37bf49e103cb63dc46204ee03a8e45e1a5b36991a825c489ef95be1356b78f49,
    0x7a4dbb7cb7d89037e9023930ff9462b0b9dcc135d6f9adf6b8f87de24b7e719d,
    0x47e7608780f010a8b0d4045af77fb5b36091a8f8df724e4c8fad7b02575356f9⟩,
  ⟨0x609bbc8b37f55c853664033f410610a69581073a49ec6f051ef9694ee2122719,
    0x2480d538c1e288f981220e2d443fe86910fe575118d6bbbf3226ac5324ff0f22,
    0x20ddc43db9368909fbb0587c8f036c9ce707bd3e12314cda0458dbaa460d7c78⟩]

/-- Window 2: the multiples 1 to 8 of 256^2 · B (R214). -/
def window2 : Vector Duif 8 := #v[
  ⟨0x05438f0386354f0eed7164861aa57d73b2444e9e8542da643f11a62cbe3348d7,
    0x275b946097e6defbbe1d450c509db01f0ea46d6a0ada9592a0743ea23a21a35f,
    0x5f7398079342ea3206b0d6f10ceacf1e39b5d71d2deea1301980dacca5de44bb⟩,
  ⟨0x3ea3e35167dc481850832f0ef18295ba72e37d2cb1ce236ba1fd3ca3c20f3a8c,
    0x49c0abb14bc892e11e4ccbaec970c3e5400b08ae30858f567ae92af24f3eeb52,
    0x0a467ac69a64f64038f63108135dc0abce9f3a4d48aa379e1fed680a47786b70⟩,
  ⟨0x53c7f5d6a75750dccfe885b6b4b05446ab61a2ddc479a43ff12b97becd723aad,
    0x5ff97d0f5eaeddea2e50de1544b08c2a234cc25f7b420554a352497b3c9a780a,
    0x20826e817f4e33bd9c88a94890ce9e294610ca4e1014864c58d5340fc6499cb3⟩,
  ⟨0x00b2dad2477e5240b2926095204f157a90d45b648672279ac090a7036d84b55c,
    0x16431d8057d7a9eaca65b080fd295b3350fd0619cc519d5ab9595faf08922115,
    0x2c8db3ecdfff645c34af14832c5515c78977fcc26697be6078c8523a5042353b⟩,
  ⟨0x644da7c338180945b084089b614f82f6f232f2fd50c6320f4cdcd9b8cf8c5aa5,
    0x1ef01763e547bde5b93819e04f780e442cbca8af55f9f6451897868e405a4dfd,
    0x64fafddd24b65f5f9ebf55f38c85d51270b129da308b5430e91908169d75c96e⟩,
  ⟨0x0350d3614433a8adc8d1a97b28abb1f5c526c35662c423a08aaeb1460f4e2b97,
    0x2b025436e5fd373a49614a60983e068e6e206eb85e3239f5984a4d08452de7ea,
    0x104c4f44ff13a1634f818d300c567b68b92a08a07020c5a8b94468ea3e0bb25b⟩,
  ⟨0x3985cca87b82cae9b205260b30e5fa2d2b10ee03bd6595ef8b3a13c5c2f57617,
    0x4201f68e86533f14d13cec326903f1d01942be1652a7ec4924cbbbfe9d16e636,
    0x2deba2a184181ee67be5a37d0b601ae762f36467cc1237c6e4a5969ac3a762a9⟩,
  ⟨0x2ddbed891833fc164e8f1ed456d1ebb1632644d15ee6eee4c2e249908af3bc95,
    0x099d3c0039c056c1b35c5b3727e0391b3fb5aa32b19ae0c0bfcd68ca94592661,
    0x3a06e536ac7870690c11b03bcdeaa3b8027610eb108ca97704b0fa33e365315f⟩]

/-- Window 3: the multiples 1 to 8 of 256^3 · B (R214). -/
def window3 : Vector Duif 8 := #v[
  ⟨0x1601fa92b61581ecedd54cf571ec83cfdbda93876140a1ce918d462b823c219e,
    0x0b0e92fd4b1f51c682b885955caa2ce261fffd798376045befa47703a967e727,
    0x74ca345edecb5dd798c81ebb92bf7bfc983d809867862c3cbc878c3abda9d235⟩,
  ⟨0x149f0e273625171d4da412331a7ef517a428326117e069666c6e9ef335548ca4,
    0x69290cd239c82bc2e98ffeed2523d9bfbe77808a523feb7bde8f97a37a6d7f5e,
    0x6db02e223f819411d822c4d7a30e1888b81bbc5aee50aed01bb709a5c9288967⟩,
  ⟨0x17897f7a662d5eeaaaa1778b0f0ef30d43352bcf3af1a4b11df4ff637873f826,
    0x5253b6e7545759f7000092b2817177bbf3f80806491dc7e65cb2c02c90623e3b,
    0x2f303d928c521bc863678a20bc67fb340868373fa064d203852291596fe063a0⟩,
  ⟨0x100f9989cf22b834692293401707936df1e216a05769f2005016218e52cb678a,
    0x2833d655b666eafbf0d9ffa7b3730eb71ae7d3a7e1b12c512c598ec7b66f8c0c,
    0x5cbe5d44312301baea9107581712d2540c58a4b200be00037ea93fb58401ce9f⟩,
  ⟨0x7b8da01160f0e1297fd4e07c42d47eead330ca106ef09578bc0ae1fde409bcea,
    0x119ce9903b37361d1117ea48b90eaf13711d50c6f4d4bcbb18609849f82cacd9,
    0x598d0c490ccb8d3b6835e18d8f5141d9fad64db8fcea67846c3eecc3289d17ca⟩,
  ⟨0x4d64b0cffb24d33dc276e0e088c07be22de5f1443403a54f1328979d4ebab94e,
    0x188b3e35c1deff10f1ea740dc820ec8e4e1b63ef30e3bae7fa8b37a2fda7c063,
    0x30921b1a0f845888fe4eb8c22531286428341a1df74e74c3f9159c2129258834⟩,
  ⟨0x0a915518bc6c8222bfc5f8dc51d035d24eefdb804de9fe9ac5b1a4f18d16931c,
    0x6375f1184f2f7fa03c9e9633e807cdde04ff52f8b603ee106ccea0edc3a744bd,
    0x22ff387a82921836746419c8db237913ed7f204d5b96b688161c17a9b4b0a49c⟩,
  ⟨0x4b30cfb6dabd1122b7dda2e97ae4ea5c02f803e41fb1865131792490644a8a3f,
    0x21468b11d071c96a03fda8e79e85c7ea2db4683b778717906d243ad34b0605c6,
    0x4ec0ac96b05e9c636f5c6f2321e8de3ed4110ce1bb52e5560427a52200d18475⟩]

/-- Window 4: the multiples 1 to 8 of 256^4 · B (R214). -/
def window4 : Vector Duif 8 := #v[
  ⟨0x1d2fb6a8d857c73e1d3873be0e9987cdb7f833c5e8b45d5943b2db4fbdc2e2f4,
    0x5011a53bc4f66e783f8c9f96a66707be8bf017b575d5ee2bb09b43ab5306d626,
    0x3e6b411a9e7ff1b37b15251059f208b8038e1a7cea8f68b03b6906db38bc5929⟩,
  ⟨0x5f78129d95966c7fabac9c4e99b012eca16c968c1e6bf1e9d332e6b034567a70,
    0x141c64431dee04a1ecc9080974b73000154235195d201db705f0d22dec43fd5b,
    0x10ee5c53035414094167d7457a55a0cefd24b5a08ae2bbd5e8b5d867a5232818⟩,
  ⟨0x2ec206dfb637b3c5d966011ba1f9ecbfc101b03f314f0c44cd46807d5f3b98dd,
    0x05e1e840ca518ed5892da6a6097717ce12a004b76a1551e5ae300223464ecfe4,
    0x5d213b119560cb6eabdddd4cbed71055b75816d35cf0b2e3b8371c06984ff0bc⟩,
  ⟨0x43b864f41270d4fcc0567fe03ad50aff2fe7e20fe31416de9dfc60b96da23f5c,
    0x0ff8bbe750b6f5e8df4f8010ce2c722ec4c50cf1efdcf2a2a5a121964538427d,
    0x5cf9327ea0a8058f7398048c981f1f44c304c2748d9d3c9267b0eccd22dadaf5⟩,
  ⟨0x72e31093961af8a761e4844a165378ffd236fe70eff00c94e8cda555ff04bde7,
    0x0b896b9a34444c2050748dc749acbdd4deca1bb515ce09ce53d69a0bedf3f14e,
    0x517cc00558ce7139020cd49e970e7f41a68819ab5092e05df395c4fc6718c9e5⟩,
  ⟨0x20b8d269c2cc655a3207b25cc3def9bddc89675f1a52a4a0a1014feecd377ed6,
    0x49fa0b66b23b1372aa9ea4582f921247f1f4e01152a8238ab02d1b451f4f7c5c,
    0x28410a7d2ba5e8d5fde948eed6ed29c9118037b7d8005c03fd13ac554ce4a646⟩,
  ⟨0x1d3bac5264365a2393e2bb3ab6341d2d590814445e79e4b2a30d0adda9e801eb,
    0x517cb07637d5d3a5e5ef1323160a57ca532d339ca88ebbe26101348a9f6b7f1c,
    0x2ecfe8afc6f3fa4a091246487988af328ed710ef8efeaa532a4088fb49d7283b⟩,
  ⟨0x1de0c3fd23f5cc6c70b25d3b974e0b6a471d481421974b0a9f922695776ba90f,
    0x59979ac8a7c7df69d4f0c7e2e6577125b51bcd77ebe3da99818a0469b6b1b936,
    0x2286c0e74837dd01ebbc195a9d3300c44cc55be5b6236892b6a3808af5436106⟩]

/-- Window 5: the multiples 1 to 8 of 256^5 · B (R214). -/
def window5 : Vector Duif 8 := #v[
  ⟨0x665d693cb31d58844bdee2adf3fa7694fc368c7af70e31f6e83a6c4b0e573a16,
    0x56f12ea5d31a2df0b7ab68aaf447ae59552790eba09e4741b73ddb50d3102931,
    0x7ebfde77f1003919d8d1cba5af9d320ce292e1057d94457c4068c812506b8fdd⟩,
  ⟨0x27ce68cb6e6c6a6bc0630e9b210e182c63c0d14d154882d5e6be2ee2f9e1484a,
    0x6cbaa1af43dbad46fb4517de0d81bb16433634626ab9cf8b7d778f35133593f7,
    0x3e66e8421c3d0183dd014e56ae0e060be8682c120d68bd318cc94bec353d9bb4⟩,
  ⟨0x5ac9e54240c865225446f6433105ed0c66d7003d0d59954ccd86420c33b06640,
    0x6145e876b0e867a9d4e060da7db4633bd70a9ea84a41205eee53211636930202,
    0x539cc1846d16b1f346292a2da9fedde8ea6c619ab2ec7d66c9098c4d2f424d4a⟩,
  ⟨0x6b9614a2a49619feffdcecdae693ed7b87d12c336abe8def5cd0872605381220,
    0x534acbd75f4619aadd83d58d3ced01f7dea879b0193c6664a161c69421af6a00,
    0x3fcc2a4c602de54051164418552eed06726ff469f1dd577de3bfe3a2eb66985f⟩,
  ⟨0x5879329e6b4d8973f76127de439fd06104022d22e7a6fdd369ab0aa907dfb1a8,
    0x7b6176238518f9821ed1e1cf91fe490e4002d68dbdaa51441c24e7444f85f082,
    0x578939f8acb239ed5490600f0737d638230bcdb06d93b5e5c504649c55608639⟩,
  ⟨0x1c560ccbf6e2fbc27568d34f5e2cb0b1036b5ad278ea2173982445ebaad385e0,
    0x6ecf2b956c2db4f920ecc54143b947977ea93a48253555cfa39cfe3e45700eff,
    0x516fe6ce5ff4f34e56566008a2a6ef24ba3e83433f4dc2c603335a8bd3a8d894⟩,
  ⟨0x47f4c3bc1266f2393cbe594a09fae6991771dd76692cfcb4ab762cda081df047,
    0x75948b602a2460e3c7b592c619154b0fd6c7332fd65da199c6ede97061868663,
    0x66181f983ff8050bb3041effb2bc7c0aa751e6c11736d6073f6d9a68855d4894⟩,
  ⟨0x20b58a8d5b8350ea89850aafe17153fc76693d5237ddf64994fe01ac06eca280,
    0x46b0dc7bc5955be2636373c60f352e5fe2e9bbdb9cbb9df569851deb0bd94639,
    0x0c8d157ba13bf46957f317ed0dabf055de83f2e6ac7225902b546bf7f4e09b58⟩]

/-- Window 6: the multiples 1 to 8 of 256^6 · B (R214). -/
def window6 : Vector Duif 8 := #v[
  ⟨0x51bf3edf002a2dc9f82910875bd06d126f6981ea531b03eb4ff315a1a7a30774,
    0x7f17072285ae64845c5ce1b7dad91f7395cb92e7103976ef670b7ba5e29e0a0f,
    0x38d7d34cd888aaf1ba99078ac1f23f9111884a734f85fe88009abaf6b380da18⟩,
  ⟨0x00398fde3c7c4d0e4dc25fafd964df4aa8f43d0f9d9c778875211e0e239da86b,
    0x4108a174e158e14707a1affed4fbacff632c1cf557d0a0f332e737cd9ca9db05,
    0x2626b799a3f0ac045b6d7041b5dd0af1dfcb06112f67608cf218638c247c0c40⟩,
  ⟨0x1c5fca805447cfd43763db623bc8bb5f35c8b113d85cfa8d97866efe4c478cb8,
    0x4c9feed553f23d116def3895fbf7066fb63afad328a01e0a0c7bf667e0be8fdb,
    0x7537dccf5f86a4b4a8407ac11c92093b517b0f2d0c68a3160fe9649e1bf443ae⟩,
  ⟨0x09b7ed4fa162f588485495418ee7aec649ceb80879437fc77758915adb7211e3,
    0x7afbb48a518c4b756b8e889bc7b8d660920b5d9c7c49f84eb52360ddab042aec,
    0x4110c1a885f46e5d1543ec52e1ddac45079b25cecffc16047ca66fd8d182dedf⟩,
  ⟨0x49c3e220fea02136115dff295f493d69d831ef4f623ed22fcead3880a1983d36,
    0x35038e70bdc036018689d37308108f1ed0476c40653e2c18257bb31c2f56968a,
    0x18b8d935578f6e4906bda4245da3be503915ad1ebf872209dae9e1e8c3cbc57c⟩,
  ⟨0x7628a5319a2121f4ea50fc49a9eedeac535f8a6b0bb85278d306dbec594523df,
    0x110fea439e7841ad27aaff1bd243a8a87fbddc26113af08cd49798c84bab2654,
    0x646d52cb7dc925557e706ea6208781877db9f074dd050196919110279d0ab197⟩,
  ⟨0x6c641bfd07453cd4e6fadc479a313bd64ca0fcf1f7a0c1030a7b0eaee4264bc0,
    0x73b6eb7e656c257b98d7e384690f0be7542392a5971c5650376547332e52ce5a,
    0x0e27b9f96352bf856e6173bea49aeb350eee5df9bdab500d867cb442cb7e482c⟩,
  ⟨0x3822cd6dbed7b3ae758ebce4bc0e63f2b9efe4da61e0e7b0d9b738377e3e1a42,
    0x7cad64068dfb26217a10e1c197f19c24414ea6702a6331d6873d27de982fd054,
    0x6ff0b14246710fe9cfefcf728fc63c6e2b934b11a5816e650dc8eda4c8da15d0⟩]

/-- Window 7: the multiples 1 to 8 of 256^7 · B (R214). -/
def window7 : Vector Duif 8 := #v[
  ⟨0x15a26021b3bed51aee05ffd590b43c48dc6f6eb8343ef973943cc296aebe5904,
    0x23c4ea237e48b919498067e91da87916a4df3ee386b8e6a7a72c90a7f0ca4b0d,
    0x3062977795dcd2721f565de6a427c833fd6368c74ced7a338d0e43d583a75bc7⟩,
  ⟨0x786bb9246cdb33b6f7de202b5d2497592263b4cdaa524655b815e2e13e57367f,
    0x485e4e189667e55587260b586a98147ad835c91be4f9aa8d05aec4de1dfec5ef,
    0x71baade9d4bb7a09bca289f2384742e8cc34cf7a768bc0f0554574259f615024⟩,
  ⟨0x53b1ba8b9be2952b28472dce07d08107aeed3eaf60b2ddec1ee3880c4bf8d652,
    0x46c660e245e0b7c24ffcf8fedf34dc481ab7bac84f731ab4daafd01f15688420,
    0x78616ec53d68b373e7d431186a1e24ab785a273f3bda3052814a0169b75a0ccb⟩,
  ⟨0x595c309c0b529e72f204c17006c292b23a1297856bbb40bd48ea4b3edc76bf00,
    0x1707d631b1ca424acb99e0f9b3f04dae77173f54a36328c6b2b0ca284fb7f607,
    0x20bc90ae39ad27a0fc4fea6cd0726d9735641d33843c43683cf3fbdf722466b2⟩,
  ⟨0x18fd42b31120e14313c58a0fd9e9c70fdbf7bf5b2aceeb6e725719dc9435e69a,
    0x3801a251866ccebb709df019d4836c814bfdc561a3e9ce3846384a73ebee7695,
    0x125d918954ca9244cde0dbf0959c4891e09014c3cc19a816d7c13621171b117a⟩,
  ⟨0x468e957cfff5ae8b44a2efccd1dd0dd6b4394261827d33ca20fc06157afc2e2c,
    0x47f71f438f0c4004475ea1a1bb67de691e5a4a0c230da4a458d4768b996f33d8,
    0x4b566bcb8c298ebb20020cbdd3cd60c9985c1150ac9132bcd4ed455099310f66⟩,
  ⟨0x4b2769a58c0b0b800b71273151a17a824a70cf56afc87f5d64ace362bc43db4d,
    0x491f077b5c9811849f67503c8b59cb1bb1a3151b5219122d396fb95796cd8e95,
    0x3c6d07e30839f9f5c3bdfb69dcd26f13b0d716751d488a89a43f6ca60c97f34d⟩,
  ⟨0x02a552598b59c6ee888078ac2400bcb9b8fbbf0a8d74f3f3514fc078b4061d4a,
    0x1692ef7592b58b9d120cd7de036145ee9623f18c38780d472df8ae947295e335,
    0x09a3085355bed3b015758e953337760b85943c4e3372a6d7efe423468c933e5c⟩]

/-- Window 8: the multiples 1 to 8 of 256^8 · B (R214). -/
def window8 : Vector Duif 8 := #v[
  ⟨0x72a43c65d4be64fdd8db9dde6d5e0372aa44c8c3c7d53078e69532f3bbe8fa81,
    0x10817edd15906b2804903d0eb8bd78dca9cbed44f2bafa8da889c763c6fb587f,
    0x456b92ed94f6595d1d0d7a8bd53ed20a9b5e53b40928d694cb4f720282ae7347⟩,
  ⟨0x67b3afa9811ccfecbbd7e3312189577d29bea93473faffebff63de064d82b7b9,
    0x6577e7fdb8d01b280d783d05fbe8af6bdb3aa25ab8670de2ee2133d8c1a71222,
    0x05e65db9515432b0c3853756e84a28886695f788c4cc241de1969b1b020a8b8f⟩,
  ⟨0x333c7eb488479be11de3fb62a83818d8701cbdc17f744fbf0c36af26287f094b,
    0x20127855aceb5b9f58497018ddadb6f94373f31ab28a3ee68c2f4b17f558d4e4,
    0x16a171084756a380a7b9e64fbc4f577e03fb46242b9699f90ac37d18b1b431e1⟩,
  ⟨0x6105f9d3cda11e370ddb43d73a95704fc8a73485898f032610b8bd8687a9bac0,
    0x73b593045c69699175d09f838422a80830aacc2e989fa6354bfa898aca6fe944,
    0x7a2e97fd4e0678f03dff8658de189ad84338db76188d8dc0409c5d328e2d959a⟩,
  ⟨0x0370adf2a60ee41ce9e104e1e43ab57d58edc413ccbdd9e8301b6fab90e9a735,
    0x4d711e75cb067ae86a88e3876f80aaedf52d93041323cec0dfa92d0f15e4e455,
    0x2c6f6c3093c760fbbee20aa4ed5be502991a8e5ae758ed582db92ec38c994ca5⟩,
  ⟨0x045d34b5a98eadec19c04883f8968ab9a47777c77a962cc616fdadd45b6164d4,
    0x17f9cef42a42fb7cae71c17c5e1361d46464bb62e622a724ec0b9bc9f93362ae,
    0x090319da4a3e7f2a751ebd1ff8d338e582702a8bea7fa408bbf69f7761f7e2bd⟩,
  ⟨0x03a19df1e59c9def708f3b0c88f53ce36f11bdb6bf37df03415e98a3a4890805,
    0x1ae9854cda6ac8c2b85f39caca7852602773d89e7675fd7405ca4c3c48b08021,
    0x16c39f6f3d7b6d4fac19c0fead3b423e2bae9ef2582e28d1ffbca2602e74cbfa⟩,
  ⟨0x42a1b0c500b001298c513ae9dd710eb65106ac8ba80af0fad5310170a72efcb7,
    0x573b9b2a383fd3db5849ff737ad324037d5c5bf77a5540ec8abd18b2219b99fb,
    0x658a219b1683cb068210165c514d5d1655378512cee7234986f55efa4ba611d7⟩]

/-- Window 9: the multiples 1 to 8 of 256^9 · B (R214). -/
def window9 : Vector Duif 8 := #v[
  ⟨0x4b81c20c757b37ae13a3d7fa3c090cb2987b134932631afdcb3e2a748e294e5c,
    0x2c17a233a96d31fb9f7836fe389f578e220abf12fa8617bf66625be3db370fbd,
    0x06150e25e6d146e4d90f78c5a72d09b254082174522445e26318bde990192672⟩,
  ⟨0x6d354d98518a6e41e31de9096aae62d586b6c83edf0e469176e240a434deb499,
    0x7e2ac5e8e37b243be8ad81397dd96947d9134f1f6dc3e02ce926e3e8378f821a,
    0x420252e5057dd7e1d2861d3c8e5e2fd2095db14561ad127868760a9269cb2315⟩,
  ⟨0x5ca93a8b73fc774c021a1fec1eaeb4b3dae37b9471a82cc5b15e4f0d9520b7df,
    0x231cadfee56ecb19aba58235b347e96f665d6865ad932f74460fa0038553a1eb,
    0x3b2bcd14f411680b77ea5f78aa6ab7f54e3ba2de68802e1508bfed968d2ecd4e⟩,
  ⟨0x01628a5d9513bbe0daa89443ba869ae76c191424c9ef4070999e5a89a95a1a79,
    0x61d1c26e4f02ded89f6b2f88f611260d91e6a8d15e54d1bfa2db473f24e01502,
    0x48b04904b0aa402c989c8b6bd4d86929fdc5e9bf7b5aa5a9b425eaed45f8db19⟩,
  ⟨0x57b1beba48f370213ee10dfcea78c010bae01653b2ae1ab1bd1c2b0b1b4da6dd,
    0x1a8f092de2b4c705f4f7b1e5229eaaaced294fa64209acc7da268b3494ed67d5,
    0x3f8c168373e7154d38ef70cffcd34cfdeb0181bd6455c4b0ea5a4da30d7b3ddf⟩,
  ⟨0x22566021920e290be9ac12a6bfa3481e552c747a6a425c6c04a2a5b94710ba91,
    0x33ea56461a1f49d804aa8ce9a3e6876d65ad252a8af6e2a1bd3e47325580b476,
    0x6ab68e418956b8dea56e50e364b5a342459aff6a48c189f08e3eb5dda7bd2bb2⟩,
  ⟨0x44bd5f1c66463f82fc59682ab54ca32e87d7fc118851f9eec0f833ab588df407,
    0x3a3636368ec1277fa790f9e583b9b23718fb839f0ad1fd1a0bf7a07186469cc1,
    0x2bbf0a51a5f7425e81161c04fbe675e92621b4aacdee0ea18624e4c3bf5296d2⟩,
  ⟨0x7829825c7d80494a89252cbbe06468fffa3527ed03079108ca7f675f5ea6eb8c,
    0x307d3f74b7ebc7a160f09f4135b68074f97d7d081bc8d2faf871345630d39d85,
    0x109cc70650b1a9feb385cac65a5ea17679e1829f2fd698ec5b1e8e9aa694b763⟩]

/-- Window 10: the multiples 1 to 8 of 256^10 · B (R214). -/
def window10 : Vector Duif 8 := #v[
  ⟨0x4ddfd94274c7bea769675530b0dbd011af563909ae46d6b913cc557cda5baaf7,
    0x6d51f6cecad1197347c9da81d29ed9b72d715d05d6a4605a44fa82c51c1599f0,
    0x6503f0a72f44abe63282994ceca837776595892a3963c01b32b3bbf4e3ecb2a7⟩,
  ⟨0x6857bd76c257d0408cc9469953e43556fe9c6d6f3223f80b9205ac66e23bd244,
    0x5f85d61c8e989a015dd2f6ef492e3bfed18aebb79e3763b8a7720965cc06fcc3,
    0x4c90d18b5d75e8033c0102c085d6eb6c94cc131090b084d93727ef008afb2de9⟩,
  ⟨0x7d824ef6503163fa9f4d05d612ae076cab350777b058e0ce6bad56cd6cf9e0bc,
    0x322c6fa0f139d758039c78ea1b6126fb9614b5f5a7bb59dec4a117bf6fdc387e,
    0x7049ee65e14a87323c3002618962eec3bac43c9987f6df49ee65f1bd1aa22238⟩,
  ⟨0x7718c064c5b23ec84b99bb55db16834a98cce15b3c07dc2a35ef775f3042019c,
    0x6be8f5042413d4be21dcf970b8c7a29d9b6852ec59f39c998ff9cd42c2f0382d,
    0x5b1f4cceeecbde8c7bda6f415910b0985260acb6c9d445d5773d5b73d094582f⟩,
  ⟨0x118fcbcde37cd9aac8659e371e77f498bb4db92add5e57b0178c246e7125d763,
    0x24774dbc349d0295da17b400dac669984bb759aa84726467cb5421e09af70fe2,
    0x03cdfd4d843c9209dbc6b804e0a7da335825d8187f10468fae18ef25e61579e3⟩,
  ⟨0x4f7a7d8aca3831b5ebb6d631e8842a3a855045bc3bfb1ca979e4f6c0516aa119,
    0x01c63bfb4240b8ca769e7896859ab240421cb2119ed4ad5871c81d28ed1806fa,
    0x2baf74952505ffab39596f9a4c0810ccacac85214b6866e142a72f732d8b3df6⟩,
  ⟨0x50050f3f1c17ac0d9c4f1d9315c4836161d78913d299dcec2ea35e2285526bf7,
    0x61ea73889669fe8002dd5eaba97b99ef1870b8614ca44edeea604048450c17de,
    0x42876529328f271c7f15c2ecab38cbfab8de4c4d82b3296028c6dcb3f57c9d59⟩,
  ⟨0x30a8e04fd098d72ba658bcda9a7653cfcd8cddff0a9d5a4bcbd61cbb30733475,
    0x258773610e2c7a637e6cbd64f6c23d9ef4fa822f7fb81dcde1a18d6f229f864e,
    0x0ff7927d4007818588d95dc3890b8b84ee931770155a773d1d7aae06fef82ecb⟩]

/-- Window 11: the multiples 1 to 8 of 256^11 · B (R214). -/
def window11 : Vector Duif 8 := #v[
  ⟨0x14002ff3641a060bee50c4b626f2dd72c6c85c0361692302116957fa984bb5c3,
    0x2a26a49497e4309f56900584fd9d0bd907ca4a981febb20c1beb29fd8d5398cb,
    0x397239498798b6fd7baddde6b36ca59b2e0dffca12883ed0b577dd4f9a294344⟩,
  ⟨0x4ff73f8007f0321c1e42f3cb946822283d5526c32fb2b37803f9fb1ae9953b0a,
    0x6d4e97461399d1a67eced75301f7ef0158a8150591a28770934a90464bc0841e,
    0x407ca028f70202a1bda56ae6e9254476526d79248a1a66debb2982ed01edfbe9⟩,
  ⟨0x63dbffe92eea02296734cc5fb7058f62ac1f68679edbb353ebf7c9dd83d7cba0,
    0x03ebce3f45f55886d9b618b637215c1e790e45cdd8238d83469ab591e1e99859,
    0x0e1a9051af5325db06ab9215ed8fe0dfc503359d70f7614dc3fdfdce5e046e89⟩,
  ⟨0x5c3a861db368972ada4ab54f0be384c80fdd918e895e6c3f66d437a010b5e023,
    0x0e1e82bbae877337c861db00cc4171cb1f30e1d09c1c10cdc06929d35e65d1a5,
    0x0310f163e998243e1080a7f3ba267014e5e0639e15aefb38b49778a04a11728d⟩,
  ⟨0x6ec72c4e5080174e92c91838f4d551da2a6fd7dcf0be70cb5bd70bcb586df870,
    0x4003eb04bde9d2de3293241bb2ac0f1848752460e34fcd6e57cc3066412cc1bd,
    0x4ac1ebbc1e0e5fc3054b0a1c5da8f177d969e1b1ac47971f605f8eca8421549c⟩,
  ⟨0x64ac032741e2ac050b7095afdf2dc3930e8db3cf7b9662c7c801a382664e945a,
    0x52952f9740f6c7b864d3150933048b3d2cbe1d0a2ab380ba76775177aed13d67,
    0x43ce0b85ec21d9c40da9ed3c0608897efe61fbc2983e463586944a13283373fd⟩,
  ⟨0x33b4606b98bdc5661e53391ff9e1f7a44d7bb436dd81ab9de6eb66a8606ae82b,
    0x76f602f1a564fd801abca11228dc75215f71a18f3102f29182837672327d37f6,
    0x68a22f0a6ee6a97a61165eee36b5930020bdf9d3ccbdbdc8ca5b12f2f8aae0d0⟩,
  ⟨0x4974c8043727ea1ea5a4fca45f187bd3c629d127c903c894c498a3d595df5221,
    0x498c3798f1c94ae45c5eb4938b31c2edc733ffb5a225de59aba815a59d8a249f,
    0x3bd971f82e9f4cd7ef889b621d2dcc1fcfcd49af090e757cf8864b59bfefdd97⟩]

/-- Window 12: the multiples 1 to 8 of 256^12 · B (R214). -/
def window12 : Vector Duif 8 := #v[
  ⟨0x03d0ca8a9704af4568be1781ac7e723052e8cf9860124335eacc31ce096ed852,
    0x31dbcafe3d6992ae8e3b836c8bd47c845e45b0dfa7c279e594b7d4e2ce17626f,
    0x1f47f41e8197809bd7d0feaee2a09321c8219d8167c6f21dd41b47811c4f2fe4⟩,
  ⟨0x116b044cd312c64352ceaed2893066f1efe28d4719f01b9884382646f477e89e,
    0x3add1dbcbfd62003ef0e2d70b0ddfec24a792138338422a497c58adc82b8514a,
    0x0482683dc3bbcf2f59c423de75a00930307f4545b63ec54d311cede03866e8cb⟩,
  ⟨0x712055675d7b95360b3b4bd6d040fc98834a97865e96861cfa1916b3247ca053,
    0x21f10a1fde0eef039631e631d6c36628e798ed9f63a646d55a670fea6edd48ce,
    0x2b5ed791c6da065633789dd3f3e498b56b4a3e2de51be92d7c1a3a4e2dd14ad0⟩,
  ⟨0x01d518a83f0f2baa3e4dc2c8ebd0a7ae031535dbb111c35c898869b660ce9dd9,
    0x4e925436c1ba098c4f070a290ead2ab919c2b46ab75c9ea01b155cf1fa9a99ec,
    0x61d930ee4d75a42cc46912c10e849abe7022f5782a56460e7a763b247fea6706⟩,
  ⟨0x015a6af1214a04b20146886eeaa7cab3ca7f38930005fa3d8ca89ec5b64a89b2,
    0x59302ae7ad93b5e158161771301ef519d04f683ee0bd1acef2ad8f0cc45dbcd4,
    0x13d36404d72e9a08624e7a49b64121c4f56623230c3672845a50aae59468c6f9⟩,
  ⟨0x110a81b01ec612ccbcfd2c9234eb81b66ea51f2bb533655966961385621eb4aa,
    0x165b38ba7fb050bf79176fd18afaac2d1be9eb9d33ad2df445d375e68f86d8c4,
    0x3d8efa5b9c487a1b41448e333d4a787a54a11022394671f8acf766fc9c85f0e8⟩,
  ⟨0x3434c122e9a9701ed95554468fdb531871aaae4fea4a04ea2f97110c03fc7ac6,
    0x30fe77932c7e2cc90af5c7f106bfbd873e364f0315aa88b07249797059d95112,
    0x2367a6239ed780e7a25d714087fb624179f25569c36ed66bedd8aec2950c0c3d⟩,
  ⟨0x0832d57286c662dd924461c62b14e75d3e0f3f7c1c95a42a109e3753f8a4c0a0,
    0x549c3de68a75afa03958d3f965f2e56e072f6d008b481981a13292f6cf6272f3,
    0x74d0cc73278e738b0503f3d8f0c1a0182e1d96eb5fe533a50e162292ef9006a2⟩]

/-- Window 13: the multiples 1 to 8 of 256^13 · B (R214). -/
def window13 : Vector Duif 8 := #v[
  ⟨0x52d934bde933fcf23800cabb76c35073a3f6aecb1e427d99f080a21a6e62e56d,
    0x39b4f3549249d0dfcefaa5332028385c23e4c44e64284b33c83159706c8d3c5e,
    0x0a10341edaa726697027661def939daf1e52fdeca0aee3dc4eb39ffd89cc3432⟩,
  ⟨0x18f41da0b0e840e0e9d86d24d335ef29b50d8674cb2356459a775db7e0e62d68,
    0x705b1df5fa845396fd816997e65d562e31061a802f2c60815a3c5e8f124ee8c2,
    0x6ae78f5b16aa818badf670a5b78c341fa4f247a79499056c4bf463894f03159e⟩,
  ⟨0x0d2b7dd5315d0099dec18e71a489f7106b9d5ceef3cce61b183b5af1befac629,
    0x334d32b22b8448ea712017d48962afd3c5ce8436a84a40ce2c3c880832e11eac,
    0x09e241b3cce2c52e4c39d72b209a3b289812abddd3be1b8d4a1f35a82e4ee4f6⟩,
  ⟨0x285ee43ee472dc13ea597441dc72a9b2ef75e2762b8d2421626e7db52ec5e840,
    0x737c0649d31bdb038cfc1b32765adcdb7e09e0c3e3f89fb0a11d2ea32d59f0d3,
    0x4eeab222392fead732581d6192db9dcb191a9f0af808d5ecb0369bc1b76ff07f⟩,
  ⟨0x1d1d2287b1d182e6f9f1c5f0cff3cbbe3ea67508f570e1f0614bf300045d644d,
    0x47322c8910cfb9973738a2a1a4910645de4fb56238e6be0ac7d23ffc19b10935,
    0x58c646c9c9d4d43de8f1b6368bccb7c01c4e98c1ef4a528803c79798ec1ca30a⟩,
  ⟨0x284d20e192ca857b2ac28efef9acb9e6fe490b2c1a16cf1daeb34f14d58ee9cc,
    0x51263e33cd0ea98a5e4c69f1dd42cc77864f9e24bf926db3793a2e81957fff03,
    0x42dff811945089c4c17609404ec19f44bc9f79fa320d8f99dee0376e537c92eb⟩,
  ⟨0x2bb13be6f700d1f50fba4735c7a5292027f386e42252fd7f3440d06e86e28972,
    0x7c05c661fd152253cb3a0824e90d0e442a25678568d667ac9b1909b811e56ffc,
    0x6ffa0c393138dbd0af41528a1a731506cd2bbfde8a02ef040f79c55e11a79826⟩,
  ⟨0x14ea6dc6505065b4d60f93749c3c093b79ae951da1930870f2eda3f409db4aa0,
    0x483501ee12d4b35f7d4c44a6035e81aed3b01012f9f3bc7a9cc704060bc4edc5,
    0x2559c52882965f7d1e2bb2c564447bf81c334ed2d66984f2ecd685579999a9e8⟩]

/-- Window 14: the multiples 1 to 8 of 256^14 · B (R214). -/
def window14 : Vector Duif 8 := #v[
  ⟨0x1820e35d827695cd92eab5ae900b1a6174159f7efbabaee76b67e8f7afeee04e,
    0x54e6e8d6e044534878d405eae505670ecc60e02ba2116509ed3e1592b3b46ac0,
    0x0825deb40a024d3d8d234c5dafb6012e56f3cbbacf9ab59707f9797cecab70a4⟩,
  ⟨0x502795107d8396fadbfc01266f10792bf495f34ea663ab40d4aecd2feb3ff8a8,
    0x6df4662b849538a4a26e2e218269796f16408ee6ec379de128f87e98b478f6aa,
    0x52b87d8be13c8b0fb29e1e18c7b6ae18bac48aad5eb29718640a1d9e9875d833⟩,
  ⟨0x120e2fc8ef00c3343cc37516c452649ae4737dd447c828688c9754aa85dc122d,
    0x5ee5b2f529818566f4638a1532da92b17afcb7bb0e6b01361f7d1b3f965b0ab1,
    0x0421076eafe6f8728b6bfe6e91ad80e8c7df9678116cb99d146c0b94a06f3655⟩,
  ⟨0x026b2a7990edc44e2ecb3863f5dc8a90db09adad13b7034281ac61a7027a0867,
    0x06cd29f7de0bb4fef18bcb0bfe1cf315abf08c6a710d1f3766ff9055c1b17d25,
    0x653d27930c4c8d6b8e5b040b999a514914aa6f5b46d2ee96af3ee08b6ededae1⟩,
  ⟨0x654b18a111f07719eec242b24344cf7949ed413838c0a3f91261d948d79b951c,
    0x48da86266ee98c2466fe7842807008891efb2f9a35ae0dc7fa538c012fd8afc1,
    0x27a5e726e735e628bb99a45b1e8159f939c70bbf4e0abb6cd37413a204527feb⟩,
  ⟨0x58216772b0acaf9ba475a04df935a7d3722b38c7e576118b987130b7624e85ae,
    0x39fe6e8a5b8e00f3690d04eb8e751e7a1375392b497ac54f538fe72d711212c2,
    0x5c4f3a064d4e70eb26573b10afc20d3e42ad71b6de711885213f383ca24dd617⟩,
  ⟨0x12e212f2eb131b4832fe1f55d0cdc8f6f2ad859913c8ce70e4debc7b2b875614,
    0x30aa29bca32d33c422d9f83eb1631c0dcba80191f1a46856b27e59d71a6e5ce7,
    0x329cd0448aa423acc60a7b132745363b9f7cbb13c70311841f9f035378ebef37⟩,
  ⟨0x47b29907780cdec824544feb9b6538b48cd95e1e4c2127c76ee26dea0a5da503,
    0x48e2f25562e68c3631272e747cdccf19e0a82a2092e23422f4e90fba61e97bb0,
    0x2655e3def61983952cd45786fd7949cd279ff3718b1da8c0ea4368d8e57ef063⟩]

/-- Window 15: the multiples 1 to 8 of 256^15 · B (R214). -/
def window15 : Vector Duif 8 := #v[
  ⟨0x7f724c0b2d659010f93bc5fe67b2e64eff18539650a026cfe047bc479fbc693b,
    0x31cdc9f8190e42c10bedf6953b27d09563a462601d7f239c11cf4b12044e0517,
    0x476fa49e42db015373e9576157397e8c9595c86a40483a44bdea8471c888d0d8⟩,
  ⟨0x4260062a68efd1b48e47e7fd65735f6f5048201ffbfafc1ab3b3e269423b2080,
    0x201dc97180cea7da27f20eba115b3f83f52ba787f5d6f107576640ac2ccdad34,
    0x1aadd8955930bb7a57745fd68263eb2bb8d079ad0a4077fc26e117c0c5a32e7c⟩,
  ⟨0x3a8c757c702956c73783be5f9dd71f96f6c801ced9e75508d180ed63ad46398c,
    0x07cdc0990c1761890535e2867d02f3c2f2dec26cf651d861d38f32663a49ddfa,
    0x23e1c38ddd8baae20c0ad494e4d8e8ec8796b05e7a1c194c52442ce20dbfb619⟩,
  ⟨0x047f5016746a46aff29baa75220d74703176625859d14cd87df32ea864283358,
    0x005c4dc2bb234cee7bb1608d23e1e335fc02d8bee4c62eb728a229cbb8f627a4,
    0x239c14d3a7baea9bda8a67e6aec4eb32e432229025b42e91c126eebb346f7568⟩,
  ⟨0x763345a6a27269c80a92b9c867f097da32616ee77781ac4791eca99d569c815b,
    0x103c34262419e35a1aaf77925623f585731debec5930c6f841696d3aa33ce20c,
    0x3a08d302a7c5219fd4b632d3c64776bdfbb5055940939f4b9da46790bd3c4106⟩,
  ⟨0x0f64d43922c61cc7c22af65d0f779afab43898acf9c950812bcd729e8c58bada,
    0x7e09b2ba7dc09a7fd9a638966e61724402266e3ab01d788aa6b2ce995ccee42d,
    0x5d6ec452e3e6b2302bf3e64df8cabab0cdc0eb8105e4415a5c73526a00512844⟩,
  ⟨0x30dd0898d20353900e965115797b371d47bf1acc2ffb2cf642e14c6a2c9c9823,
    0x124c94fe6643cf3a42a981345f5b68c3816ff7b67b360fde55c4abb85b1aee79,
    0x6b1018865dec7673bdf8ad1f133c1983811db5b65d3f5ec4d1e850788b4ac80b⟩,
  ⟨0x3f642379b2c67626d3763988d5daca6ea0747fb3b647b0c9b3235afa3bf142eb,
    0x5bb3b51526cecb9847b6c3c7e1fa0e115cedfc035289117aa944c9a1a49a6b18,
    0x76d57b919ccdceea90a647e7d14c4fdc09878ebbb600e689cdaf479f8ed1175a⟩]

/-- Window 16: the multiples 1 to 8 of 256^16 · B (R214). -/
def window16 : Vector Duif 8 := #v[
  ⟨0x15aa24f2c759ddd5158f2c1d840862ed94dba1f40a45f4422c1d825fd656c751,
    0x498274f38b13eaa88061f298a2ba394cfbf51c2a475ed05c2f9d3ab1759edf1a,
    0x22346f16be16eb49ed07f0fffcbce3051e0dd59fc5a46e85bc4c0a69356e4e7f⟩,
  ⟨0x2ed3213f319239a96a543362b2bd3b9610889a98a1ae861425cd6c637c3183e7,
    0x36673e37fda25eb1c9d2db6b223fccb119f36e2611eee3aa28dd9aaf4a0ca34f,
    0x2c794d5ff3cf96544456c61c46acac07dc83377bddd70ffc0d4a63446f561165⟩,
  ⟨0x357c9b920c2da4381b21e82b6a859d5cd8a6729c2316149e25ad325fb88766fb,
    0x2bbb14e253fa0f1b7824ad85df00acc12a01b7cf9bbf3b52f48767d5c6f39f34,
    0x380f92dd865760c7c1f11b119e19944fe9701b09a5aac4b99910012284e35444⟩,
  ⟨0x79052de0284aaf28907ada915627306b422503733a5fedf24e8c7b6cbe5f6080,
    0x5706495fdee205f4b0f1830ffa5e52ce7b8033074f12d43ee1d4587c7230b66d,
    0x474dce5d8a277876348a0bf9ae1149a37427459bb12155fe061f84a1cdc02d11⟩,
  ⟨0x1b36a20c8e7e9e6f225478df8e346bc8e4e1d59b85391fdcc6f74deaaed8df77,
    0x510882759f99bdec6a4098a931aaa1dff740c8b5edfc86877ddd6a47fdab904d,
    0x20b3d2735e2c9922665c17873453fdcb976d137e5ac2b61dcf1e0ba1f95e460a⟩,
  ⟨0x1a5999b865bf697b7897373f179b277774b3ff8a74406b16615f1332fc6747f7,
    0x3c9c5dbf112a92350da5a18190fe03422e8ecea0073b3475b21dce943b7b1380,
    0x08bb7e3716ff32f276ba42e0ac404441e701084e76c2d3a9e6e2c8f74340eb66⟩,
  ⟨0x0fb51f2a7934835b109aa7ff6f6bc3cdcc7de615567a2051edc87144a4bb875c,
    0x447e1d2633beaf9a1ea7d28175f4a6e216efe4fa5952c2405a57b6682dce30c4,
    0x2797d6808b5c8068f1199f11fbacc14aa06042db188b2e6b305260cce9839a75⟩,
  ⟨0x1a28ccaf94a27740b7b0cd9cf9db0b44f302bbd57e094e044b166c8edb9ddb1c,
    0x222a42524b977bd5d30f35969b46824c2faa0e288c2bf7b6225f5920ca57272a,
    0x085c4e53021449db92c74d5523942e202540b64a5849ae7b48a97e684ff53ebe⟩]

/-- Window 17: the multiples 1 to 8 of 256^17 · B (R214). -/
def window17 : Vector Duif 8 := #v[
  ⟨0x0be968ecf786a6d488bbb5ce397fa8db683e5776b6ce2fb2ba9ca0df2d22f837,
    0x105c3c6abbdba8c701315fe58a61f78a8975fc6292299f931eaca3a4cb8c144e,
    0x3910a7b1e632e3539171db961e5300117e9ff28ceba9083493f9578c039f9f35⟩,
  ⟨0x4f925642ad0aa2d87960395e9897cee26b02c12527a8c7ba8ecedbdcfa1d94db,
    0x6fefa462c0b8e5e4eb7de853b9bb084cd5d38a6b9799b3cada71bfa02983d340,
    0x005d39cf1571caf363fff22e037d92d123a460e8860a1077126b0419474a82d5⟩,
  ⟨0x3914bef3ea8c69132e4f81861334a7281b033cecc24b9dfdd722137af5445d93,
    0x01941d1f33d6bc7988ad1db07cda4c9172dfdbe9a2e1516fac974c6f2e43c86b,
    0x42f094b423138ca2e9efe486811449841978cda6c5b1984024120ee3df065c93⟩,
  ⟨0x3c6792e9c12c6726421ab3537ae46fc95e640676681840ecd6dfdde4121622a8,
    0x1ce0064e09b4c6cdd816d5d749dae8f06777e47e7895dcbe5d41775996ce24ad,
    0x0035a903b59ffc1964d3ad4bf8277d02d5428e55ce15f8438ad735c718a44eb4⟩,
  ⟨0x7ef174ab0d4fbae76a59b5e715fa53d59a03f8a620bd5e14fae5bf0b5ce7040d,
    0x26abf1a21de3b0912bef9ce9b828b59cdb40ef8c4b31887114f067f0cecabc0e,
    0x759548578d3014f6ede4e22069f74d40a400a93faec2edccef386a7a5b52af5c⟩,
  ⟨0x232c096413b61084e323f37926773999ec180da397dc83cdbbf5f9922dd96c05,
    0x6fec7a74e8969f2553b25721f376e896ab9a940ef01fafe8b491fa7e4d730f42,
    0x42d996158e58b3c80c06a53def14b46bb832fdba9c18ee0b26a1df5915083163⟩,
  ⟨0x58bb8d242b3983f0db614e869a05cbce990a14372199f9e67bfe52163d6ac0c1,
    0x5daaab51bda38f4ceddf77f93efce6b0d0e78d5602eff7c1e4602f666926d475,
    0x27e03ce93d399b75d1e8b0241415ad79f6d9a8aa0d15d25b1958629270a6ea41⟩,
  ⟨0x5208b8615d71e68432117ba6b21f1e5c899be5e4e64a7328ee1a45a20643627d,
    0x4922b3e7657cc7497fffe04e3c407229924bdeb2816ff4d3a8e49c5844df97b6,
    0x1fc3094b36438006a573a83075e36257f8488ef70089f21a9ffcd5c3056239da⟩]

/-- Window 18: the multiples 1 to 8 of 256^18 · B (R214). -/
def window18 : Vector Duif 8 := #v[
  ⟨0x537abf7743c50cea6e4f9a85cfc96855148aced9b9c4ceeece0c7e7d1b024680,
    0x282553bb3cb9b09ebfb1432d98f791c62a8ee6d97538c1c2aacd0664bc1506ef,
    0x6020ca1ecedd1834c2e0ad1a27ad1233a8c068b1123d78bd8655966aab43f7cf⟩,
  ⟨0x496c98a14c00680ce58ea7bd01fde4f1a3d35a1232455be72590bba1d1365565,
    0x0a1050ecbb421a07ecfd4af70e3be66346ba4e4e13754e57e1e0775d21f5e64b,
    0x4da7c918a1acd009220c142a71aff9caaf1e28a0591d523d80633bcce99bac9e⟩,
  ⟨0x6ff8c8eab7cd11fb55c1552028ef7a7b128fb9e910afa42c99e79818524c334f,
    0x51cdab953f8996d71075721fcbaf98101ce77d4896f4b4b51f2e084ec48a849f,
    0x010629353ac79b65f7a2b9402ac9f59e9441d5bcafe4c291c0cf6a19d616c834⟩,
  ⟨0x62967f052b01628656e470c55763accb962c4e4ec70925db7498f7acf821663b,
    0x015566230a989c3bd4a9266e51f0d83a6479557cee3e52363bcc1a7c4f6c6dde,
    0x667dbebd9825c3bdd58bf512f8fd88e4dde2321387303e4fc3507bd0323c3be6⟩,
  ⟨0x2d8ea65e21a69d62e1a1e42bf664b86815b766b8efab8c86f1434ce14bc4f789,
    0x0a5a31159c83a9b25c61d51b9f71a64faa634a6cce356e40395a1eb65c4dbaff,
    0x17cc7b892c2c96e88980a4c599b4d3829d278715dc46e672db7d930ae6054f93⟩,
  ⟨0x4ec03174f3b0a2aa675fc486bac1aef07e7f1f7854e5ebef1709572227aa5377,
    0x1d357124ec03557ccd156610c11807b3ad8ffa54c7470990064a53a65a87cf2b,
    0x14c5c67457792ff9c6870efdef9a5a748d07545ac8dc87b132bd6d42d4c83e2d⟩,
  ⟨0x35d3138c01d3ebee290b1b63bb9c57381fd583da05e7bcfb41bd39750510b2ef,
    0x1a5c542026ae7242ca0c22bd1853e7b525c4e4953c8ab83b15493ca9f7fb8659,
    0x78eb15eea32f0e355149d54d525912b9ead409efb1daff7ee137765ac1b49991⟩,
  ⟨0x4e199b109315959e8a2b8ff51fa4f842ebbfcae78b5832fae696daed58fbaf71,
    0x3a6af98bf98b95d271b22ffcfb80ed2d7b6da1bc8507d25a3299e61469bc6fc0,
    0x6575e622a3f4ecc66d36844971d6311d9cc5be3a9594c61bd437f2aa33ece537⟩]

/-- Window 19: the multiples 1 to 8 of 256^19 · B (R214). -/
def window19 : Vector Duif 8 := #v[
  ⟨0x0b9deceee4d0ef966df31d01a52c5103c0359929add42db705a046cf39aa5b08,
    0x6ec47dfcad1edbc92984094db8eb7dd4f3dc5d62c36246380978038d93b680db,
    0x4370e689d8cf518cf37693c764b39d702c6b2c176a1c8c6095a8078f7f2c3966⟩,
  ⟨0x7f9d350d46c1bd89863c2fa34b21df939dd505c813c68223a395d7b14f2d81a0,
    0x5840301a9370b1331ff1af0a5026844708c719498fd5b55f206856a8b78b3788,
    0x58687ef69728983f3466bc182c96319ccad46aaae480f6fb7bf3221cae9ebffc⟩,
  ⟨0x230a8421a8e2c4ecae46f393397d2095d04ab914b3325de7ce5a4b8f345c23a8,
    0x45490a101604cc3434b28c3fc7a4cd3b8dedf3c7786626ce702ca68d790919d0,
    0x1de506944ae52eff0736fa80b2cc99762ae388868b01a6575e480ce0575cd017⟩,
  ⟨0x67545a01c6f94120e516caafafbd4ff1785e41d6d32244b7ce34475b4f6600d6,
    0x2b18ef6ed74789e6cc0c1ed10987daa28cfe459f67f83d30207818de1e2eb152,
    0x126704982a165231c890bba2a4f88d2fa3182982d24677419576a30578e56901⟩,
  ⟨0x6a4c94539927a1405970326f32497c22697b8b471b1b97521fe7d0aafef985b9,
    0x20ea71e145036ba5c13c047f3746579f5ae2341aaec408790ff4487afe836083,
    0x248db36f606e7fb55e1de99de8bfa6b4d748f25be92ffef579371953b1f70d17⟩,
  ⟨0x667b5c585b80c5b3c11a51bc8fbdbdd276911657b3f11425baf82547686d3247,
    0x44799c68642f725656055fa965fc6ca3f1eafc663f0b6dcc4c7ad89ee3f5194a,
    0x6986a5417583c54ce09e998dc23bb831d593de00ef99063d61c1d410cc8d39d5⟩,
  ⟨0x06d9f3f0065fdead95d67a096467dc2812bfd97e2480544036b4b9a2b64d5fcf,
    0x72f53a9f880bb85ce3a41191e6427fc5bf16bc134655a9ad00261b1870fca409,
    0x4152760c90f0d0ed87df022109a21d8d40eb163fb0dae5b59eb37e1f7104b1a8⟩,
  ⟨0x5b6895aef6033fe78b9092428e031abc08c6430c93772bf97ae430b178e7bca6,
    0x1e8a1e28893c04dfe665f37445d0381bdc2bbd6622d7d05c2e7312cd1d925c51,
    0x577a8bc42dd4142c9b5edb746f8bcdd66af247ae7e3c1d05093693c8bc8aa2a2⟩]

/-- Window 20: the multiples 1 to 8 of 256^20 · B (R214). -/
def window20 : Vector Duif 8 := #v[
  ⟨0x6bcb41485d9d004af87a96e3a36aee92e9fc9c56c44acb5c4b775ffd982d979f,
    0x178dbc7d58a1d45370c2ecab74c038c55cf7917dd5f820d2231bcba7462c576e,
    0x7ee21f1aee1551f0e7ba84d437717768f9c9b2c692787623fb8d5c2185107077⟩,
  ⟨0x0227dc0ec16a854c87976c028f91be9f1abb634caf277eca2d3c152e139f4b8c,
    0x7f7b900b3ac66097e37046fc77903cd8e487cd98a5d829aac2cb3332c43eecd8,
    0x7fbcc11fce186e976538229a5900dda4abd99b8ee72631ace0ef8c62d483f1e3⟩,
  ⟨0x3254d8218e036b781e5fccaabef6adf38413c4a70028646f354e0ff8347ac3dd,
    0x052701b9ebc26cda095aa09b7ac85e99e09b386a5c8fd46c419a691cd1da89f4,
    0x438d3e85670c1a3638ab6721c4d22ea3d85a7b506a9d411a9759eb50adbe9483⟩,
  ⟨0x7e34de7bb0bbaae9cd7ab10d904eaf9b06b2ca8384d8a8a0e6061aa91070a20f,
    0x561de638a3753f4e67aa18016077bb4580931482dfd2b177698396d56443dcfc,
    0x77ad4d399156528ef4a8d4d18b8bcc6b886d8c1297a879be83f86bf5827414a6⟩,
  ⟨0x0155cb4077469d922292ab3d23c34e01c6cf04a0403c57cf7394ea75d1eca25f,
    0x64a710d170a3d7e5277d23b81e628e4fe24fbce0867f7dcdc5d0800617a0e359,
    0x35aebb65f5235d9a7d048f8eec8f7b6c90cd112707dcd124f7d24542eef286cd⟩,
  ⟨0x0b7dc34e01ee989f20459f51687e63a378f3573a01b49b69f07ca08b8f3c1291,
    0x057199fb4293b9aa5780b48a47a15a3bb2396e37ae680edd442baab676066cca,
    0x1fc0f1c5c7b8683aa408fbf684c8e81f127e395a6c55f09994470ccb99db04b1⟩,
  ⟨0x0569f169a66f6e1eeabe1f45e5fc757bba5c91e1eba14cd2056dbf9aaf8be412,
    0x282887e0827a84c9d41cbf69258623822a2e5c509232c3a5bfc887e63f6cd7ff,
    0x493e0ac5f87d0f5f796b7e8004f77f0e3a2f6f0ce198e7ecb78607e299b71245⟩,
  ⟨0x276c123ce8b3efcab1203405c39c24540eccb9e9ba26ff4b6f5147e25728dcba,
    0x1aa77c3e83f7a7b44da09fe0a5a75665d2256eea29651b23fb0cbe21174c3cd1,
    0x5816c969029c91b6c404561854fb329e281a977e75a0d85c7f71da913062ecb1⟩]

/-- Window 21: the multiples 1 to 8 of 256^21 · B (R214). -/
def window21 : Vector Duif 8 := #v[
  ⟨0x476e2faf5a1368302f0cb36a3c3d7b740270df94d25eb54996de37db727078b2,
    0x4872e9dbb78e57265763de5c61347d4376b17848d0c31eecbc09e0d15e521415,
    0x62da36289b0e5d395fc3931d81abc511f4ee0f761254fb20aa29dfeb29ed472a⟩,
  ⟨0x2e0e0577990914efa5aca7bdd9874cac5589b22b3b310718674ea6eec53ff1f2,
    0x50bbdfd1b6e5b89d8eddeaa591d45f42712bf8ee47467a2854a0155f98a7bfc7,
    0x65730c9c3ec55add843d3b32ce419243b024408f612facd99b840dde7d3cedbe⟩,
  ⟨0x7ab42d5f2dd21eb241d61a246a12c825fe70231538cb189b3088bf224c2dfdb8,
    0x0d006c8d8bdf9f01af5875cba50986b03ec4755a5a0da03c46edfb5529a25197,
    0x09aa94db11d873556fb93a883d7b32b4aa1e87d464ffa4a9374b0499f5b0f959⟩,
  ⟨0x2cb975028ac85309f64ed31b8a12a5575a15f58cf404c2e0fae38b5e711741ff,
    0x3cdadc0d32e51d00c39970f8388a3acdcbcfbc4467e08f888c786debd6e8ea8c,
    0x67bf4e4ac82f9dede00d96b2599b021a4d4d694a5626a7d407ea56106e47bbff⟩,
  ⟨0x0ca1776250a256e4404924cf78d24a3345e69d8e6df5f56bb8e4221e9aa94cff,
    0x18cc9d6c9731c7264614ccd729fdece36c29079cc4d6ee07b133a5de2bc09817,
    0x15053298a77ce53aaa9e724a129e0891160d9ec886751f493ed6298cd711a4c9⟩,
  ⟨0x02aee1cdb6f50d09b0743074d466d35597cf5e562d1ade1de79b0d669e0e3c9d,
    0x267b710c323e16f6acc179d108aad7bb6dba0f830be8531a96dbc9bffbfc93e1,
    0x090d183b8855125b541e3c677251964483f1275e3ba6ffd5d88c913e6146addb⟩,
  ⟨0x693ddca536769d4d944f1411884bde69c45ff03bdc15cb57eb2cb89f63ba41db,
    0x599fe3b63d207296a302a348caa8e9d8f0a9fe04981a5e16f26daeaf4f81a542,
    0x35c4834d9053d4fba4281aef17b26c729a02e83e371c1c00ab1ecc954cada417⟩,
  ⟨0x4239e98453b1cde794f3646cfb73d2bf0343437c639a60aaa0417d465ae3edb2,
    0x51de1081d539f5b9ffd6e26728397782ccad44fd7c922da740955020b13810fd,
    0x4817b9dfef021a0d0150f7ba7300d4a795a5a109236e624965773c9301ac4ef9⟩]

/-- Window 22: the multiples 1 to 8 of 256^22 · B (R214). -/
def window22 : Vector Duif 8 := #v[
  ⟨0x1fb5eb92ed275096cc0f9baefaa8211a3d64301495ffff83515a6d705aa88e4d,
    0x1b2cbe92f52e009edb93896d16fbd7d4811d45772bc3e348758c5cd5bfaba2e3,
    0x3dbf660ced306b6832337c7cc9014996eca02bcf37e3482fb9a6c6bd88302c56⟩,
  ⟨0x41df6e330dfae55d04ddffe6c796c16dc1131b2a73d1c32836d72528d3be7d44,
    0x611ad6bb00ba1cab4a8ea222257095e96e929733032148373c611b9e34ae347d,
    0x473e715866f83350d0655a11f171b7722494a12a48c4f94c312c658683c4baf1⟩,
  ⟨0x70a92b09c576775aa4416a3f3f97d5c4f8986028e0fe5d16ff537f6feca5b873,
    0x7337052ec7da33a504ed8bee9d74a6a47e9b0efa1e309cd6e24a321d624642c8,
    0x7f85e4086a8a6f724d5f275d3af44c2ee6b2de785522c5b5955dfb272438657d⟩,
  ⟨0x0e9d483eef62d5ba988f176ea1f634abcffb7c5d177b974c41d64ed6b9b909d0,
    0x468fc6de7c776dfae5e46feca7a31e1446b39b4f2bf0181adc8035d2137a09ae,
    0x00008da2518dfef18094009e018190e594994fd6c28d9a405d0b49989f6840ee⟩,
  ⟨0x31ecc4516942881308d46ebfcd3cb356e0dfb92e2c295eb50b2b0fb4b50553ae,
    0x1d6246c8b741abf0bd71c59c134726b8aea071c726eb06e91fefd0361fe33606,
    0x19fd6a9591b450337c0b34d9c27395c8f495e75c7eec7b41800903a9d7de9197⟩,
  ⟨0x1e61aae65c8538f151ff5b73767b52b78395a7bd82d09d65c6966468621167f4,
    0x0b607a14d12b6e53d9567e697982f3a3057c3218199fbb9aaa0324e362f20f0b,
    0x718f57a135d73ab4643e68d25d5d49225c524a65bd2b1be774db4a21c81f488f⟩,
  ⟨0x218f963fb32fc05aa9b2c79399722ef0b94062fdf17c02a923ecbadcd1b806f4,
    0x6accb2458f548cdade1ecbb08f7cdfc1c2eea5a9360b72d359f482086d337f46,
    0x7d8238afc8929d934480220d104854eb8a559a97d0f528a56b0131a242c7bd83⟩,
  ⟨0x2468567d2be6f111d84d4aac2285fca24b8769eeb68ecd85d9bb614062735d63,
    0x6cd9bdfae17b2c1fe02023b4dbf59622431abe45beae3d5a41f6de94567b5718,
    0x4b11a0c899b69deda104673f74cb01ca78e8d0cbb1179d1bdb0793723ed5f32f⟩]

/-- Window 23: the multiples 1 to 8 of 256^23 · B (R214). -/
def window23 : Vector Duif 8 := #v[
  ⟨0x2512b83d101dc918a8f16c011eeb9ee194e6cde1831b12d06ea4ce6b0ff9c320,
    0x166feff66ae8280311d00a9ff4d27958bbb9653dba160421dcf24cef7b133ffb,
    0x2b90c4b6924724fe20000a261d7100b09821212c0ee8b850955bb34529fb76b5⟩,
  ⟨0x01e49ad7e258187eb1f28bbe70c9c9d9a5d537d3daff1f04142ea848d0e86d27,
    0x2bc76eba7b1e09ed2a84de7499032312c811314f95dcb1da05b72a8bfe8c0dd7,
    0x5f6155ac814463d16e694dc26eb11d1e23e661626ff102fe4cb93b6324958615⟩,
  ⟨0x470dfb36356dd62f05d75263740f55948795c3efa07ae16ad3909d04d71968dc,
    0x56eae12d1007e5674cd06ee839e5cdc1d4c5a6f5b09c8d76d0d0693df26c3dd3,
    0x3982a459ad7447afdfdd34e6dd572f8f0d01000c65c936aef155eaf4bc96443f⟩,
  ⟨0x2c2d113bec3c22eea11f836583113815df9f78bb849a9f8cc02d84a5d0eb719a,
    0x1821a21da08edc653b07a7a955c61c2832d1378ed908af8b621aa8d1e5d45c77,
    0x3b2b13c4a877cc0fd3c737d29b9f20ffb34c625af63c12bfd0c52fc119ea44b1⟩,
  ⟨0x545dfa425b09fb0b2429f3fe18c1c5471d467ddb838aafee70b839d1f54367c5,
    0x1fa0b05460dc2353135f884fd5ab8747cdf6e97e82835b791c61e7acea8fe460,
    0x0f3ce59ac0c47baea93f4d6909ef3799d7f56883fb6e88df793097ae3789b63e⟩,
  ⟨0x63c55a969ce8f97a6e361686432292f2c252862214ceef6cbbf4a9ec7af040b7,
    0x72ebca8d9d1d9c18bffc8472de7cef7e4145b53fff4f087c009a1b61f77bf1ef,
    0x4b6c3d208d10910a5c1635a05360e4b7f2eef0de438d6403b3535269c92968a3⟩,
  ⟨0x4fcc85abbd2d36ef24bd6139b774bbc7f10fd7eb975eccfd7dd26af16aa702b8,
    0x547c3e40b2f9c6532be02ed8eb7cca5bc3cdf1e6862d1260d9debf2d21033101,
    0x22c417f0a9a6b69f3be32b4f2906f0293e8f2875d6753cc7d19a27568df47beb⟩,
  ⟨0x3ee7c21e7202f83a134ced89df644d79dafcf8b0d1c1c9516c564c94ca1e37f2,
    0x3447f2dc7b137b6ebeee8c2bcc2f0947b15b76888bd508d333349a2ebabcc1eb,
    0x339cb43f39938c8dd9df1461c8aee370ea90a1fee52b194cb6486b2425239960⟩]

/-- Window 24: the multiples 1 to 8 of 256^24 · B (R214). -/
def window24 : Vector Duif 8 := #v[
  ⟨0x3ed05c7b46bf3ed5d3f5f9df4aedebe34bd02e7a0d9c521b5336e64ee4060d60,
    0x2308ad5d0ea6e059a668f5a82e6fd465d1324f98557ed4f477bc100a1c2b3ad3,
    0x2d2fc43f41b3a5a581e63010ff592cb00ed637b99088cf4dea078ca9e1daed3b⟩,
  ⟨0x61f1bd716ae8e3864da98144be16f6195ae1e580736190324f4b1469d05321d3,
    0x5b34db2b72268a1a7b814bea525e523f67e75c0a9a86e86247b180e7b8509e7f,
    0x7510f366a7eaf4df5ead6c7c1b131c08b3980ea8ccd09d601c3f1f8376d37090⟩,
  ⟨0x629b8d83800f459b192a196808c1585eb8e98423b8468980f7a09489334cd968,
    0x6c35fcf8d0caffabb4edde9e46415baaac38951500691a9278e30b8518237326,
    0x4757d81bc87290bcd601a4e930d0b75c293c786e30849bf2d36d8446af7c3c7c⟩,
  ⟨0x625719a262a1add99675ef8f75491cb6f6017df19331661828a0402f07bad705,
    0x584d6633ad0163308e40fb9c39a4368610cd20f34105d508cb02aae09ba4020e,
    0x316a910dbfca33c78ec172e327c9b05579bb074ead64b8a14e7944dcddd2a1f7⟩,
  ⟨0x0a794d29c1c9101bd28338402cfb8c9eefd73d88ff748a26bac2ea131d7bbd1e,
    0x6e077ef25e3aa2b151ba82976da54318e435dab645060d06292614ce0c6849ad,
    0x6f391b2e3df7049f6d491a5be1f6a63110fcb86dccda98206fb8bf6e12d96bf1⟩,
  ⟨0x385902aae5b9a4dbd67f9ed68fcf5efeadcb2cf2efcf995f3ec99c831784599f,
    0x7bf8882623da755e4d051bddfa0c8f199bbcb3ae834a6cadabadfe03a2b890b6,
    0x071a1cc7a503202522333bc2af281da3b344211d4d440fe6df2889e2aa889626⟩,
  ⟨0x37c56f6b651bce1f7a190bed399caeb7bef1f08739f9fb200c4985849f258c94,
    0x2f2a029b451b11b93a1fd30fd82db6c684d9f42093c11783db3e916c9f675ef4,
    0x3c06f3976469ef4bfccb3e817ef34a4f243dcbf0d10d5948f1a0091efedbd94d⟩,
  ⟨0x0ef7e356995ac3d314d0bfebcb9b994947b97595154620d5338ff579807a13b9,
    0x075945fb38c946721c560aa8852408dc1c46ef678e3fa683057142a2844d73de,
    0x633e900dfc6e943394c8fbfdbd72ed170a46093bc8bd8af6d7addf0d77a8caca⟩]

/-- Window 25: the multiples 1 to 8 of 256^25 · B (R214). -/
def window25 : Vector Duif 8 := #v[
  ⟨0x577ce2d2dd1c2000f2083269160fa7641fb126596b224c5ede0f7a5eab3d73cb,
    0x78e21e27add1e3cbcb2700e984d23d809d413df67b5184514aff48cd3a77a7cd,
    0x6d3ac651c862f949c12ad9e878f7cc8778c13c5e7257933d5b7eb6fb7d4f3a5d⟩,
  ⟨0x0539c013fb1cea1fea735414d7f45569c6f69b234d409833467048c58eb0ee4a,
    0x56dd712259f5b97671ea005fd05a43e51d5463696abea801d15b93886ca31241,
    0x134c6531a893534e082e1fa524fd8afe80338686f0c1cc21cc07a517abfff0e6⟩,
  ⟨0x1e002586257d19992f3b9f7b0126d4b54f1f848c726929c3171eb817af1eec87,
    0x0fda1ee624e5758384540dc8d0148fe61c0c18fbc92e7fc5f3b298c419585d3c,
    0x75a1fe80e68fe90b9f69932fe366a3c38e514252d4036279cd54a356037a5c0c⟩,
  ⟨0x79a10596b7f86cf85f8a13e10395c91fbaee295cf7055cc85ae3a12c1f3b0770,
    0x2d346b882da97b8a14345cf5d5233c2d0afefc246f87ffdfe3d3aea5a34be2a2,
    0x1edab197f51a5e4f6d455c4b4cfdf9b9c7ac9c89e3111c6257967b65cf428f03⟩,
  ⟨0x6c8cbf524aef958777781e9ca638257c76f575c39f4d44c89724c858c14c12e1,
    0x02190d6fa4ebaf898df96898a4cf3939868bd8fb1cb3acd2fa377715fbaeecec,
    0x22f57ee0fa6b866063e716e0b78acd5273bda1bd3f17c9748270b00cf272ad57⟩,
  ⟨0x5fb9e7752eab6ca018d04e8eee0240e4acede1495eae01cadb07231267e658ed,
    0x6d2f75e401b16d6f4a0d1b32b59116e326117d5167978328b4c200c2c022eb8c,
    0x1302c44893310c6db060903f8aabd77d5f2b803f2264d99cdbd3dfe8852746e3⟩,
  ⟨0x06f6fd08592221dc7603e6655a094f842f21164981e76656a640c71e633b72a1,
    0x2a5686172730aeabc18d953989439aa8e1ec9fef3b30f37a2cfb825341b07f82,
    0x3176595d53bd4a0452da69793760cfe99b78b1a34fd2e0f5f71db3eadc15a915⟩,
  ⟨0x30c89ea83ab31fcc2d5680d6e31850a52fe6af42bcf08252c903941b57db143a,
    0x572cfc8cd4b36c5f3a4164685cb5a638a4b11abe876eebe8f2f6bca9308a9595,
    0x1eede15098e02eae016c00a89fcaca677d23ac194a10013806e3169b0d1918ed⟩]

/-- Window 26: the multiples 1 to 8 of 256^26 · B (R214). -/
def window26 : Vector Duif 8 := #v[
  ⟨0x2f73fd9c6c1902fcf2a5f10c18d01c8e441d5d5bcd83ed10f9d52bd113cb5d8a,
    0x7c4b418a560259b5814003e3f87c4a8a81ce1535c6178986cd6e07fce72f629c,
    0x30e8319e4de50684a357c846931e463c52d67ed4a1a49bfca9c6fee5a0a23547⟩,
  ⟨0x6d91d616fc033dee31bfda6d9c615484f74234aed3781bfe56d1945e7c7e39e6,
    0x374b2fec23d76bfab78d99402a9f7601e2deb5c4bc05b45db1ba249affed92b3,
    0x7cdcdddceecaef6e07388b820a874167f4478cd57d6f36c6cd695ca9f7402934⟩,
  ⟨0x0dd408a305665c1a66b65d0936a22f855019517c67dd840b68ccbed7474fb9ba,
    0x2832f8ac64fe90a3b6063214f2dcbd416931c1d4346461c9f5d9aaa035189361,
    0x1cc0f9cf2c527d7917555cc5387322dd70a300566bb767b3b840b4fd86214caa⟩,
  ⟨0x187a22976e5e0db2f4e970b1e3da7b1970a952801620241d6422efd2b6f337ef,
    0x5c6e041b82d6687e9d42d4a28a549e5a8e8b47b4b0737a2e8c7dc53aac918540,
    0x3196cd0d2c9f9234c4227e39e0752738fd09a2b4fcce5f6642b693c162bacba0⟩,
  ⟨0x5d2d3ef9457b25d110c84616abe7c3bcb1f838c086cfb49d5f84fe88f686424a,
    0x05927a4423f6a52bdd8ecb81b714b3858c11e3efde2a786bfb5db58adc03e5d3,
    0x5a7e7ba23aa40fb1f0ce7fcf802fcd32d229c03af69366796e6d6a5f288df55a⟩,
  ⟨0x008cd18217d9ba584984e488854930472e76d1338c85b97952dd8ed5bc67d54c,
    0x1e9dee0b26fd31fbaaef444141fcafd45c38a6e59c6ca33ee0cbf0263c4bb3e5,
    0x6b604478f6f10539fab2cc72d9415158334ed2fb344ae860b3d16c4e74610bb5⟩,
  ⟨0x01c5bf5241ac81c7cd10b4814567c9785485f4ff5d71865eac0dafd61279c781,
    0x44b3a635cc8845c3fc8a99bb128394c46bf9c41905bad97d19b69e8888543702,
    0x372f18812cb4f5b284b8d2d5ad7798ba17a4e9417553c6a7cfa77c10cc98b7fc⟩,
  ⟨0x182c56a1e8c1c3105e8c923bc60830d1fd9a8344c3d65d1f99827d8731833111,
    0x447a88a3c4d46dd45a48e0f00a661f36a4ccf6ef652e9f38d8b6317ac3f2c9f4,
    0x132a4fd277f1ee4cdee3c55ed64ca7cd02e1ef9c51175308191e07fef2bb31e8⟩]

/-- Window 27: the multiples 1 to 8 of 256^27 · B (R214). -/
def window27 : Vector Duif 8 := #v[
  ⟨0x1d086ff099671e429ef91ffbd25d0623ebbfe78278a50752eda342a4d79fb337,
    0x0c9370ee3200f07fea2aba51323a69ec9182d9fe3bbbd2c0ba0ead230f35fceb,
    0x0fd0e80ec30f2e8a8ba9917e98f9607897ea8aa31d0fe0fef03fa745750be750⟩,
  ⟨0x79fe768c774d00f2bf89f49f7eeaf131173895eee88406f49c6e560068efca4c,
    0x3b9ab1de353ae799ccfb7bba2702c9900f232b6d1bf8aa9066402aca3eaccc19,
    0x4fa135b80dc327a246bbe76456b1c4995249ed33e2d01f668358f4843189ce50⟩,
  ⟨0x05bb5d8d9fd3f21c7d41a03786cdb91f5bb5c0a9abaf4e3b78bf1ae448d092a9,
    0x670d7a938e98d8482c3aed35f9878a23f8d1dbdc0bd11612f7e4932620c88df7,
    0x7db6eb0f5bb954aa9172b231ccddc00bdf33b8e5ea2255b7045c60fcbfc949c4⟩,
  ⟨0x69fd4db2cdffb57f43365f32d065d9408b7dbb6e200a1d8c2b9855fcd580e95a,
    0x381f4de7578e97a7d6cb16dec6fe2dedbccc7d27b0466ae7dbd6e0f428799ec9,
    0x5cc6c9f2e2630fa80c0ddb9f5e6b2d78c21d2eb332d76a72b60a6474ca442a21⟩,
  ⟨0x34ce4e48016182bb941f1373b9cf789c1d9a5550184145d8e1c3be306973f1f9,
    0x69d84daeef8c8d89ea1fc678508581bb5ecf09438adf852f8e25e8b399f12470,
    0x28e5798637e6ec839466e923c0da74bac90b8c5ae672ecbef9835391aca378e6⟩,
  ⟨0x495714e0c4fc74cd15c4de19a6708663c819bc6e628e5987b9bd7ccd0c562a5a,
    0x2a82551491c1fed51bac2b1ee7999266318742b850bd3df9d305d3a13b3a7005,
    0x6fe8a7f4ac75d2f52ae53a90e84e271106e8f7e61d1a7bd754cf60658f8680de⟩,
  ⟨0x3eeb9fcb0392e894707842cf442110745f6fd4289b6a2b2f9e217f2f5fc9e5c7,
    0x049ff9372c323a68a6d579eb200171a3034a48d8853ff4c9daee16ef9422d596,
    0x57acde5e435a385209b3929d5a2bd614bab983396dd791f2d886927f3402cc0b⟩,
  ⟨0x5552af1e808414588b6170b18899aac2c2900d9fd6ebf38f3820eab05b48e177,
    0x6a2c5a171728d7a53f3ba46cdf3bd568d68dc88fab3e81ebc1c23ea14c8b89a6,
    0x49f48025453b43321a95a6417edae4322162a716ba210e8876a8c9730603a21e⟩]

/-- Window 28: the multiples 1 to 8 of 256^28 · B (R214). -/
def window28 : Vector Duif 8 := #v[
  ⟨0x6fa302044c6f4f0d7679dbe01b6f324ff671d448706e2835dd9700648c9dc3b6,
    0x79c9bf440a5e722f195e06e55ba7ff7bfd1c6b64d735fc31b9cec422c197e764,
    0x567c527448eaf41af0cb8aaba34b5ee354e89d916a78341a5c81b88b14bdfa3d⟩,
  ⟨0x3d37bf9448eb527b6bb2ce40c2cbc51812691c0e1ca80cb5965aa43f0be835d1,
    0x5024deb72c129504be58b5266139b5436ea604e9be1c5aa4b6c9fec3838887aa,
    0x7008d56fe2a2ca0ea610da9628cf5fea7877305f2d9edc85be84fec6b54d779b⟩,
  ⟨0x34e70c5bbc9a058f3126857edcdb76ccfde84c6506ffb55531ef68640165fc48,
    0x37e2e60d85b17cf06b50f3f9ccc7bd2dbe3f42b0b8944838afb3c936e7cafc1e,
    0x4aacb59d72b880f8893f02210c4f91a96e8d571e6a3f484968f7aa94594c3cdc⟩,
  ⟨0x1d527120d7db689c1495be913f7aab7285f20ac5ece3a2ef84ff988b3f289265,
    0x06911bb43dafa6ed0983ef5aa9f90a457fc18918cbeb6ee7a3139ce91fc8bcd1,
    0x597e55372343d1b6041d58d12aa4e975a42c1fc7d174936196609c5f951982f1⟩,
  ⟨0x7a37b19b613005f4ead9766bfb06cb270bf18c847909f1fc1903d23993c3e666,
    0x6313f4e77f5eb52e55600a6f1177f2519f05e976cef85ef93de2b746e2becd71,
    0x3da48b803f6b314999acb54501a20c36f14475b94ca1b98f9fa579a2d5b64b8e⟩,
  ⟨0x4e81b107f04669be87fac96ca6e97c7a550bc82defa17e1faa1a0d946ea9d165,
    0x0915d1bb7c227ebda3b56e223d8ae70624bc086944f9de0a16c2fdae55c25832,
    0x016385fa95b476261755da5f3eea3ceccf687ea108ae8c3fe1011966d15a72aa⟩,
  ⟨0x75834bf1ff5a1d01ab67beca7745def3adf3b4703e5b9e5ad672995fa2c6b967,
    0x5319a785204f7af07022530f60e840ae20ae2bc803a441655143f625ae8597d4,
    0x0e61bfa1a20d97d74e4e5cac24f869549f78007783b6d22edb6478256fb151e0⟩,
  ⟨0x5d1a37bb978cb41c137394194226119a0e2d8afc0c72b2b56bb32b78e4e75753,
    0x763404e081c018a57d8c55edae22d60ce830e260728354912847ab2d2e63991e,
    0x02c88dcfb77be2e84b03a36ec763393174de8198d8f428f6e96aa889716d3564⟩]

/-- Window 29: the multiples 1 to 8 of 256^29 · B (R214). -/
def window29 : Vector Duif 8 := #v[
  ⟨0x6aaf7ce8e325968b920c0603d4cd34469060a0e98e60e5a4a9a4d679a897756e,
    0x759e767cd51386311678898505d9cc70e079bac7a89626566099ccc1faef8754,
    0x33afa6f099c0ba4eab9bffcc5a04a3793125778451d7df861b53b85d1db9de84⟩,
  ⟨0x707a285c41669e2180ce27f9cd5f4a438392ec07ceb296ff5097fb6c9ded5985,
    0x09eccefb80b26290686e5eecb4b2039f3240b640b656c1da07162901b58bc17e,
    0x0e036f4f2af6d640272f8e0c3a8011d027e5b4e4eb8cdfd100a5af6190f2e065⟩,
  ⟨0x3c04b7c73e995d16af252e17d1a6cc4b9a29858c6e2024ddffea95a07fb6b4d5,
    0x2679c50ff616db06ce50a1e2b194228ab3047c9c5f1770474c87bd6b519f6271,
    0x5b9e569d13048d5f2784e63eb801b92dfce24f15245aa3c65055553286fd2e6a⟩,
  ⟨0x50aa3f6d2889534347ac53dd8fcdc6ce9de5965e30d75765f8df547dc4eeddcd,
    0x002079eca2a20cfe4f4e26d9a0c66dad0fe5fef09249a29b594a31a6c164fabe,
    0x71aa8519a512a6fa5b95d203dd988cdcfa139644a8851c066f7ef49cfeacc360⟩,
  ⟨0x5cd495d7d53ebb3d30747d34e39a78c6f982e37d716204704ddd2c22b92a3d9b,
    0x5f753163ed7bc7a8f53e004875b5eb2e8bc214d806529770b283eb76dab4e792,
    0x3421b50332e4e266b8292ab075c559cd2fb1c2bbb46de9bace926389f34993a7⟩,
  ⟨0x29b9b34e48b08a3960f050e31907fe3d62933422420574b28f2b698bf410083e,
    0x4bdb73fb455bc4fcc8d274ead1c6120b63ae0071327cbad85e011af410179f8a,
    0x4e5a5ad33c7c3e88d7e57ac42d968f654847904264e559fe2e940a55cd072922⟩,
  ⟨0x56e07e96c177b7562b83f21c0005f111f988f0587838e3d8b5ba5531515003ea,
    0x1985e53c6f3a1a5127c6818b25e56c1a06446f124c6d2fd8db3260359ca57e36,
    0x1e18df0d9b4f8e7ae2c560a7dfe4a9fdfcb4af4b1583a3924c177fc2088cba27⟩,
  ⟨0x20e76084bf3eaaddbf8729551a5646bd575c388fe3e76dcc60b45e49fce5a139,
    0x1985b089a1316a5dbcbae6d7535650ac03ee0cf748dd0e37d87a4326844a4577,
    0x135a266c8f943bbeb9ebe1b66dd0ef93dd8fea4f0ecf0ab6fbcb0cebd136c045⟩]

/-- Window 30: the multiples 1 to 8 of 256^30 · B (R214). -/
def window30 : Vector Duif 8 := #v[
  ⟨0x7ef5880a4e393087ed7e3bc55fea098a25a93cfff5e5451670dbf949b13981b8,
    0x56384f360e0852eb4d5589226ccf902ad92ede7a4e5f659e28f82423c79c3a31,
    0x0473474ffb1671752c40009c0785f25ab365f6022aa9e68765b157b543b3773d⟩,
  ⟨0x66589deb9c7b8cfaa5479a1339bb365cd65c90c6e2ac91ef979684ea855c7973,
    0x578f9fc3f75d1d84d12e1ecc280544df469c6da49e85ea4e1a56a80525e0984d,
    0x0cd0f1a9e05717746106989f9fba8da852ca80dd6da5481c7bc2463af28adb25⟩,
  ⟨0x79b5e9cc8133571a4fd8a9a3da2084dac9f022a1cc777e205a10b966eacb5ed5,
    0x60aa3588e1061a4371a94b8c606b3239d9f0d0506372af30be8e3ab05d7d02d8,
    0x20914ad15c3fd5ae662faf98212e41baa37e88a5b040b2b9c2a996a8499a59da⟩,
  ⟨0x03b05dc68cad6ec02304bae5bc804cb5c22d49019099d66d9732a930f149f563,
    0x4a70a9f5da96971a2e771909d9856939a9c9e59336fc64128ce4cdc47abf6b6b,
    0x359a5f4de19d62f9165f9347a3656658ab8ab6d4f6b4d042209f0d0be6f340c5⟩,
  ⟨0x40dce3db1736e985f19d73d16a7f281ae364f422a98739bd08fe34b2b2b8f960,
    0x100960c784916e96f63e8e2f24e0dad1a61f4b8f7917013e79ef97b21d3c6059,
    0x4457adbc2725d6f41e9b77efe173b60f8a41920fa2d053b1c405aaf2ad644e8b⟩,
  ⟨0x7211e0ead7ecc1370c6a946b7d19b26725f25e88d1438bc6f1398a6944e6161c,
    0x595bceb88b1d0b46c4bd6efdb39a20fa4e8292ed3bc991db141a4cee440f9290,
    0x24052f7de09f16e6724ef19c7cf2e9e6915e61479ba372fce642fc6cf6fe59b5⟩,
  ⟨0x52598ea3b48e4703331fda526e0e5f01b70ccee626029c945b30a67221671106,
    0x63d513b0065bdf989635d830f7ad55e6835a82e7c58ed7e285a8f38580b1102f,
    0x6a2dac2e8a6ed04a7857b309a7513c6b08d27f3f3e349fbe152a0f76e00afc58⟩,
  ⟨0x66916e1f32646838858667feadccdecf1dd531bd147f8f4ab102726871d990e7,
    0x47b17ce1995d2a2a214489a66a3cf39756f3471a044df75f33df93af506a1cfe,
    0x4e07d00d1b1b8a1b7f5d61694a9d7d02ae57351fabe5e7b0fe5a32c4eb1daf93⟩]

/-- Window 31: the multiples 1 to 8 of 256^31 · B (R214). -/
def window31 : Vector Duif 8 := #v[
  ⟨0x2002a0cd8e95e0a037db9f2a626fdb1a7ce4d01ae0ed62db348415874649b528,
    0x47d1b0a79d8e535fae92a7f9cbc0433c5e465f672267d9d06963025b114a1ef6,
    0x0fdd10c577a055a17c24cfc88caa7d471044e0d79d2256485001ff5edcdf4178⟩,
  ⟨0x3629ae89ffbbb0eae41ce355ccee6f78d40e9f77046d57bfa79f2b821f3d80ca,
    0x1c971d65546437213a7eb63eb615af00c0fb744d3dd31ba0d5aa4a247d647a9f,
    0x52f0bff26a85609d8c98ce3b794d58559703c0a22c43f40b265e9a749f451ace⟩,
  ⟨0x75dd4147c4b4c4cde65d17ef268df29361a5191397e6c3f1c8afbffabb7890ca,
    0x12aba8a2154fd9a8a8c36c581a348fd590470e296b2107ca85144deb8f027b3b,
    0x6acea827bfb5bdf24b8eb48a57c2306a265aa50c504cbd6af168de33487f1c77⟩,
  ⟨0x491f53519aa5ea87441c478eb030f11d83a250cd8183bc0dce2448f3fb693375,
    0x40d5896ac03f190b851367b17c94005d0eb4e9b352aa9e3e53b9c1bc59f5aa61,
    0x251cb0f1648c50aa0f55a138ec1922ecdcf6f1e16c18ac2408c68c4820f196cb⟩,
  ⟨0x34567756cdea088fc1dad38b796d5cbca4cd13071a7e780b0193eb2279919f8f,
    0x166b5e71fd8edbb1d4c9212ff09d23b56b677c1a3f7ff18538ee1df07c735dd0,
    0x2cabb06ada847acb9c306cf8dbf39f11984737125bd682061c5a648779ebe108⟩,
  ⟨0x165962efaa28ad15b2fa4971be9a39fa44d79982e208abb0441565f5fe8113c8,
    0x784fd21f6e5948d49fc5e044bec84a2c47cb00045253fe65b094dff0825531c2,
    0x387814f67864098f9391f9b77c65d81d6915e0b31734a77ff5852ec631fe9565⟩,
  ⟨0x627652d153a5ecf0bb9f7dbbd51d6b0fbc7851b877820d54953557d52f085853,
    0x45beaec53618a42c64a224e98caf81b357021799d22ac0f3a30983d997769f10,
    0x53911228963ef4f26f0e298e3070e295b869c180519a078e92ea24193dcaea98⟩,
  ⟨0x0cb9afebfb5e1053713fe3b7e6f6d524462e1cbbcb56d1ac5fbdddc52154bafe,
    0x08daef8c522662a1f7d14646fe642714fff76c08d9737d680d5e4957a4e29a17,
    0x07f7c888c8efc4af9281d0e832d24bdcf5c24707bf8caa3f71d5c86821642133⟩]

/-- The default BASE_TABLE (R214). -/
def defaultTable : BaseTable := #v[
  window0, window1, window2, window3, window4, window5, window6, window7,
  window8, window9, window10, window11, window12, window13, window14, window15,
  window16, window17, window18, window19, window20, window21, window22, window23,
  window24, window25, window26, window27, window28, window29, window30, window31]

end Sys2Proof.Machine
end

