-- ==== Sys2Proof/Machine/State.lean ====
section
/-! DEFINITION. The state of the block as plain data (spec/10_state.md), the reasons a step can stop, and the state after
reset (R52). -/

namespace Sys2Proof.Machine

open Sys2Proof.Config

/-! ## Values the registers hold -/

/-- A value for each of the four lanes (R4, R8). -/
abbrev Lanes (α : Type) := Vector α 4

/-- The 9 limbs of one lane of a field register; limb i has weight 2^(29 i) (R8, R9). -/
abbrev Limbs := Vector Limb 9

/-- A 256-bit scalar of one lane (R32). -/
abbrev Scalar := BitVec 256

/-- The 64 signed digits of one lane (R33); that each lies in [-8, 16] is an invariant (log entry 16). -/
abbrev Digits := Vector Int 64

/-- A memory: (byte index, byte) cells with byte indexes strictly rising; word i has its bytes at 4i .. 4i + 3, least
significant first (R73, R74, R77; log entry 14). An index that is not listed has not been written since reset (R78). -/
abbrev Memory := List Host.Cell

/-- The cause of the last fault (60_exceptions.md R280). No other code is ever written. -/
inductive Cause where
  /-- 0: the last run ended with HALT, or no run has ended since START or reset. -/
  | none
  /-- 1: the fetched word matches no row of the opcode table. -/
  | illegalInstruction
  /-- 2: the word names a register or register group the machine does not have. -/
  | illegalOperand
  /-- 3: a load or store would access a word at or beyond DMEM_WORDS. -/
  | dmemRange
  /-- 4: the PC is at or beyond IMEM_WORDS at a fetch. -/
  | fetchRange
  /-- 5: the counter that indexes a scalar bit or a digit is out of range. -/
  | indexRange
  /-- 6: the host's abort request was taken at an instruction boundary. -/
  | aborted
deriving DecidableEq, Repr

/-! ## The agents' turns -/

/-- The width of a host access; only `word` is 32 bits (20_memory.md R71; log entry 19). -/
inductive HostWidth where
  | byte
  | half
  | word
deriving DecidableEq, Repr

/-- One turn of an agent (10_state.md R30; log entries 1 and 18). -/
inductive Turn where
  /-- The engine makes one step (R324). -/
  | engine
  /-- The host reads at a byte offset of its window (R70, R71). -/
  | hostRead (width : HostWidth) (offset : Half)
  /-- The host writes at a byte offset of its window (R70, R71). -/
  | hostWrite (width : HostWidth) (offset : Half) (data : Word)
  /-- The platform asserts reset (R320). -/
  | reset
deriving DecidableEq, Repr

/-! ## The state -/

/-- Everything the spec gives the machine, and the model's own `memEpoch`, `hostRdata` and `turns`. ID, VERSION, PARAMS
and IRQ are functions of it (`readCsr`, `State.irq`). -/
structure State where
  /-- The build-time parameters, BASE_TABLE among them; no step changes them (R5, R51; log entry 5). -/
  params : Params
  /-- F0 .. F31 (R31). -/
  fregs : Vector (Lanes Limbs) 32
  /-- S0 .. S3 (R32). -/
  sregs : Vector (Lanes Scalar) 4
  /-- D0 .. D3 (R33). -/
  dregs : Vector (Lanes Digits) 4
  /-- C0 .. C7; the slot of C0 is never read nor written (R34; log entry 21). -/
  cregs : Vector Half 8
  /-- SWP (R35). -/
  swp : Lanes Bool
  /-- PC (R36). -/
  pc : Half
  /-- CTRL.IE (R41). -/
  ie : Bool
  /-- CTRL.MSBMASK (R41). -/
  msbmask : Bool
  /-- STATUS.BUSY (R42). -/
  busy : Bool
  /-- STATUS.DONE (R42). -/
  done : Bool
  /-- STATUS.FAULT (R42). -/
  fault : Bool
  /-- STATUS.HBERR (R42). -/
  hberr : Bool
  /-- START_PC (R43). -/
  startPc : Half
  /-- CAUSE (R45). -/
  cause : Cause
  /-- FAULT_PC (R46). -/
  faultPc : Half
  /-- FAULT_INSN (R47). -/
  faultInsn : Word
  /-- ABORTREQ (R49). -/
  abortReq : Bool
  /-- IMEM (R73). -/
  imem : Memory
  /-- DMEM (R74). -/
  dmem : Memory
  /-- MODEL'S OWN: how many reset events there have been, which selects the free contents of memory (log entry 3). -/
  memEpoch : Nat
  /-- MODEL'S OWN: the word the last host read returned (log entry 4). -/
  hostRdata : Word
  /-- MODEL'S OWN: the coming turns of the agents; when empty, the engine moves (log entry 1). -/
  turns : List Turn
deriving DecidableEq, Repr

/-- Why the machine stops. There is no reason: the spec gives every case an effect (a fault of the hardware is a NEXT
state, R284), so the type has no constructor (log entry 20). -/
inductive Fault where
deriving DecidableEq, Repr

/-- Why the model gives no meaning. -/
inductive Refusal where
  /-- The instruction has no meaning in this model yet: raised by `exec` only, by its mnemonic. No arm raises it.
  Safe: it proves nothing about the hardware. -/
  | notModelled (mnemonic : String)
deriving DecidableEq, Repr

/-- What a step or a meaning answers. -/
abbrev Result := Host.Outcome State Fault Refusal

/-- The default parameters: IMEM_WORDS = 1024, DMEM_WORDS = 4096 and the default table (00_scope.md R5). -/
def defaultParams : Params := { imemBits := 10, dmemBits := 12, table := defaultTable }

/-- The state right after reset (10_state.md R52; 70_reset_and_hazards.md R320, R321): every register 0, the engine idle,
no memory word written. `memEpoch`, `hostRdata` and `turns` are DESIGN CHOICE (log entries 1, 3 and 4). -/
def State.reset : State where
  params := defaultParams
  fregs := Vector.replicate 32 (Vector.replicate 4 (Vector.replicate 9 0))
  sregs := Vector.replicate 4 (Vector.replicate 4 0)
  dregs := Vector.replicate 4 (Vector.replicate 4 (Vector.replicate 64 0))
  cregs := Vector.replicate 8 0
  swp := Vector.replicate 4 false
  pc := 0
  ie := false
  msbmask := false
  busy := false
  done := false
  fault := false
  hberr := false
  startPc := 0
  cause := .none
  faultPc := 0
  faultInsn := 0
  abortReq := false
  imem := []
  dmem := []
  memEpoch := 0
  hostRdata := 0
  turns := []

end Sys2Proof.Machine
end

