-- ==== Sys2Proof/Machine/Ops.lean ====
section
/-! DEFINITION. The named operations over memory and registers, the end of an instruction, and the entry of a fault with
the start of a run beside it (spec/20_memory.md R73 to R80, spec/10_state.md R31 to R36, spec/60_exceptions.md R284,
spec/70_reset_and_hazards.md R323). -/

namespace Sys2Proof.Machine

open Sys2Proof.Config

/-! ## Memory -/

/-- The canonical form: byte indexes strictly rising. An unlisted index reads as nothing, so no cell is redundant. -/
abbrev Memory.wf (m : Memory) : Prop := m.Pairwise (fun c d => c.1 < d.1)

/-- The byte listed at `a`, if one has been written since reset. -/
def Memory.byte? (m : Memory) (a : Nat) : Option Byte := m.lookup a

/-- The cells of the bytes `bs` from index `a` on. -/
def cellsFrom (a : Nat) : List Byte → Memory
  | [] => []
  | b :: bs => (a, b) :: cellsFrom (a + 1) bs

/-- Write the bytes `bs` at indexes `a`, `a + 1`, …: the cells below, the new cells, the cells above. -/
def Memory.putBytes (m : Memory) (a : Nat) (bs : List Byte) : Memory :=
  m.filter (fun c => decide (c.1 < a)) ++ cellsFrom a bs ++ m.filter (fun c => decide (a + bs.length ≤ c.1))

/-- The cells of one of the two memories. -/
def State.memory (s : State) : Space → Memory
  | .imem => s.imem
  | .dmem => s.dmem

/-- The byte a read sees: the one written since reset, else a free draw that stays the same until the next reset event
(R78; log entry 2). -/
def State.byteAt (s : State) (sp : Space) (a : Nat) : Byte :=
  ((s.memory sp).byte? a).getD (Config.unwritten sp s.memEpoch a)

/-- The word at word index `i` of a memory, little-endian (R73, R74, R77): `MemRead(i, 1)` of R11 for DMEM. -/
def State.wordAt (s : State) (sp : Space) (i : Nat) : Word :=
  wordOfBytes (s.byteAt sp (4 * i)) (s.byteAt sp (4 * i + 1)) (s.byteAt sp (4 * i + 2)) (s.byteAt sp (4 * i + 3))

/-- The bytes of consecutive words (R77). -/
def bytesOfWords (ws : List Word) : List Byte := ws.flatMap bytesOfWord

/-- Write consecutive words from word index `i` on (R11, R77). -/
def Memory.putWords (m : Memory) (i : Nat) (ws : List Word) : Memory := m.putBytes (4 * i) (bytesOfWords ws)

/-- `MemWrite(i, n, ws)` of R11: n DMEM words from `i` on, in one atomic step (R81). -/
def State.storeWords (s : State) (i : Nat) (ws : List Word) : State := { s with dmem := s.dmem.putWords i ws }

/-! ## Layouts of a four-lane value -/

/-- The sum Σ w_j · 2^(32 j) over the words 0 .. 7 of one lane (R79). -/
def sumWords (w : Nat → Word) : Nat :=
  (w 0).toNat + (w 1).toNat * 2 ^ 32 + (w 2).toNat * 2 ^ 64 + (w 3).toNat * 2 ^ 96 + (w 4).toNat * 2 ^ 128 +
    (w 5).toNat * 2 ^ 160 + (w 6).toNat * 2 ^ 192 + (w 7).toNat * 2 ^ 224

/-- The 256-bit value of lane `l` at word address `ea`: word j of lane l is at ea + 4j + l (R79). -/
def State.load256 (s : State) (ea : Nat) (l : Lane) : Nat := sumWords (fun j => s.wordAt .dmem (ea + 4 * j + l.val))

/-- The 32 words of four 256-bit values, word j of lane l at place 4j + l (R79). -/
def words256 (k : Lanes Scalar) : List Word :=
  (List.finRange 8).flatMap fun j => (List.finRange 4).map fun l => (k.get l).extractLsb' (32 * j.val) 32

/-- Limb `i` of lane `l` at word address `ea`: the low word at ea + 2(4i + l), the high word after it (R80). -/
def State.loadLimb (s : State) (ea : Nat) (l : Lane) (i : Nat) : Limb :=
  s.wordAt .dmem (ea + 2 * (4 * i + l.val) + 1) ++ s.wordAt .dmem (ea + 2 * (4 * i + l.val))

/-- The 72 words of four raw limb vectors (R80). -/
def wordsLimbs (x : Lanes Limbs) : List Word :=
  (List.finRange 9).flatMap fun i => (List.finRange 4).flatMap fun l =>
    [((x.get l).get i).extractLsb' 0 32, ((x.get l).get i).extractLsb' 32 32]

/-! ## Registers -/

/-- Run a body for each lane, with no dependence between lanes (R11). -/
def forEachLane {α : Type} (body : Lane → α) : Lanes α := Vector.ofFn body

/-- Read F[r] (R31). -/
def State.freg (s : State) (r : FReg) : Lanes Limbs := s.fregs.get r.toFin

/-- Write F[r] in all lanes (R31). -/
def State.setF (s : State) (r : FReg) (x : Lanes Limbs) : State := { s with fregs := s.fregs.set r.toFin x r.toFin.isLt }

/-- Read S[r] (R32). -/
def State.sreg (s : State) (r : SReg) : Lanes Scalar := s.sregs.get r.toFin

/-- Write S[r] in all lanes (R32). -/
def State.setS (s : State) (r : SReg) (x : Lanes Scalar) : State := { s with sregs := s.sregs.set r.toFin x r.toFin.isLt }

/-- Read D[r] (R33). -/
def State.dreg (s : State) (r : DReg) : Lanes Digits := s.dregs.get r.toFin

/-- Write D[r] in all lanes (R33). -/
def State.setD (s : State) (r : DReg) (x : Lanes Digits) : State := { s with dregs := s.dregs.set r.toFin x r.toFin.isLt }

/-- Read C[r]; C0 always reads 0 (R34). -/
def State.creg (s : State) (r : CReg) : Half := if r = 0 then 0 else s.cregs.get r.toFin

/-- Write C[r]; a write to C0 is discarded (R34). -/
def State.setC (s : State) (r : CReg) (v : Half) : State :=
  if r = 0 then s else { s with cregs := s.cregs.set r.toFin v r.toFin.isLt }

/-! ## The end of an instruction -/

/-- `pc <- target` (R11). -/
def State.jump (s : State) (target : Half) : State := { s with pc := target }

/-- `pc <- next`, where next = wrap16(PC + 1) (R36; 40_control.md, its heading). -/
def State.advance (s : State) : State := s.jump (s.pc + 1)

/-- An instruction without a branch retires: `pc <- next` on the state its writes left. -/
def retire (s : State) : Result := .next s.advance

/-! ## Fault entry, and the start of a run -/

/-- Fault entry (R284): what the engine does in one step when cause `c` is raised or an abort is taken. `insn` is the
fetched word, or 0 for FETCH_RANGE and ABORTED. The PC and everything not named keep their values. -/
def State.faultEntry (s : State) (c : Cause) (insn : Word) : State :=
  { s with cause := c, faultPc := s.pc, faultInsn := insn, abortReq := false, busy := false, fault := true }

/-- `raise c`: the instruction has no architectural effect and the fault is entered (R11, R283, R284). FAULT_INSN is the
word of the instruction, which encoding gives back (log entry 10). -/
def raise (c : Cause) (i : Instr) (s : State) : Result := .next (s.faultEntry c (encode i))

/-- A START taken while the engine is idle (R323). There is no return from a fault other than this (R285). -/
def State.startRun (s : State) : State :=
  { s with pc := s.startPc, done := false, fault := false, cause := .none, faultPc := 0, faultInsn := 0,
           abortReq := false, busy := true }

end Sys2Proof.Machine
end

