-- ==== Sys2Proof/Machine/Operands.lean ====
section
/-! DEFINITION. Operand forms: the registers that 5-bit fields and groups name, the operand checks of
spec/30_encoding.md R114, effective addresses with their range check (spec/41_load_store.md R166), immediates (R109), and
the two counter-indexed operands with their index checks (spec/60_exceptions.md R281). -/

namespace Sys2Proof.Machine

/-! ## Registers named by a field -/

/-- The S or D register a 5-bit field names; the field has passed the check R ≤ 3 (R109, R114; log entry 13). -/
def regOfField (r : RField) : BitVec 2 := r.setWidth 2

/-- The field names no S or D register (R114). -/
abbrev fieldTooBig (r : RField) : Prop := 3 < r.toNat

/-- Member `c` of the register group with base `r`; the group has passed its range check, so the sum does not wrap
(R114; log entry 13). -/
def groupReg (r : FReg) (c : Nat) : FReg := r + BitVec.ofNat 5 c

/-- The group of `len` registers from `r` on passes F31 (R114): `r > 32 - len`. -/
abbrev groupTooBig (r : FReg) (len : Nat) : Prop := 31 < r.toNat + len - 1

/-- The two groups of `len` registers overlap: |FA - FB| < n (R114). -/
abbrev groupsOverlap (a b : FReg) (len : Nat) : Prop := (if a.toNat ≤ b.toNat then b.toNat - a.toNat else a.toNat - b.toNat) < len

/-- The size n = N + 1 of a swap group (R107). -/
def swapSize (n : BitVec 2) : Nat := n.toNat + 1

/-- The operands of CSWAP and CSWAPF are illegal (R114). -/
abbrev swapIllegal (fa fb : FReg) (n : BitVec 2) : Prop :=
  groupTooBig fa (swapSize n) ∨ groupTooBig fb (swapSize n) ∨ groupsOverlap fa fb (swapSize n)

/-- Write the values `xs` to the consecutive field registers from `r` on. -/
def State.setGroup (s : State) (r : FReg) : List (Lanes Limbs) → State
  | [] => s
  | x :: xs => (s.setF r x).setGroup (groupReg r 1) xs

/-! ## Addresses and immediates -/

/-- The effective address C[ca] + addr16, an integer in 0 .. 131070 that does not wrap (R75, R166). -/
def State.effectiveAddress (s : State) (ca : CReg) (addr : Half) : Nat := (s.creg ca).toNat + addr.toNat

/-- An access of `n` words at `ea` is out of range (R75, R166). -/
abbrev State.outOfRange (s : State) (ea n : Nat) : Prop := s.params.dmemWords < ea + n

/-- The words 32 of a 256-bit access and 72 of a raw limb access (R81). -/
def words256Count : Nat := 32

/-- See `words256Count`. -/
def wordsLimbsCount : Nat := 72

/-- The counter plus the sign-extended immediate, wrapped to 16 bits (R109, R146): the addend is read as a signed number. -/
def addSigned (v : Half) (simm : Half) : Half := BitVec.ofInt 16 ((v.toNat : Int) + simm.toInt)

/-! ## Counter-indexed operands -/

/-- The counter that indexes a scalar bit is out of range: C[CC] > 255 (R254, R281). -/
abbrev bitIndexTooBig (t : Half) : Prop := 255 < t.toNat

/-- The counter that indexes a digit is out of range: C[CC] > 63 (R211, R281). -/
abbrev digitIndexTooBig (i : Half) : Prop := 63 < i.toNat

/-- The window position of digit index `i`: i >> 1 (R211); an index up to 63 gives 0 .. 31. -/
def windowOf (i : Nat) : Fin 32 := Fin.ofNat 32 (i / 2)

/-- Digit `i` of a digit register's lane; an index up to 63 names a digit (R33). -/
def digitAt (d : Digits) (i : Nat) : Int := d.get (Fin.ofNat 64 i)

end Sys2Proof.Machine
end

