-- ==== Sys2Proof/Machine/Control.lean ====
section
/-! DEFINITION. The sequencer and control-transfer instructions (spec/40_control.md R140 to R148). -/

namespace Sys2Proof.Machine

/-- NOP (R140). -/
def execNop (s : State) : Result := retire s

/-- HALT: the run ends with DONE; a pending abort request is discarded (R141, R325). CAUSE is 0 already, since START
cleared it (log entry 11). -/
def execHalt (s : State) : Result := .next { s.advance with done := true, busy := false, abortReq := false }

/-- JMP (R142). -/
def execJmp (tgt : Half) (s : State) : Result := .next (s.jump tgt)

/-- BNEZ: branch if the counter is not 0 (R143). -/
def execBnez (ca : CReg) (tgt : Half) (s : State) : Result :=
  if s.creg ca ≠ 0 then .next (s.jump tgt) else retire s

/-- DBNZ: decrement with wrap-around, then branch if the result is not 0 (R144). -/
def execDbnz (ca : CReg) (tgt : Half) (s : State) : Result :=
  let v := s.creg ca - 1
  let t := s.setC ca v
  if v ≠ 0 then .next (t.jump tgt) else retire t

/-- CSETI: set the counter to the immediate (R145). -/
def execCseti (cd : CReg) (imm : Half) (s : State) : Result := retire (s.setC cd imm)

/-- CADDI: add the signed immediate with wrap-around (R146). -/
def execCaddi (cd : CReg) (simm : Half) (s : State) : Result := retire (s.setC cd (addSigned (s.creg cd) simm))

end Sys2Proof.Machine
end

