-- ==== Sys2Proof/Machine/Gf.lean ====
section
/-! DEFINITION. The field GF(2^255 - 19) and its representation in limbs: val, canon and limbs (spec/00_scope.md R9, R10),
and the exact operations mod p that every field, point and macro instruction uses (R7, R11; spec/42_field.md R180). -/

namespace Sys2Proof.Machine

open Sys2Proof.Config

/-- v[hi:lo] as an unsigned integer, `len` = hi - lo + 1 (R7). -/
def slice (v lo len : Nat) : Nat := v / 2 ^ lo % 2 ^ len

/-- The value of a limb vector, Σ limb[i] · 2^(29 i), whatever the limbs hold (R9). -/
def val (x : Limbs) : Nat :=
  (x.get 0).toNat + (x.get 1).toNat * 2 ^ 29 + (x.get 2).toNat * 2 ^ 58 + (x.get 3).toNat * 2 ^ 87 +
    (x.get 4).toNat * 2 ^ 116 + (x.get 5).toNat * 2 ^ 145 + (x.get 6).toNat * 2 ^ 174 + (x.get 7).toNat * 2 ^ 203 +
    (x.get 8).toNat * 2 ^ 232

/-- The radix-2^29 split of k: limbs 0 .. 7 of 29 bits, limb 8 of `top` bits. -/
def splitLimbs (k top : Nat) : Limbs :=
  Vector.ofFn fun i => BitVec.ofNat 64 (if i.val < 8 then slice k (29 * i.val) 29 else slice k 232 top)

/-- limbs(k) for k < 2^256, without reduction; limb 8 = k[255:232] (R10). -/
def limbs (k : Nat) : Limbs := splitLimbs k 24

/-- r mod p, in [0, p) also for negative r (R7). -/
def redc (r : Int) : Nat := (r % (p : Int)).toNat

/-- canon(r): the limbs of r mod p; limb 8 = c[254:232] (R9). -/
def canon (r : Int) : Limbs := splitLimbs (redc r) 23

/-- words(c): the 8 words of c < 2^256 as one 256-bit value; word j is c[32j+31:32j] (R10). -/
def scalarOf (c : Nat) : Scalar := BitVec.ofNat 256 c

/-! ## Operations mod p -/

/-- a + b mod p. -/
def gfAdd (a b : Nat) : Nat := (a + b) % p

/-- a - b mod p; a negative difference lands in [0, p) (R7, R182). -/
def gfSub (a b : Nat) : Nat := redc ((a : Int) - (b : Int))

/-- a · b mod p. -/
def gfMul (a b : Nat) : Nat := (a * b) % p

/-- a² mod p. -/
def gfSqr (a : Nat) : Nat := gfMul a a

/-- -a mod p. -/
def gfNeg (a : Nat) : Nat := redc (-(a : Int))

/-- a^e mod p for e < 2^n, by one squaring per bit of e: the same chain for every a (R194; log entry 23). -/
def gfPow (a : Nat) : Nat → Nat → Nat
  | 0, _ => 1 % p
  | n + 1, e => if e % 2 = 1 then gfMul a (gfPow (gfSqr a) n (e / 2)) else gfPow (gfSqr a) n (e / 2)

/-- inv(a) = a^(p-2) mod p, so inv(0) = 0 (R11, R188). -/
def gfInv (a : Nat) : Nat := gfPow a 255 (p - 2)

/-- The integer value mod p of each lane of a field register. -/
def State.fieldAt (s : State) (r : FReg) (l : Lane) : Nat := val ((s.freg r).get l) % p

end Sys2Proof.Machine
end

