-- ==== Sys2Proof/Machine/Field.lean ====
section
/-! DEFINITION. The field arithmetic instructions (spec/42_field.md R180 to R189). Each reads the integer values of its
sources, computes an integer, and writes its canonical limbs; FMOV copies raw limbs. -/

namespace Sys2Proof.Machine

open Sys2Proof.Config

/-- The common rule: in every lane the destination becomes canon of the integer computed from that lane (R180). -/
def fieldOp (fd : FReg) (r : Lane → Int) (s : State) : Result := retire (s.setF fd (forEachLane fun l => canon (r l)))

/-- The integer value of a source register's lane, whatever its limbs hold (R180). -/
def State.intAt (s : State) (r : FReg) (l : Lane) : Int := (val ((s.freg r).get l) : Int)

/-- FADD (R181). -/
def execFadd (fd fa fb : FReg) (s : State) : Result := fieldOp fd (fun l => s.intAt fa l + s.intAt fb l) s

/-- FSUB (R182). -/
def execFsub (fd fa fb : FReg) (s : State) : Result := fieldOp fd (fun l => s.intAt fa l - s.intAt fb l) s

/-- FMUL (R183). -/
def execFmul (fd fa fb : FReg) (s : State) : Result := fieldOp fd (fun l => s.intAt fa l * s.intAt fb l) s

/-- FSQR (R184). -/
def execFsqr (fd fa : FReg) (s : State) : Result := fieldOp fd (fun l => s.intAt fa l * s.intAt fa l) s

/-- FMULC (R185). -/
def execFmulc (fd fa : FReg) (imm : Imm17) (s : State) : Result := fieldOp fd (fun l => s.intAt fa l * (imm.toNat : Int)) s

/-- FMOV: copies the 9 raw limbs, does not normalize (R186). -/
def execFmov (fd fa : FReg) (s : State) : Result := retire (s.setF fd (s.freg fa))

/-- FNORM (R187). -/
def execFnorm (fd fa : FReg) (s : State) : Result := fieldOp fd (fun l => s.intAt fa l) s

/-- FINV: a^(p-2) mod p, so 0 for a ≡ 0 (R188). -/
def execFinv (fd fa : FReg) (s : State) : Result := fieldOp fd (fun l => (gfInv (s.fieldAt fa l) : Int)) s

/-- FSETI: the same small constant in all lanes (R189). -/
def execFseti (fd : FReg) (imm : Imm17) (s : State) : Result := fieldOp fd (fun _ => (imm.toNat : Int)) s

end Sys2Proof.Machine
end

