-- ==== Sys2Proof/Machine/Table.lean ====
section
/-! DEFINITION. The constant-time table lookup with Duif decompression (spec/43_table_lookup.md R210 to R213,
spec/44_edwards.md R233). -/

namespace Sys2Proof.Machine

open Sys2Proof.Config

/-- `TableRead(w, j)` of R11 (R76, R210). -/
def tableRead (T : BaseTable) (w : Fin 32) (j : Fin 8) : Duif := (T.get w).get j

/-- The table entries a lookup in window `w` reads, in order: all 8 of the window, whatever the digit (R212). -/
def tableScan (w : Fin 32) : List (Fin 32 × Fin 8) := (List.finRange 8).map fun j => (w, j)

/-- The Duif form of the identity: ((p+1)/2, (p+1)/2, 0) (R213). -/
def duifNeutral : Duif := ⟨(p + 1) / 2, (p + 1) / 2, 0⟩

/-- The Duif form of the negated point: the first two coordinates swap, the third is negated (R213). -/
def duifNeg (e : Duif) : Duif := ⟨e.ym, e.yp, gfNeg e.t2⟩

/-- Sel(w, v): scan the window, keep the entry j with |v| = j + 1, else the neutral; then negate for v < 0 (R211, R233). -/
def sel (T : BaseTable) (w : Fin 32) (v : Int) : Duif :=
  let e := (tableScan w).foldl (fun e a => if v.natAbs = a.2.val + 1 then tableRead T a.1 a.2 else e) duifNeutral
  if v < 0 then duifNeg e else e

/-- TBLSEL (R211). -/
def execTblsel (fd : FReg) (dd : DReg) (cc : CReg) (s : State) : Result :=
  if groupTooBig fd 3 then raise .illegalOperand (.tblsel fd dd cc) s
  else
    let i := s.creg cc
    if digitIndexTooBig i then raise .indexRange (.tblsel fd dd cc) s
    else
      let e : Lanes Duif := forEachLane fun l => sel s.params.table (windowOf i.toNat) (digitAt ((s.dreg dd).get l) i.toNat)
      retire (s.setGroup fd [e.map fun t => canon t.yp, e.map fun t => canon t.ym, e.map fun t => canon t.t2])

end Sys2Proof.Machine
end

