-- ==== Sys2Proof/Machine/Edwards.lean ====
section
/-! DEFINITION. Twisted Edwards point arithmetic, scalar encoding and the fixed-base comb (spec/44_edwards.md R220 to
R237). -/

namespace Sys2Proof.Machine

open Sys2Proof.Config

/-- An extended point (X, Y, Z, E, H) in the order of its register group (R220). -/
structure ExtPoint where
  X : Nat
  Y : Nat
  Z : Nat
  E : Nat
  H : Nat
deriving DecidableEq, Repr

/-- The identity element (0, 1, 1, 0, 1) (R221). -/
def identityPoint : ExtPoint := ⟨0, 1, 1, 0, 1⟩

/-- EdAdd(P, Q) (R223). -/
def edAdd (P : ExtPoint) (Q : Duif) : ExtPoint :=
  let T1 := gfMul P.E P.H
  let A := gfMul (gfSub P.Y P.X) Q.ym
  let B := gfMul (gfAdd P.Y P.X) Q.yp
  let C := gfMul T1 Q.t2
  let D := P.Z
  let Ee := gfSub B A
  let F := gfSub D C
  let G := gfAdd D C
  let Hh := gfAdd B A
  ⟨gfMul Ee F, gfMul G Hh, gfMul F G, Ee, Hh⟩

/-- EdDbl(P); the E and H inputs are not read (R225). -/
def edDbl (P : ExtPoint) : ExtPoint :=
  let A := gfSqr P.X
  let B := gfSqr P.Y
  let C := gfMul 2 (gfSqr P.Z)
  let D := gfNeg A
  let E' := gfSub (gfSub (gfSqr (gfAdd P.X P.Y)) A) B
  let G := gfAdd D B
  let F := gfSub G C
  let H' := gfSub D B
  ⟨gfMul E' F, gfMul G H', gfMul F G, E', H'⟩

/-! ## Groups of registers -/

/-- The extended point a group holds in a lane, each coordinate mod p (R220, R224). -/
def State.extAt (s : State) (r : FReg) (l : Lane) : ExtPoint :=
  ⟨s.fieldAt r l, s.fieldAt (groupReg r 1) l, s.fieldAt (groupReg r 2) l, s.fieldAt (groupReg r 3) l,
    s.fieldAt (groupReg r 4) l⟩

/-- The table point a group holds in a lane, each coordinate mod p (R220, R224). -/
def State.duifAt (s : State) (r : FReg) (l : Lane) : Duif :=
  ⟨s.fieldAt r l, s.fieldAt (groupReg r 1) l, s.fieldAt (groupReg r 2) l⟩

/-- The canonical limbs of a group of five (R220, R223). -/
def extLimbs (P : Lanes ExtPoint) : List (Lanes Limbs) :=
  [P.map fun q => canon q.X, P.map fun q => canon q.Y, P.map fun q => canon q.Z, P.map fun q => canon q.E,
    P.map fun q => canon q.H]

/-! ## Point instructions -/

/-- EDINIT (R222). -/
def execEdinit (fd : FReg) (s : State) : Result :=
  if groupTooBig fd 5 then raise .illegalOperand (.edinit fd) s
  else retire (s.setGroup fd (extLimbs (forEachLane fun _ => identityPoint)))

/-- EDADD (R224): all sources are read before any write. -/
def execEdadd (fd fa fb : FReg) (s : State) : Result :=
  if groupTooBig fd 5 ∨ groupTooBig fa 5 ∨ groupTooBig fb 3 then raise .illegalOperand (.edadd fd fa fb) s
  else retire (s.setGroup fd (extLimbs (forEachLane fun l => edAdd (s.extAt fa l) (s.duifAt fb l))))

/-- EDDBL (R226): all sources are read before any write. -/
def execEddbl (fd fa : FReg) (s : State) : Result :=
  if groupTooBig fd 5 ∨ groupTooBig fa 5 then raise .illegalOperand (.eddbl fd fa) s
  else retire (s.setGroup fd (extLimbs (forEachLane fun l => edDbl (s.extAt fa l))))

/-! ## Scalar encoding -/

/-- clamp(k) = (k & ~7 & ~2^255) | 2^254 (R228). -/
def clamp (k : Scalar) : Scalar := (k &&& ~~~(7#256) &&& ~~~(1#256 <<< 255)) ||| (1#256 <<< 254)

/-- The unsigned nibble k[4i+3:4i] (R229). -/
def nibble (k : Scalar) (i : Nat) : Int := (slice k.toNat (4 * i) 4 : Int)

/-- Pass 2 of the recoding from digit `i` on, `n` digits before the last one, with the incoming carry (R229). -/
def recodeFrom (k : Scalar) : (n i : Nat) → (carry : Int) → List Int
  | 0, i, carry => [nibble k i + carry]
  | n + 1, i, carry =>
    let e := nibble k i + carry
    let carry' := (e + 8) / 16
    (e - 16 * carry') :: recodeFrom k n (i + 1) carry'

/-- recode(k): 64 signed digits whose sum Σ e[i]·16^i is k (R229). -/
def recode (k : Scalar) : Digits := Vector.ofFn fun i => (recodeFrom k 63 0 0).getD i.val 0

/-- CLAMP (R230). -/
def execClamp (sd sa : RField) (s : State) : Result :=
  if fieldTooBig sd ∨ fieldTooBig sa then raise .illegalOperand (.clamp sd sa) s
  else retire (s.setS (regOfField sd) ((s.sreg (regOfField sa)).map clamp))

/-- RECODE (R231): does not clamp. -/
def execRecode (dd sa : RField) (s : State) : Result :=
  if fieldTooBig dd ∨ fieldTooBig sa then raise .illegalOperand (.recode dd sa) s
  else retire (s.setD (regOfField dd) ((s.sreg (regOfField sa)).map recode))

/-! ## Fixed-base comb -/

/-- The digit positions of the odd pass, ascending: 1, 3, …, 63 (R234). -/
def oddPositions : List Nat := (List.range 32).map fun w => 2 * w + 1

/-- The digit positions of the even pass, ascending: 0, 2, …, 62 (R234). -/
def evenPositions : List Nat := (List.range 32).map fun w => 2 * w

/-- One pass of the comb: for each position add the selected table point (R234). -/
def combPass (T : BaseTable) (e : Digits) (positions : List Nat) (P : ExtPoint) : ExtPoint :=
  positions.foldl (fun P i => edAdd P (sel T (windowOf i) (digitAt e i))) P

/-- Comb(k): the odd pass, four doublings, the even pass, on the clamped scalar's digits (R234). -/
def comb (T : BaseTable) (k : Scalar) : ExtPoint :=
  let e := recode (clamp k)
  combPass T e evenPositions (edDbl (edDbl (edDbl (edDbl (combPass T e oddPositions identityPoint)))))

/-- The table entries the comb reads, in order (R212, R234, R237). -/
def combReads : List (Fin 32 × Fin 8) := (oddPositions ++ evenPositions).flatMap fun i => tableScan (windowOf i)

/-- The comb of each lane's scalar (R235). -/
def State.combLanes (s : State) (sb : RField) : Lanes ExtPoint := (s.sreg (regOfField sb)).map (comb s.params.table)

/-- EDFBMUL (R235): the accumulator's (Y, Z). -/
def execEdfbmul (fd : FReg) (sb : RField) (s : State) : Result :=
  if fieldTooBig sb ∨ groupTooBig fd 2 then raise .illegalOperand (.edfbmul fd sb) s
  else
    let P := s.combLanes sb
    retire (s.setGroup fd [P.map fun q => canon q.Y, P.map fun q => canon q.Z])

end Sys2Proof.Machine
end

