-- ==== Sys2Proof/Machine/Flags.lean ====
section
/-! DEFINITION. The engine's only flag, SWP, one bit per lane (spec/10_state.md R35, R37), and the exchange it controls
(spec/45_montgomery.md R252). -/

namespace Sys2Proof.Machine

/-- Write SWP in every lane. -/
def State.setSwp (s : State) (b : Lanes Bool) : State := { s with swp := b }

/-- Exchange the values of two registers in the lanes whose `sw` bit is 1, by a masked blend of the raw limbs: with mask
= -s in every limb bit, x' = x XOR (mask AND (x XOR y)) (R252). -/
def blend (sw : Lanes Bool) (x y : Lanes Limbs) : Lanes Limbs :=
  forEachLane fun l => Vector.ofFn fun i =>
    let mask : Limb := if sw.get l then BitVec.allOnes 64 else 0
    (x.get l).get i ^^^ (mask &&& ((x.get l).get i ^^^ (y.get l).get i))

/-- CSwapGroups over all lanes: for c in 0 .. n-1 the registers Fa+c and Fb+c are exchanged in the lanes whose bit is 1
(R252). The groups do not overlap, so each pair is read before either of its registers is written. -/
def State.swapGroups (s : State) (fa fb : FReg) (sw : Lanes Bool) : Nat → State
  | 0 => s
  | c + 1 =>
    let t := s.swapGroups fa fb sw c
    let x := t.freg (groupReg fa c)
    let y := t.freg (groupReg fb c)
    (t.setF (groupReg fa c) (blend sw x y)).setF (groupReg fb c) (blend sw y x)

end Sys2Proof.Machine
end

