-- ==== Sys2Proof/Machine/Montgomery.lean ====
section
/-! DEFINITION. The Montgomery x-only ladder, the conditional swap and the Montgomery entry points
(spec/45_montgomery.md R250 to R263). -/

namespace Sys2Proof.Machine

open Sys2Proof.Config

/-- The ladder state (x2, z2, x3, z3) in the order of its register group (R250). -/
structure Ladder where
  x2 : Nat
  z2 : Nat
  x3 : Nat
  z3 : Nat
deriving DecidableEq, Repr

/-- LadStep (R251). -/
def ladStep (x1 : Nat) (q : Ladder) : Ladder :=
  let A := gfAdd q.x2 q.z2
  let AA := gfSqr A
  let B := gfSub q.x2 q.z2
  let BB := gfSqr B
  let E := gfSub AA BB
  let C := gfAdd q.x3 q.z3
  let D := gfSub q.x3 q.z3
  let DA := gfMul D A
  let CB := gfMul C B
  ⟨gfMul AA BB, gfMul E (gfAdd AA (gfMul a24 E)), gfSqr (gfAdd DA CB), gfMul x1 (gfSqr (gfSub DA CB))⟩

/-- The ladder state a group holds in a lane, each value mod p (R250). -/
def State.ladderAt (s : State) (r : FReg) (l : Lane) : Ladder :=
  ⟨s.fieldAt r l, s.fieldAt (groupReg r 1) l, s.fieldAt (groupReg r 2) l, s.fieldAt (groupReg r 3) l⟩

/-- LADSTEP (R250): all sources are read before any write. -/
def execLadstep (fd fa : FReg) (s : State) : Result :=
  if groupTooBig fd 4 then raise .illegalOperand (.ladstep fd fa) s
  else
    let q : Lanes Ladder := forEachLane fun l => ladStep (s.fieldAt fa l) (s.ladderAt fd l)
    retire (s.setGroup fd [q.map fun q => canon q.x2, q.map fun q => canon q.z2, q.map fun q => canon q.x3,
      q.map fun q => canon q.z3])

/-! ## Conditional swap -/

/-- CSWAP: swap on the scalar bit XOR the previous bit, and keep the bit (R254). -/
def execCswap (fa fb : FReg) (sa : SReg) (cc : CReg) (n : BitVec 2) (s : State) : Result :=
  if swapIllegal fa fb n then raise .illegalOperand (.cswap fa fb sa cc n) s
  else
    let t := s.creg cc
    if bitIndexTooBig t then raise .indexRange (.cswap fa fb sa cc n) s
    else
      let b : Lanes Bool := forEachLane fun l => ((s.sreg sa).get l).getLsbD t.toNat
      let sw : Lanes Bool := forEachLane fun l => (s.swp.get l) ^^ (b.get l)
      retire ((s.swapGroups fa fb sw (swapSize n)).setSwp b)

/-- CSWAPF: swap on the kept bit, and clear it (R256). -/
def execCswapf (fa fb : FReg) (n : BitVec 2) (s : State) : Result :=
  if swapIllegal fa fb n then raise .illegalOperand (.cswapf fa fb n) s
  else retire ((s.swapGroups fa fb s.swp (swapSize n)).setSwp (forEachLane fun _ => false))

/-! ## Variable-base scalar multiplication -/

/-- Exchange (x2, z2) with (x3, z3) when the bit is 1 (R257). -/
def ladSwap (b : Bool) (q : Ladder) : Ladder := if b then ⟨q.x3, q.z3, q.x2, q.z2⟩ else q

/-- The ladder's steps for the bits t = n-1 down to 0, with the internal swap bit, and the final swap (R257). -/
def ladLoop (x1 : Nat) (k : Scalar) : (n : Nat) → (swap : Bool) → Ladder → Ladder
  | 0, swap, q => ladSwap swap q
  | t + 1, swap, q => ladLoop x1 k t (k.getLsbD t) (ladStep x1 (ladSwap (swap ^^ k.getLsbD t) q))

/-- Ladder(u, k): 255 steps on the clamped scalar from (1, 0, u, 1); the result is (x2, z2) of the final state (R257). -/
def ladder (u : Nat) (k : Scalar) : Ladder := ladLoop (u % p) (clamp k) 255 false ⟨1, 0, u % p, 1⟩

/-- MONVB (R258). -/
def execMonvb (fd fa : FReg) (sb : RField) (s : State) : Result :=
  if fieldTooBig sb ∨ groupTooBig fd 2 then raise .illegalOperand (.monvb fd fa sb) s
  else
    let q : Lanes Ladder := forEachLane fun l => ladder (val ((s.freg fa).get l)) ((s.sreg (regOfField sb)).get l)
    retire (s.setGroup fd [q.map fun q => canon q.x2, q.map fun q => canon q.z2])

/-! ## Fixed-base scalar multiplication -/

/-- The Montgomery pair (X_M, Z_M) = (Z + Y, Z - Y) of an Edwards point (R261). -/
def montX (P : ExtPoint) : Nat := gfAdd P.Z P.Y

/-- See `montX`. -/
def montZ (P : ExtPoint) : Nat := gfSub P.Z P.Y

/-- MONFB (R260). -/
def execMonfb (fd : FReg) (sb : RField) (s : State) : Result :=
  if fieldTooBig sb ∨ groupTooBig fd 2 then raise .illegalOperand (.monfb fd sb) s
  else
    let P := s.combLanes sb
    retire (s.setGroup fd [P.map fun q => canon (montX q), P.map fun q => canon (montZ q)])

end Sys2Proof.Machine
end

