-- ==== Sys2Proof/Machine/KeyExchange.lean ====
section
/-! DEFINITION. Key-pair generation and shared-secret derivation (spec/46_key_exchange.md R270 to R276). -/

namespace Sys2Proof.Machine

open Sys2Proof.Config

/-- Affine(X, Z) = X · Z^(p-2) mod p, so 0 when Z ≡ 0 (R271). -/
def affine (X Z : Nat) : Nat := gfMul X (gfInv Z)

/-- KEYGEN (R270). -/
def execKeygen (fd : FReg) (sb : RField) (s : State) : Result :=
  if fieldTooBig sb then raise .illegalOperand (.keygen fd sb) s
  else retire (s.setF fd ((s.combLanes sb).map fun P => canon (affine (montX P) (montZ P))))

/-- SHSEC (R272): the peer value is not validated (R259). -/
def execShsec (fd fa : FReg) (sb : RField) (s : State) : Result :=
  if fieldTooBig sb then raise .illegalOperand (.shsec fd fa sb) s
  else
    retire (s.setF fd (forEachLane fun l =>
      let q := ladder (val ((s.freg fa).get l)) ((s.sreg (regOfField sb)).get l)
      canon (affine q.x2 q.z2)))

end Sys2Proof.Machine
end

