-- ==== Sys2Proof/Machine/LoadStore.lean ====
section
/-! DEFINITION. The load and store instructions (spec/41_load_store.md R160 to R168). Each computes its effective address
and its range check with `State.effectiveAddress` and `State.outOfRange` (R166). -/

namespace Sys2Proof.Machine

open Sys2Proof.Config

/-- The integer FLD converts: bit 255 is cleared when CTRL.MSBMASK = 1 (R160). -/
def State.maskMsb (s : State) (k : Nat) : Nat := if s.msbmask then slice k 0 255 else k

/-- FLD: load a field element from 8 words per lane, without reduction (R160). -/
def execFld (fd : FReg) (ca : CReg) (addr : Half) (s : State) : Result :=
  let ea := s.effectiveAddress ca addr
  if s.outOfRange ea words256Count then raise .dmemRange (.fld fd ca addr) s
  else retire (s.setF fd (forEachLane fun l => limbs (s.maskMsb (s.load256 ea l))))

/-- FST: store the canonical value as 8 words per lane (R161). -/
def execFst (fs : FReg) (ca : CReg) (addr : Half) (s : State) : Result :=
  let ea := s.effectiveAddress ca addr
  if s.outOfRange ea words256Count then raise .dmemRange (.fst fs ca addr) s
  else retire (s.storeWords ea (words256 (forEachLane fun l => scalarOf (s.fieldAt fs l))))

/-- FLDL: load raw limbs (R162). -/
def execFldl (fd : FReg) (ca : CReg) (addr : Half) (s : State) : Result :=
  let ea := s.effectiveAddress ca addr
  if s.outOfRange ea wordsLimbsCount then raise .dmemRange (.fldl fd ca addr) s
  else retire (s.setF fd (forEachLane fun l => Vector.ofFn fun i => s.loadLimb ea l i.val))

/-- FSTL: store raw limbs as held (R163). -/
def execFstl (fs : FReg) (ca : CReg) (addr : Half) (s : State) : Result :=
  let ea := s.effectiveAddress ca addr
  if s.outOfRange ea wordsLimbsCount then raise .dmemRange (.fstl fs ca addr) s
  else retire (s.storeWords ea (wordsLimbs (s.freg fs)))

/-- SLD: load a scalar, all 256 bits (R164). -/
def execSld (sd : RField) (ca : CReg) (addr : Half) (s : State) : Result :=
  if fieldTooBig sd then raise .illegalOperand (.sld sd ca addr) s
  else
    let ea := s.effectiveAddress ca addr
    if s.outOfRange ea words256Count then raise .dmemRange (.sld sd ca addr) s
    else retire (s.setS (regOfField sd) (forEachLane fun l => scalarOf (s.load256 ea l)))

/-- SST: store a scalar (R165). -/
def execSst (ss : RField) (ca : CReg) (addr : Half) (s : State) : Result :=
  if fieldTooBig ss then raise .illegalOperand (.sst ss ca addr) s
  else
    let ea := s.effectiveAddress ca addr
    if s.outOfRange ea words256Count then raise .dmemRange (.sst ss ca addr) s
    else retire (s.storeWords ea (words256 (s.sreg (regOfField ss))))

end Sys2Proof.Machine
end

