-- ==== Sys2Proof/Machine/Dispatch.lean ====
section
/-! DEFINITION. The dispatch: one arm per instruction, each one direct call of its meaning. -/

namespace Sys2Proof.Machine

def exec (i : Instr) (s : State) : Host.Outcome State Fault Refusal :=
  match i with
  | .nop => Sys2Proof.Machine.execNop s
  | .halt => Sys2Proof.Machine.execHalt s
  | .jmp tgt => Sys2Proof.Machine.execJmp tgt s
  | .bnez ca tgt => Sys2Proof.Machine.execBnez ca tgt s
  | .dbnz ca tgt => Sys2Proof.Machine.execDbnz ca tgt s
  | .cseti cd imm => Sys2Proof.Machine.execCseti cd imm s
  | .caddi cd simm => Sys2Proof.Machine.execCaddi cd simm s
  | .fld fd ca addr => Sys2Proof.Machine.execFld fd ca addr s
  | .fst fs ca addr => Sys2Proof.Machine.execFst fs ca addr s
  | .fldl fd ca addr => Sys2Proof.Machine.execFldl fd ca addr s
  | .fstl fs ca addr => Sys2Proof.Machine.execFstl fs ca addr s
  | .sld sd ca addr => Sys2Proof.Machine.execSld sd ca addr s
  | .sst ss ca addr => Sys2Proof.Machine.execSst ss ca addr s
  | .fadd fd fa fb => Sys2Proof.Machine.execFadd fd fa fb s
  | .fsub fd fa fb => Sys2Proof.Machine.execFsub fd fa fb s
  | .fmul fd fa fb => Sys2Proof.Machine.execFmul fd fa fb s
  | .fsqr fd fa => Sys2Proof.Machine.execFsqr fd fa s
  | .fmov fd fa => Sys2Proof.Machine.execFmov fd fa s
  | .fnorm fd fa => Sys2Proof.Machine.execFnorm fd fa s
  | .finv fd fa => Sys2Proof.Machine.execFinv fd fa s
  | .fmulc fd fa imm => Sys2Proof.Machine.execFmulc fd fa imm s
  | .fseti fd imm => Sys2Proof.Machine.execFseti fd imm s
  | .clamp sd sa => Sys2Proof.Machine.execClamp sd sa s
  | .recode dd sa => Sys2Proof.Machine.execRecode dd sa s
  | .cswap fa fb sa cc n => Sys2Proof.Machine.execCswap fa fb sa cc n s
  | .cswapf fa fb n => Sys2Proof.Machine.execCswapf fa fb n s
  | .tblsel fd dd cc => Sys2Proof.Machine.execTblsel fd dd cc s
  | .edinit fd => Sys2Proof.Machine.execEdinit fd s
  | .edadd fd fa fb => Sys2Proof.Machine.execEdadd fd fa fb s
  | .eddbl fd fa => Sys2Proof.Machine.execEddbl fd fa s
  | .ladstep fd fa => Sys2Proof.Machine.execLadstep fd fa s
  | .edfbmul fd sb => Sys2Proof.Machine.execEdfbmul fd sb s
  | .monfb fd sb => Sys2Proof.Machine.execMonfb fd sb s
  | .monvb fd fa sb => Sys2Proof.Machine.execMonvb fd fa sb s
  | .keygen fd sb => Sys2Proof.Machine.execKeygen fd sb s
  | .shsec fd fa sb => Sys2Proof.Machine.execShsec fd fa sb s

end Sys2Proof.Machine
end

