-- ==== Sys2Proof/Machine/HostPort.lean ====
section
/-! DEFINITION. The host's side of the block: the host window and its registers (spec/10_state.md R38 to R48,
spec/20_memory.md R70 to R72, spec/70_reset_and_hazards.md R327), the IRQ output (spec/60_exceptions.md R295), and the
reset event (R320). -/

namespace Sys2Proof.Machine

open Sys2Proof.Config

/-! ## The host window -/

/-- The control and status registers (R38). -/
inductive Csr where
  | id
  | version
  | ctrl
  | status
  | startPc
  | pc
  | cause
  | faultPc
  | faultInsn
  | params
deriving DecidableEq, Repr

/-- What an aligned 32-bit access at an offset reaches (R70). -/
inductive Target where
  | csr (r : Csr)
  | mem (sp : Space) (i : Nat)
deriving DecidableEq, Repr

/-- The register at a byte offset (R38). -/
def csrAt (offset : Nat) : Option Csr :=
  match offset with
  | 0x00 => some .id
  | 0x04 => some .version
  | 0x08 => some .ctrl
  | 0x0C => some .status
  | 0x10 => some .startPc
  | 0x14 => some .pc
  | 0x18 => some .cause
  | 0x1C => some .faultPc
  | 0x20 => some .faultInsn
  | 0x24 => some .params
  | _ => none

/-- The region map of the window (R70): the registers, IMEM from 0x4000, DMEM from 0x8000; everything else is unmapped. -/
def regionAt (P : Params) (offset : Nat) : Option Target :=
  if offset < 0x28 then (csrAt offset).map Target.csr
  else if 0x4000 ≤ offset ∧ offset < 0x4000 + 4 * P.imemWords then some (.mem .imem ((offset - 0x4000) / 4))
  else if 0x8000 ≤ offset ∧ offset < 0x8000 + 4 * P.dmemWords then some (.mem .dmem ((offset - 0x8000) / 4))
  else none

/-- What a host access reaches; none where the access is an error: narrow, misaligned or unmapped (R71). -/
def hostTarget (P : Params) (width : HostWidth) (offset : Half) : Option Target :=
  if width = .word ∧ offset.toNat % 4 = 0 then regionAt P offset.toNat else none

/-- The offset in the host window of a system address, none where the address belongs to the platform (R70; log entry 7). -/
def hostOffset (address : Nat) : Option Half :=
  if hostBase ≤ address ∧ address < hostBase + 0x10000 then some (BitVec.ofNat 16 (address - hostBase)) else none

/-! ## Reading and writing the registers -/

/-- The code of a cause (R280). -/
def causeCode : Cause → Nat
  | .none => 0
  | .illegalInstruction => 1
  | .illegalOperand => 2
  | .dmemRange => 3
  | .fetchRange => 4
  | .indexRange => 5
  | .aborted => 6

/-- A flag at a bit position of a register word. -/
def flagBit (b : Bool) (n : Nat) : Word := if b then 1#32 <<< n else 0

/-- The value a host read of a register returns (R39 to R48). Bits not listed read 0. -/
def State.readCsr (s : State) : Csr → Word
  | .id => 0x45433235
  | .version => 0x00000001
  | .ctrl => flagBit s.ie 1 ||| flagBit s.msbmask 2
  | .status => flagBit s.busy 0 ||| flagBit s.done 1 ||| flagBit s.fault 2 ||| flagBit s.hberr 3
  | .startPc => s.startPc.setWidth 32
  | .pc => s.pc.setWidth 32
  | .cause => BitVec.ofNat 32 (causeCode s.cause)
  | .faultPc => s.faultPc.setWidth 32
  | .faultInsn => s.faultInsn
  | .params => BitVec.ofNat 32 (s.params.imemBits % 32 + 2 ^ 8 * (s.params.dmemBits % 32))

/-- A host-bus error sets the sticky STATUS.HBERR and nothing else (R292). -/
def State.busError (s : State) : State := { s with hberr := true }

/-- A write of CTRL: one atomic update, IE, then MSBMASK (only while idle), then START or ABORT (R41; log entry 12). -/
def State.writeCtrl (s : State) (data : Word) : State :=
  let t := { s with ie := data.getLsbD 1, msbmask := if s.busy then s.msbmask else data.getLsbD 2 }
  if s.busy then
    { t with hberr := t.hberr || data.getLsbD 0, abortReq := t.abortReq || data.getLsbD 3 }
  else if data.getLsbD 0 then t.startRun
  else t

/-- A write of STATUS clears the write-1-to-clear bits written with 1 (R42). -/
def State.writeStatus (s : State) (data : Word) : State :=
  { s with done := s.done && !data.getLsbD 1, fault := s.fault && !data.getLsbD 2, hberr := s.hberr && !data.getLsbD 3 }

/-- A write of START_PC: dropped with HBERR while busy (R43). -/
def State.writeStartPc (s : State) (data : Word) : State :=
  if s.busy then s.busError else { s with startPc := data.setWidth 16 }

/-- A host write of a register; a write to a read-only register is dropped and sets no error (R38). -/
def State.writeCsr (s : State) (r : Csr) (data : Word) : State :=
  match r with
  | .ctrl => s.writeCtrl data
  | .status => s.writeStatus data
  | .startPc => s.writeStartPc data
  | .id | .version | .pc | .cause | .faultPc | .faultInsn | .params => s

/-- Store one word of a memory from the host (R70). -/
def State.hostStore (s : State) (sp : Space) (i : Nat) (data : Word) : State :=
  match sp with
  | .imem => { s with imem := s.imem.putWords i [data] }
  | .dmem => { s with dmem := s.dmem.putWords i [data] }

/-- A host read: the word it returns and the state it leaves (R71, R72, R327). -/
def State.hostRead (s : State) (width : HostWidth) (offset : Half) : Word × State :=
  match hostTarget s.params width offset with
  | none => (0, s.busError)
  | some (.csr r) => (s.readCsr r, s)
  | some (.mem sp i) => if s.busy then (0, s.busError) else (s.wordAt sp i, s)

/-- A host write: the state it leaves (R71, R72, R327). -/
def State.hostWrite (s : State) (width : HostWidth) (offset : Half) (data : Word) : State :=
  match hostTarget s.params width offset with
  | none => s.busError
  | some (.csr r) => s.writeCsr r data
  | some (.mem sp i) => if s.busy then s.busError else s.hostStore sp i data

/-! ## IRQ and reset -/

/-- The IRQ output, CTRL.IE AND (STATUS.DONE OR STATUS.FAULT) (R295). -/
def State.irq (s : State) : Bool := s.ie && (s.done || s.fault)

/-- The reset event (R320): every piece of state as R52 says. The parameters stay; the memories hold nothing a claim may
rely on, so every word counts as not written since reset, with new free contents (R78; log entry 3). What the host has
read and the turns to come are no part of the block. -/
def State.resetEvent (s : State) : State :=
  { State.reset with params := s.params, memEpoch := s.memEpoch + 1, hostRdata := s.hostRdata, turns := s.turns }

end Sys2Proof.Machine
end

