-- ==== Sys2Proof/Machine/Engine.lean ====
section
/-! DEFINITION. One step of the engine (spec/70_reset_and_hazards.md R324) and one turn of an agent (spec/10_state.md R30,
R327). `Step.lean` only calls them. -/

namespace Sys2Proof.Machine

open Sys2Proof.Config

/-- The fetch is out of range: PC ≥ IMEM_WORDS (R36, R281). -/
abbrev State.fetchOutOfRange (s : State) : Prop := s.params.imemWords ≤ s.pc.toNat

/-- The word a fetch reads: IMEM[PC] (R73, R100). -/
def State.fetched (s : State) : Word := s.wordAt .imem s.pc.toNat

/-- The engine fetches a word in its next step: it is busy, no abort is pending, and the PC is in range (R324). -/
def State.runsInstruction (s : State) : Bool := s.busy && !s.abortReq && decide (¬ s.fetchOutOfRange)

/-- Decode and execute the fetched word (R115, R324). -/
def State.runWord (s : State) (w : Word) : Result :=
  match decode w with
  | .error _ => .next (s.faultEntry .illegalInstruction w)
  | .ok i => exec i s

/-- The engine step (R324). While idle the engine does nothing and all state survives (R306; log entry 9). -/
def engineStep (s : State) : Result :=
  if !s.busy then .next s
  else if s.abortReq then .next (s.faultEntry .aborted 0)
  else if s.fetchOutOfRange then .next (s.faultEntry .fetchRange 0)
  else s.runWord s.fetched

/-- A host read puts the word it returns on the read port (R327; log entry 4). -/
def State.hostReadTurn (s : State) (width : HostWidth) (offset : Half) : State :=
  { (s.hostRead width offset).2 with hostRdata := (s.hostRead width offset).1 }

/-- One turn of an agent (R30, R327). -/
def turnStep (t : Turn) (s : State) : Result :=
  match t with
  | .engine => engineStep s
  | .hostRead width offset => .next (s.hostReadTurn width offset)
  | .hostWrite width offset data => .next (s.hostWrite width offset data)
  | .reset => .next s.resetEvent

end Sys2Proof.Machine
end

