-- ==== Sys2Proof/Machine/Step.lean ====
section
/-! DEFINITION. One step of the machine: the next agent's turn, the engine's where no turn is listed (log entry 1); and the
placing of an instruction where the engine fetches next (log entry 8). -/

namespace Sys2Proof.Machine

open Sys2Proof.Config

/-- One step of the machine (R30, R324). -/
def step (s : State) : Host.Outcome State Fault Refusal :=
  match s.turns with
  | [] => engineStep s
  | t :: rest => turnStep t { s with turns := rest }

/-- `s` with the instruction word whose bits are `w` stored where the engine fetches next, the run started if the engine
is idle (R323), no abort pending, the fetch in range, and the engine to move: it stands for the host's writing of a
program and its START (R326; log entry 8). -/
def State.withFetchWord (s : State) (nbits w : Nat) : State :=
  let t := if s.busy then s else s.startRun
  let pc : Half := if t.params.imemWords ≤ t.pc.toNat then 0 else t.pc
  { t with pc := pc, abortReq := false, turns := [], imem := t.imem.putWords pc.toNat [BitVec.ofNat 32 (w % 2 ^ nbits)] }

end Sys2Proof.Machine
end

