-- ==== Sys2Proof/Machine/Trace.lean ====
section
/-! DEFINITION. What a constant-time claim observes (spec/70_reset_and_hazards.md R334, spec/43_table_lookup.md R212): the
PC an engine step executes, the DMEM word addresses it touches and the table entries it reads. The entries are the very
lists that `sel` and `comb` scan; durations are no part of the model (R333; log entries 15 and 22). -/

namespace Sys2Proof.Machine

open Sys2Proof.Config

/-- The word addresses from `ea` on that an access of `n` words touches, none where it is out of range (R75, R81). -/
def State.accessed (s : State) (ca : CReg) (addr : Half) (n : Nat) : List Nat :=
  if s.outOfRange (s.effectiveAddress ca addr) n then [] else (List.range n).map fun k => s.effectiveAddress ca addr + k

/-- The DMEM word addresses an instruction reads or writes (R166, R334). -/
def dmemTouched (i : Instr) (s : State) : List Nat :=
  match i with
  | .fld _ ca addr => s.accessed ca addr words256Count
  | .fst _ ca addr => s.accessed ca addr words256Count
  | .fldl _ ca addr => s.accessed ca addr wordsLimbsCount
  | .fstl _ ca addr => s.accessed ca addr wordsLimbsCount
  | .sld sd ca addr => if fieldTooBig sd then [] else s.accessed ca addr words256Count
  | .sst ss ca addr => if fieldTooBig ss then [] else s.accessed ca addr words256Count
  | _ => []

/-- The table entries an instruction reads in each lane, in order (R76, R212, R237). -/
def tableTouched (i : Instr) (s : State) : List (Fin 32 × Fin 8) :=
  match i with
  | .tblsel fd _ cc =>
    if groupTooBig fd 3 ∨ digitIndexTooBig (s.creg cc) then [] else tableScan (windowOf (s.creg cc).toNat)
  | .edfbmul fd sb => if fieldTooBig sb ∨ groupTooBig fd 2 then [] else combReads
  | .monfb fd sb => if fieldTooBig sb ∨ groupTooBig fd 2 then [] else combReads
  | .keygen _ sb => if fieldTooBig sb then [] else combReads
  | _ => []

/-- One engine step as an observer sees it. -/
structure Observation where
  pc    : Option Half
  dmem  : List Nat
  table : List (Fin 32 × Fin 8)
deriving DecidableEq, Repr

/-- What the engine's next step shows: nothing where no instruction is executed (R324, R334). -/
def State.observe (s : State) : Observation :=
  if s.runsInstruction then
    match decode s.fetched with
    | .ok i => ⟨some s.pc, dmemTouched i s, tableTouched i s⟩
    | .error _ => ⟨some s.pc, [], []⟩
  else ⟨none, [], []⟩

end Sys2Proof.Machine
end

