-- ==== Sys2Proof/WellFormed.lean ====
section
/-! DEFINITION. Which instructions name only operands the machine has: the negation of the ILLEGAL_OPERAND conditions of
spec/30_encoding.md R114, row by row. -/

namespace Sys2Proof

/-- A 5-bit field names one of the four scalar or digit registers (R114). -/
def RField.named (r : RField) : Bool := decide (r.toNat ≤ 3)

/-- A group of `len` consecutive field registers from `r` on ends at or before F31 (R114). -/
def FReg.groupFits (r : FReg) (len : Nat) : Bool := decide (r.toNat + len - 1 ≤ 31)

/-- Two swap groups of `len` registers do not overlap: |FA - FB| ≥ n (R114). -/
def FReg.groupsApart (a b : FReg) (len : Nat) : Bool := decide (a.toNat + len ≤ b.toNat ∨ b.toNat + len ≤ a.toNat)

/-- The instruction meets no condition of the table of R114. -/
def Instr.wellFormed : Instr → Bool
  | .nop | .halt | .jmp _ | .bnez _ _ | .dbnz _ _ | .cseti _ _ | .caddi _ _ => true
  | .fld _ _ _ | .fst _ _ _ | .fldl _ _ _ | .fstl _ _ _ => true
  | .sld sd _ _ => sd.named
  | .sst ss _ _ => ss.named
  | .fadd _ _ _ | .fsub _ _ _ | .fmul _ _ _ | .fsqr _ _ | .fmov _ _ | .fnorm _ _ | .finv _ _ => true
  | .fmulc _ _ _ | .fseti _ _ => true
  | .clamp sd sa => sd.named && sa.named
  | .recode dd sa => dd.named && sa.named
  | .cswap fa fb _ _ n => fa.groupFits (n.toNat + 1) && fb.groupFits (n.toNat + 1) && fa.groupsApart fb (n.toNat + 1)
  | .cswapf fa fb n => fa.groupFits (n.toNat + 1) && fb.groupFits (n.toNat + 1) && fa.groupsApart fb (n.toNat + 1)
  | .tblsel fd _ _ => fd.groupFits 3
  | .edinit fd => fd.groupFits 5
  | .edadd fd fa fb => fd.groupFits 5 && fa.groupFits 5 && fb.groupFits 3
  | .eddbl fd fa => fd.groupFits 5 && fa.groupFits 5
  | .ladstep fd _ => fd.groupFits 4
  | .edfbmul fd sb => sb.named && fd.groupFits 2
  | .monfb fd sb => sb.named && fd.groupFits 2
  | .monvb fd _ sb => sb.named && fd.groupFits 2
  | .keygen _ sb => sb.named
  | .shsec _ _ sb => sb.named

end Sys2Proof
end

