-- ==== Sys2Proof/Safety.lean ====
section
/-! DEFINITION. The terms claims are stated in: what a step leaves unchanged, the invariant of the state, what an observer
and what one lane may know, and the Edwards curve that the default table and the point formulas are about. -/

namespace Sys2Proof.Machine

open Sys2Proof.Config

/-! ## Frames -/

/-- What an instruction may change besides the PC; the DMEM words are the `dmemWords` words from `dmemFrom` on. -/
structure Footprint where
  fregs     : List FReg := []
  sregs     : List SReg := []
  dregs     : List DReg := []
  cregs     : List CReg := []
  swp       : Bool := false
  dmemFrom  : Nat := 0
  dmemWords : Nat := 0

/-- The control and status registers, the hidden bit ABORTREQ, the parameters and the model's own fields are the same. -/
structure SameControl (s t : State) : Prop where
  params    : t.params = s.params
  ie        : t.ie = s.ie
  msbmask   : t.msbmask = s.msbmask
  busy      : t.busy = s.busy
  done      : t.done = s.done
  fault     : t.fault = s.fault
  hberr     : t.hberr = s.hberr
  startPc   : t.startPc = s.startPc
  cause     : t.cause = s.cause
  faultPc   : t.faultPc = s.faultPc
  faultInsn : t.faultInsn = s.faultInsn
  abortReq  : t.abortReq = s.abortReq
  memEpoch  : t.memEpoch = s.memEpoch
  hostRdata : t.hostRdata = s.hostRdata
  turns     : t.turns = s.turns

/-- The engine's registers and both memories, outside the footprint, are the same. -/
structure SameOutside (fp : Footprint) (s t : State) : Prop where
  fregs : ∀ r, r ∉ fp.fregs → t.freg r = s.freg r
  sregs : ∀ r, r ∉ fp.sregs → t.sreg r = s.sreg r
  dregs : ∀ r, r ∉ fp.dregs → t.dreg r = s.dreg r
  cregs : ∀ r, r ∉ fp.cregs → t.creg r = s.creg r
  swp   : fp.swp = false → t.swp = s.swp
  imem  : ∀ a, t.byteAt .imem a = s.byteAt .imem a
  dmem  : ∀ a, (a < 4 * fp.dmemFrom ∨ 4 * (fp.dmemFrom + fp.dmemWords) ≤ a) → t.byteAt .dmem a = s.byteAt .dmem a

/-- The frame of an instruction: outside its footprint and the PC, everything is the same. -/
structure Frame (fp : Footprint) (s t : State) : Prop where
  control : SameControl s t
  outside : SameOutside fp s t

/-- The members of a group of `n` field registers. -/
def groupList (r : FReg) (n : Nat) : List FReg := (List.range n).map (groupReg r)

/-- A limb vector is normalized: it is the canonical representation of its value (R9). -/
abbrev Normalized (x : Limbs) : Prop := x = canon (val x : Int)

/-- After the step, lane `l` of F[r] is normalized and its value is `v` mod p. -/
abbrev State.HoldsModP (t : State) (r : FReg) (l : Lane) (v : Int) : Prop :=
  Normalized ((t.freg r).get l) ∧ (val ((t.freg r).get l) : Int) = v % (p : Int)

/-- The limbs split `k` in radix 2^29: limbs 0 to 7 hold 29 bits each, limb 8 the rest (R9, R10). -/
abbrev SplitOf (x : Limbs) (k : Nat) : Prop :=
  (∀ i : Fin 8, (x.get (i.castLE (by decide))).toNat = k / 2 ^ (29 * i.val) % 2 ^ 29) ∧ (x.get 8).toNat = k / 2 ^ 232

/-- The 256-bit value of lane `l` at word address `ea`, by the sum of R79. -/
def State.laneValue (s : State) (ea : Nat) (l : Lane) : Nat :=
  ∑ j ∈ Finset.range 8, (s.wordAt .dmem (ea + 4 * j + l.val)).toNat * 2 ^ (32 * j)

/-- The state an instruction leaves (every meaning answers a next state, log entry 20). -/
def State.after (s : State) (i : Instr) : State :=
  match exec i s with
  | .next t => t
  | _ => s

/-- The instruction is not stopped by its operand check (R114). -/
abbrev operandsLegal (i : Instr) : Prop := i.wellFormed = true

/-- The instructions that write a field register: FLD, FLDL, the field instructions, TBLSEL, EDINIT, EDADD, EDDBL, LADSTEP,
CSWAP, CSWAPF and the macro instructions (R31). -/
def writesField : Instr → Bool
  | .fld _ _ _ | .fldl _ _ _ => true
  | .fadd _ _ _ | .fsub _ _ _ | .fmul _ _ _ | .fsqr _ _ | .fmulc _ _ _ => true
  | .fmov _ _ | .fnorm _ _ | .finv _ _ | .fseti _ _ => true
  | .tblsel _ _ _ | .edinit _ | .edadd _ _ _ | .eddbl _ _ | .ladstep _ _ => true
  | .cswap _ _ _ _ _ | .cswapf _ _ _ => true
  | .edfbmul _ _ | .monfb _ _ | .monvb _ _ _ | .keygen _ _ | .shsec _ _ _ => true
  | .nop | .halt | .jmp _ | .bnez _ _ | .dbnz _ _ | .cseti _ _ | .caddi _ _ => false
  | .fst _ _ _ | .fstl _ _ _ | .sld _ _ _ | .sst _ _ _ | .clamp _ _ | .recode _ _ => false

/-! ## The invariant -/

/-- What holds of every state a run can reach (R33, R42, R45 to R49, R325; log entries 14 and 16). -/
structure Inv (s : State) : Prop where
  params    : s.params.Legal
  imemWf    : s.imem.wf
  dmemWf    : s.dmem.wf
  imemIn    : ∀ c ∈ s.imem, c.1 < 4 * s.params.imemWords
  dmemIn    : ∀ c ∈ s.dmem, c.1 < 4 * s.params.dmemWords
  digits    : ∀ r l i, -8 ≤ ((s.dreg r).get l).get i ∧ ((s.dreg r).get l).get i ≤ 16
  oneEnd    : ¬ (s.done = true ∧ s.fault = true)
  running   : s.busy = true → s.done = false ∧ s.fault = false ∧ s.cause = .none ∧ s.faultPc = 0 ∧ s.faultInsn = 0
  abort     : s.abortReq = true → s.busy = true
  endedDone : s.done = true → s.cause = .none ∧ s.faultPc = 0 ∧ s.faultInsn = 0
  endedBad  : s.fault = true → s.cause ≠ .none ∧ s.pc = s.faultPc
  noWord    : s.cause = .fetchRange ∨ s.cause = .aborted ∨ s.cause = .none → s.faultInsn = 0

/-! ## What an observer and what one lane may know -/

/-- The two states agree on everything R334 lets timing and addresses depend on, and on the host's side: they may differ
only in F, S, D, SWP, DMEM and the last word a host read returned. -/
structure PublicEq (s t : State) : Prop where
  params    : t.params = s.params
  cregs     : ∀ r, t.creg r = s.creg r
  pc        : t.pc = s.pc
  ie        : t.ie = s.ie
  msbmask   : t.msbmask = s.msbmask
  busy      : t.busy = s.busy
  done      : t.done = s.done
  fault     : t.fault = s.fault
  hberr     : t.hberr = s.hberr
  startPc   : t.startPc = s.startPc
  cause     : t.cause = s.cause
  faultPc   : t.faultPc = s.faultPc
  faultInsn : t.faultInsn = s.faultInsn
  abortReq  : t.abortReq = s.abortReq
  imem      : t.imem = s.imem
  memEpoch  : t.memEpoch = s.memEpoch
  turns     : t.turns = s.turns

/-- The two states agree on lane `l` of F, S, D and SWP (R4). -/
structure LaneEq (l : Lane) (s t : State) : Prop where
  fregs : ∀ r, (t.freg r).get l = (s.freg r).get l
  sregs : ∀ r, (t.sreg r).get l = (s.sreg r).get l
  dregs : ∀ r, (t.dreg r).get l = (s.dreg r).get l
  swp   : t.swp.get l = s.swp.get l

/-! ## The Edwards curve -x² + y² = 1 + d·x²·y² -/

/-- An affine point, its coordinates in [0, p). -/
structure AffinePoint where
  x : Nat
  y : Nat
deriving DecidableEq, Repr

/-- The point is on the curve (44_edwards.md, its heading). -/
abbrev AffinePoint.OnCurve (P : AffinePoint) : Prop :=
  ((P.y : Int) * P.y - (P.x : Int) * P.x) % p = (1 + (edwardsD : Int) * P.x * P.x * P.y * P.y) % p

/-- The group law of the curve in affine coordinates: x = (x1·y2 + x2·y1)/(1 + k) and y = (y1·y2 + x1·x2)/(1 - k) with
k = d·x1·x2·y1·y2. -/
def AffinePoint.add (P Q : AffinePoint) : AffinePoint :=
  let k := gfMul (gfMul edwardsD (gfMul P.x Q.x)) (gfMul P.y Q.y)
  ⟨gfMul (gfAdd (gfMul P.x Q.y) (gfMul Q.x P.y)) (gfInv (gfAdd 1 k)),
    gfMul (gfAdd (gfMul P.y Q.y) (gfMul P.x Q.x)) (gfInv (gfSub 1 k))⟩

/-- The Duif form ((y + x)/2, (y - x)/2, d·x·y) mod p (R210). -/
def AffinePoint.duif (P : AffinePoint) : Duif :=
  ⟨gfMul (gfAdd P.y P.x) (gfInv 2), gfMul (gfSub P.y P.x) (gfInv 2), gfMul edwardsD (gfMul P.x P.y)⟩

/-- The extended point (x, y, 1, x, y) (R227). -/
def AffinePoint.ext (P : AffinePoint) : ExtPoint := ⟨P.x, P.y, 1, P.x, P.y⟩

/-- The base point B (00_scope.md R6). -/
def basePoint : AffinePoint := ⟨baseX, baseY⟩

/-- (n + 1)·P by adding P n times. -/
def AffinePoint.timesSucc (P : AffinePoint) : Nat → AffinePoint
  | 0 => P
  | n + 1 => (P.timesSucc n).add P

/-- 2^n·P by doubling n times. -/
def AffinePoint.doubled (P : AffinePoint) : Nat → AffinePoint
  | 0 => P
  | n + 1 => (P.doubled n).add (P.doubled n)

/-- The point (j + 1)·256^w·B of entry (w, j) (R214): 256^w is 8w doublings. -/
def tablePoint (w j : Nat) : AffinePoint := (basePoint.doubled (8 * w)).timesSucc j

/-- The extended coordinates fit together: E·H·Z ≡ X·Y (R220). -/
abbrev ExtPoint.Consistent (P : ExtPoint) : Prop :=
  ((P.E : Int) * P.H * P.Z) % p = ((P.X : Int) * P.Y) % p

/-- The cross products of two points agree: X1·Z2 ≡ X2·Z1 and Y1·Z2 ≡ Y2·Z1 (R221). -/
abbrev ExtPoint.CrossEqual (P Q : ExtPoint) : Prop :=
  ((P.X : Int) * Q.Z) % p = ((Q.X : Int) * P.Z) % p ∧ ((P.Y : Int) * Q.Z) % p = ((Q.Y : Int) * P.Z) % p

/-- Two points are equal in affine terms: the cross products agree, with Z1, Z2 ≢ 0 (R221). -/
abbrev ExtPoint.SameAffine (P Q : ExtPoint) : Prop := P.Z % p ≠ 0 ∧ Q.Z % p ≠ 0 ∧ P.CrossEqual Q

/-- P holds the affine point A, in any scaling: Z ≢ 0, X ≡ x·Z and Y ≡ y·Z, and the coordinates fit together (R220). -/
structure ExtPoint.Holds (P : ExtPoint) (A : AffinePoint) : Prop where
  z : P.Z % p ≠ 0
  x : (P.X : Int) % p = ((A.x : Int) * P.Z) % p
  y : (P.Y : Int) % p = ((A.y : Int) * P.Z) % p
  t : P.Consistent

end Sys2Proof.Machine
end

