-- ==== Sys2Proof/Certificates/Slice0/Obligations.lean ====
section
/-! DEFINITION. The statements for the provers. Each says what one or more rules R<n> of spec/ say; its docstring names
them. A statement about an instruction is of the form "exec answers a next state t, and t is …", so that it says at once
where the instruction completes, what it writes and, by `Frame`, that it writes nothing else. -/

open Sys2Proof Sys2Proof.Machine Sys2Proof.Config

/-! ## Encoding -/

/-- R102 to R110: decoding and encoding agree in both directions. Every instruction, with every value of every operand
field, decodes from the word it encodes to, and a word that decodes is that word: no bit of it is spare. -/
def Obligations.DecodingAndEncodingAgree : Prop :=
  ∀ (w : Word) (i : Instr), decode w = .ok i ↔ w = encode i

/-- R110: a word encodes the instruction of a row exactly when (w AND mask) = match, and no word matches two rows. -/
def Obligations.AWordEncodesTheInstructionOfItsOneRow : Prop :=
  ∀ w : Word,
    (∀ i, decode w = .ok i ↔ ∃ r ∈ rows, w &&& r.mask = r.value ∧ r.build w = i) ∧
    (∀ j k : Fin rows.length, w &&& (rows.get j).mask = (rows.get j).value →
      w &&& (rows.get k).mask = (rows.get k).value → j = k)

/-- R102 to R110: words written out field by field decode to the instructions they stand for, one for each format. -/
def Obligations.WrittenOutWordsDecode : Prop :=
  decode 0b00000_00000_00000_00000_0000000_00010 = .ok .halt ∧
  decode 0b01100_00011_00001_00010_0000000_00001 = .ok (.fsub 3 1 2) ∧
  decode 0b01101_00111_00001_11101101101000001 = .ok (.fmulc 7 1 121665) ∧
  decode 0b00010_011_00000000_0000000001000101 = .ok (.bnez 3 0x45) ∧
  decode 0b00101_001_00000000_1111111111111111 = .ok (.caddi 1 0xFFFF) ∧
  decode 0b00110_00001_010_000_0000000000100000 = .ok (.fld 1 2 0x20) ∧
  decode 0b10000_00010_00100_01_001_01_00000_00000 = .ok (.cswap 2 4 1 1 1) ∧
  decode 0b10001_10000_00_001_00000000000000000 = .ok (.tblsel 16 0 1) ∧
  decode 0b10010_01000_01000_10000_0000000_00001 = .ok (.edadd 8 8 16) ∧
  decode 0b10011_00010_00001_00000_0000000_00000 = .ok (.ladstep 2 1) ∧
  decode 0b10100_00000_00001_00000_0000000_00100 = .ok (.shsec 0 1 0)

/-- R112: the words that match no row, with the classes the rule lists; executing one enters the fault
ILLEGAL_INSTRUCTION, and the words of no other kind do. -/
def Obligations.AWordInNoRowIsIllegal : Prop :=
  ∀ w : Word,
    ((∀ r ∈ rows, w &&& r.mask ≠ r.value) ↔ ∃ e, decode w = .error e) ∧
    (∀ s : State, (∀ r ∈ rows, w &&& r.mask ≠ r.value) → s.runWord w = .next (s.faultEntry .illegalInstruction w)) ∧
    (0x15 ≤ (bits w 27 5).toNat → decode w = .error .reservedOpcode) ∧
    ((bits w 27 5 = 0x00 ∧ bits w 0 5 ≠ 1 ∧ bits w 0 5 ≠ 2 ∨
      bits w 27 5 = 0x0C ∧ 7 ≤ (bits w 0 5).toNat ∨
      bits w 27 5 = 0x0F ∧ 2 ≤ (bits w 0 5).toNat ∨
      bits w 27 5 = 0x10 ∧ 2 ≤ (bits w 0 5).toNat ∨
      bits w 27 5 = 0x12 ∧ 3 ≤ (bits w 0 5).toNat ∨
      bits w 27 5 = 0x13 ∧ 1 ≤ (bits w 0 5).toNat ∨
      bits w 27 5 = 0x14 ∧ 5 ≤ (bits w 0 5).toNat) → decode w = .error .unlistedFunction) ∧
    decode 0 = .error .unlistedFunction

/-! ## The engine step and its faults -/

/-- R30, R324, and the model's turns (log entry 1): when the engine moves, is busy, has no abort pending and fetches a word
in range that decodes to `i`, the step is `exec i`; nothing is added around it. -/
def Obligations.AStepRunsTheDecodedInstruction : Prop :=
  ∀ (s u : State) (i : Instr),
    (s.turns = [] ∧ u = s ∨ ∃ rest, s.turns = .engine :: rest ∧ u = { s with turns := rest }) →
    s.busy = true → s.abortReq = false → s.pc.toNat < s.params.imemWords →
    decode (s.wordAt .imem s.pc.toNat) = .ok i → step s = exec i u

/-- R115, R282, R284, R324: the order of the engine step before execution, when the engine moves (the turns are log
entry 1). Idle, nothing changes (log entry 9); else a pending abort is taken; else a PC out of range faults; else a word in
no row faults. The last clause says that FAULT_INSN of a fault raised by the instruction itself is the fetched word. -/
def Obligations.TheEngineStepTestsAbortThenFetchThenWord : Prop :=
  ∀ (s u : State),
    (s.turns = [] ∧ u = s ∨ ∃ rest, s.turns = .engine :: rest ∧ u = { s with turns := rest }) →
    (s.busy = false → step s = .next u) ∧
    (s.busy = true → s.abortReq = true → step s = .next (u.faultEntry .aborted 0)) ∧
    (s.busy = true → s.abortReq = false → s.params.imemWords ≤ s.pc.toNat →
      step s = .next (u.faultEntry .fetchRange 0)) ∧
    (s.busy = true → s.abortReq = false → s.pc.toNat < s.params.imemWords → ∀ e,
      decode (s.wordAt .imem s.pc.toNat) = .error e →
      step s = .next (u.faultEntry .illegalInstruction (s.wordAt .imem s.pc.toNat))) ∧
    (∀ i, decode (s.wordAt .imem s.pc.toNat) = .ok i → encode i = s.wordAt .imem s.pc.toNat)

/-- R259, R275, R281, and the model's empty Fault type (log entry 20): no state stops the machine; every step, of the
engine, the host or the reset input, answers a next state. -/
def Obligations.EveryStepAnswersANextState : Prop :=
  ∀ s : State, ∃ t, step s = .next t

/-- R284: fault entry, with everything it leaves unchanged. -/
def Obligations.FaultEntryRecordsTheCauseAndEndsTheRun : Prop :=
  ∀ (s : State) (c : Cause) (w : Word),
    (s.faultEntry c w).cause = c ∧ (s.faultEntry c w).faultPc = s.pc ∧ (s.faultEntry c w).faultInsn = w ∧
    (s.faultEntry c w).pc = s.pc ∧ (s.faultEntry c w).abortReq = false ∧ (s.faultEntry c w).busy = false ∧
    (s.faultEntry c w).fault = true ∧
    SameOutside {} s (s.faultEntry c w) ∧ (s.faultEntry c w).imem = s.imem ∧ (s.faultEntry c w).dmem = s.dmem ∧
    (s.faultEntry c w).done = s.done ∧ (s.faultEntry c w).hberr = s.hberr ∧ (s.faultEntry c w).ie = s.ie ∧
    (s.faultEntry c w).msbmask = s.msbmask ∧ (s.faultEntry c w).startPc = s.startPc ∧
    (s.faultEntry c w).params = s.params

/-- R283, R292: while the engine is busy an instruction either enters a fault by R284 with one of the three causes an
instruction can raise, or leaves the fault registers alone, and then only HALT ends the run. -/
def Obligations.AnInstructionEitherFaultsWholeOrLeavesTheFaultRegisters : Prop :=
  ∀ (i : Instr) (s : State), s.busy = true → ∃ t, exec i s = .next t ∧
    ((∃ c, (c = .illegalOperand ∨ c = .indexRange ∨ c = .dmemRange) ∧ t = s.faultEntry c (encode i)) ∨
      (t.fault = s.fault ∧ t.cause = s.cause ∧ t.faultPc = s.faultPc ∧ t.faultInsn = s.faultInsn ∧
        t.hberr = s.hberr ∧ (t.busy = true ∨ i = .halt)))

/-- R114, R115, R281, R282: which instructions fault, when, and with which cause: an ill-formed instruction reports
ILLEGAL_OPERAND whatever its counters hold; the ill-formed instructions are those of the table of R114, and the other
twenty have no operand-range condition. -/
def Obligations.EachInstructionFaultsExactlyWhenTheTablesSay : Prop :=
  (∀ (i : Instr) (s : State), s.busy = true →
    (exec i s = .next (s.faultEntry .illegalOperand (encode i)) ↔ i.wellFormed = false) ∧
    (exec i s = .next (s.faultEntry .indexRange (encode i)) ↔
      i.wellFormed = true ∧
        ((∃ fa fb sa cc n, i = .cswap fa fb sa cc n ∧ 255 < (s.creg cc).toNat) ∨
          (∃ fd dd cc, i = .tblsel fd dd cc ∧ 63 < (s.creg cc).toNat))) ∧
    (exec i s = .next (s.faultEntry .dmemRange (encode i)) ↔
      i.wellFormed = true ∧
        ((∃ r ca addr, (i = .fld r ca addr ∨ i = .fst r ca addr ∨ i = .sld r ca addr ∨ i = .sst r ca addr) ∧
            s.params.dmemWords < (s.creg ca).toNat + addr.toNat + 32) ∨
          (∃ r ca addr, (i = .fldl r ca addr ∨ i = .fstl r ca addr) ∧
            s.params.dmemWords < (s.creg ca).toNat + addr.toNat + 72)))) ∧
  (∀ (fd fa fb r r' : BitVec 5) (sa dd : BitVec 2) (c : CReg) (n : BitVec 2) (addr : Half),
    ((Instr.sld r c addr).wellFormed = false ↔ 3 < r.toNat) ∧
    ((Instr.sst r c addr).wellFormed = false ↔ 3 < r.toNat) ∧
    ((Instr.clamp r r').wellFormed = false ↔ 3 < r.toNat ∨ 3 < r'.toNat) ∧
    ((Instr.recode r r').wellFormed = false ↔ 3 < r.toNat ∨ 3 < r'.toNat) ∧
    ((Instr.cswap fa fb sa c n).wellFormed = false ↔
      31 < fa.toNat + n.toNat ∨ 31 < fb.toNat + n.toNat ∨ |(fa.toNat : Int) - fb.toNat| < n.toNat + 1) ∧
    ((Instr.cswapf fa fb n).wellFormed = false ↔
      31 < fa.toNat + n.toNat ∨ 31 < fb.toNat + n.toNat ∨ |(fa.toNat : Int) - fb.toNat| < n.toNat + 1) ∧
    ((Instr.tblsel fd dd c).wellFormed = false ↔ 29 < fd.toNat) ∧
    ((Instr.edinit fd).wellFormed = false ↔ 27 < fd.toNat) ∧
    ((Instr.edadd fd fa fb).wellFormed = false ↔ 27 < fd.toNat ∨ 27 < fa.toNat ∨ 29 < fb.toNat) ∧
    ((Instr.eddbl fd fa).wellFormed = false ↔ 27 < fd.toNat ∨ 27 < fa.toNat) ∧
    ((Instr.ladstep fd fa).wellFormed = false ↔ 28 < fd.toNat) ∧
    ((Instr.edfbmul fd r).wellFormed = false ↔ 3 < r.toNat ∨ 30 < fd.toNat) ∧
    ((Instr.monfb fd r).wellFormed = false ↔ 3 < r.toNat ∨ 30 < fd.toNat) ∧
    ((Instr.monvb fd fa r).wellFormed = false ↔ 3 < r.toNat ∨ 30 < fd.toNat) ∧
    ((Instr.keygen fd r).wellFormed = false ↔ 3 < r.toNat) ∧
    ((Instr.shsec fd fa r).wellFormed = false ↔ 3 < r.toNat)) ∧
  (∀ (fd fa fb : FReg) (c : CReg) (v : Half) (imm : Imm17),
    Instr.nop.wellFormed = true ∧ Instr.halt.wellFormed = true ∧ (Instr.jmp v).wellFormed = true ∧
    (Instr.bnez c v).wellFormed = true ∧ (Instr.dbnz c v).wellFormed = true ∧ (Instr.cseti c v).wellFormed = true ∧
    (Instr.caddi c v).wellFormed = true ∧ (Instr.fld fd c v).wellFormed = true ∧ (Instr.fst fd c v).wellFormed = true ∧
    (Instr.fldl fd c v).wellFormed = true ∧ (Instr.fstl fd c v).wellFormed = true ∧
    (Instr.fadd fd fa fb).wellFormed = true ∧ (Instr.fsub fd fa fb).wellFormed = true ∧
    (Instr.fmul fd fa fb).wellFormed = true ∧ (Instr.fsqr fd fa).wellFormed = true ∧ (Instr.fmov fd fa).wellFormed = true ∧
    (Instr.fnorm fd fa).wellFormed = true ∧ (Instr.finv fd fa).wellFormed = true ∧
    (Instr.fmulc fd fa imm).wellFormed = true ∧ (Instr.fseti fd imm).wellFormed = true)

/-- R31 to R35, R73, R74, R76, R301: each register file, SWP and DMEM is written by the instructions the rules name and by
no other, and no instruction writes IMEM, the parameters, CTRL, START_PC or HBERR. -/
def Obligations.EachKindOfStateIsWrittenOnlyByItsWriters : Prop :=
  ∀ (i : Instr) (s t : State), exec i s = .next t →
    ((∃ r, t.freg r ≠ s.freg r) → writesField i = true) ∧
    ((∃ r, t.creg r ≠ s.creg r) →
      (∃ cd imm, i = .cseti cd imm) ∨ (∃ cd imm, i = .caddi cd imm) ∨ (∃ ca tgt, i = .dbnz ca tgt)) ∧
    ((∃ r, t.sreg r ≠ s.sreg r) → (∃ sd ca addr, i = .sld sd ca addr) ∨ (∃ sd sa, i = .clamp sd sa)) ∧
    ((∃ r, t.dreg r ≠ s.dreg r) → ∃ dd sa, i = .recode dd sa) ∧
    (t.swp ≠ s.swp → (∃ fa fb sa cc n, i = .cswap fa fb sa cc n) ∨ (∃ fa fb n, i = .cswapf fa fb n)) ∧
    (t.dmem ≠ s.dmem →
      (∃ r ca addr, i = .fst r ca addr) ∨ (∃ r ca addr, i = .fstl r ca addr) ∨ (∃ r ca addr, i = .sst r ca addr)) ∧
    t.imem = s.imem ∧ t.params = s.params ∧ t.ie = s.ie ∧ t.msbmask = s.msbmask ∧ t.startPc = s.startPc ∧
    t.hberr = s.hberr ∧ t.memEpoch = s.memEpoch ∧ t.turns = s.turns

/-! ## Sequencer -/

/-- R140, R142, R143: NOP advances the PC, wrapping at 2^16; JMP sets it to the target; BNEZ does the one or the other as
its counter is 0 or not, so it never branches on C0. None changes anything else. -/
def Obligations.NopJmpAndBnezSetOnlyThePc : Prop :=
  ∀ (s : State) (ca : CReg) (tgt : Half),
    (∃ t, exec .nop s = .next t ∧ t.pc.toNat = (s.pc.toNat + 1) % 2 ^ 16 ∧ Frame {} s t) ∧
    (∃ t, exec (.jmp tgt) s = .next t ∧ t.pc = tgt ∧ Frame {} s t) ∧
    (∃ t, exec (.bnez ca tgt) s = .next t ∧ t.pc = (if s.creg ca ≠ 0 then tgt else s.pc + 1) ∧ Frame {} s t) ∧
    s.creg 0 = 0

/-- R141, R325: HALT ends the run with DONE, discards a pending abort request and changes nothing else. That it leaves CAUSE
as it is, where R325 says that CAUSE = 0 at the end, is the model's reading (log entry 11): CAUSE is 0 already while a run
goes on, which is the field `running` of the invariant; the two differ only in states that no run reaches. -/
def Obligations.HaltEndsTheRunWithDone : Prop :=
  ∀ s : State, ∃ t, exec .halt s = .next t ∧ t.pc = s.pc + 1 ∧ t.done = true ∧ t.busy = false ∧ t.abortReq = false ∧
    Frame {} { s with done := true, busy := false, abortReq := false } t

/-- R144: DBNZ decrements with wrap-around and branches when the result is not 0; C0 stays 0 and always branches. -/
def Obligations.DbnzDecrementsAndBranches : Prop :=
  ∀ (s : State) (ca : CReg) (tgt : Half), ∃ (t : State) (v : Half),
    v.toNat = ((s.creg ca).toNat + 65535) % 65536 ∧ exec (.dbnz ca tgt) s = .next t ∧
    t.creg ca = (if ca = 0 then 0 else v) ∧ t.pc = (if v ≠ 0 then tgt else s.pc + 1) ∧
    (ca = 0 → t.pc = tgt) ∧ Frame { cregs := [ca] } s t

/-- R34, R145, R146: CSETI sets a counter, CADDI adds a signed immediate modulo 2^16; a write to C0 is discarded. -/
def Obligations.CsetiSetsAndCaddiAddsToACounter : Prop :=
  ∀ (s : State) (cd : CReg) (imm : Half),
    (∃ t, exec (.cseti cd imm) s = .next t ∧ t.creg cd = (if cd = 0 then 0 else imm) ∧ t.pc = s.pc + 1 ∧
      Frame { cregs := [cd] } s t) ∧
    (∃ t, exec (.caddi cd imm) s = .next t ∧
      ((t.creg cd).toNat : Int) = (if cd = 0 then 0 else ((s.creg cd).toNat + imm.toInt) % 65536) ∧ t.pc = s.pc + 1 ∧
      Frame { cregs := [cd] } s t)

/-! ## Loads and stores -/

/-- R79, R160, R166: FLD. The loaded value is not reduced; bit 255 is cleared when CTRL.MSBMASK = 1. -/
def Obligations.FldLoadsUnreducedLimbs : Prop :=
  ∀ (s : State) (fd : FReg) (ca : CReg) (addr : Half), (s.creg ca).toNat + addr.toNat + 32 ≤ s.params.dmemWords →
    ∃ t, exec (.fld fd ca addr) s = .next t ∧ t.pc = s.pc + 1 ∧ Frame { fregs := [fd] } s t ∧
      ∀ l, let k := s.laneValue ((s.creg ca).toNat + addr.toNat) l
        let k' := if s.msbmask then k % 2 ^ 255 else k
        SplitOf ((t.freg fd).get l) k' ∧ val ((t.freg fd).get l) = k'

/-- R79, R161, R166: FST stores the reduced value of each lane and changes no byte outside its 32 words. -/
def Obligations.FstStoresTheReducedValue : Prop :=
  ∀ (s : State) (fs : FReg) (ca : CReg) (addr : Half), s.effectiveAddress ca addr + 32 ≤ s.params.dmemWords →
    ∃ t, exec (.fst fs ca addr) s = .next t ∧ t.pc = s.pc + 1 ∧
      Frame { dmemFrom := s.effectiveAddress ca addr, dmemWords := 32 } s t ∧
      ∀ (l : Lane) (j : Nat), j < 8 → (t.wordAt .dmem (s.effectiveAddress ca addr + 4 * j + l.val)).toNat =
        val ((s.freg fs).get l) % p / 2 ^ (32 * j) % 2 ^ 32

/-- R80, R162, R163, R166: FLDL loads the 64-bit limbs as they stand in memory; FSTL stores the limbs exactly as held and
changes no byte outside its 72 words. -/
def Obligations.FldlAndFstlMoveRawLimbs : Prop :=
  ∀ (s : State) (f : FReg) (ca : CReg) (addr : Half), s.effectiveAddress ca addr + 72 ≤ s.params.dmemWords →
    (∃ t, exec (.fldl f ca addr) s = .next t ∧ t.pc = s.pc + 1 ∧ Frame { fregs := [f] } s t ∧
      ∀ (l : Lane) (i : Fin 9), (((t.freg f).get l).get i).toNat =
        (s.wordAt .dmem (s.effectiveAddress ca addr + 2 * (4 * i.val + l.val))).toNat +
          2 ^ 32 * (s.wordAt .dmem (s.effectiveAddress ca addr + 2 * (4 * i.val + l.val) + 1)).toNat) ∧
    (∃ t, exec (.fstl f ca addr) s = .next t ∧ t.pc = s.pc + 1 ∧
      Frame { dmemFrom := s.effectiveAddress ca addr, dmemWords := 72 } s t ∧
      ∀ (l : Lane) (i : Fin 9),
        (t.wordAt .dmem (s.effectiveAddress ca addr + 2 * (4 * i.val + l.val))).toNat =
          (((s.freg f).get l).get i).toNat % 2 ^ 32 ∧
        (t.wordAt .dmem (s.effectiveAddress ca addr + 2 * (4 * i.val + l.val) + 1)).toNat =
          (((s.freg f).get l).get i).toNat / 2 ^ 32)

/-- R79, R164, R165, R166: SLD loads all 256 bits, SST stores them and changes no byte outside its 32 words. -/
def Obligations.SldLoadsAndSstStoresWholeScalars : Prop :=
  ∀ (s : State) (r : RField) (ca : CReg) (addr : Half), r.toNat ≤ 3 →
    s.effectiveAddress ca addr + 32 ≤ s.params.dmemWords →
    (∃ t, exec (.sld r ca addr) s = .next t ∧ t.pc = s.pc + 1 ∧ Frame { sregs := [regOfField r] } s t ∧
      ∀ l, ((t.sreg (regOfField r)).get l).toNat = s.laneValue (s.effectiveAddress ca addr) l) ∧
    (∃ t, exec (.sst r ca addr) s = .next t ∧ t.pc = s.pc + 1 ∧
      Frame { dmemFrom := s.effectiveAddress ca addr, dmemWords := 32 } s t ∧
      ∀ (l : Lane) (j : Nat), j < 8 → (t.wordAt .dmem (s.effectiveAddress ca addr + 4 * j + l.val)).toNat =
        ((s.sreg (regOfField r)).get l).toNat / 2 ^ (32 * j) % 2 ^ 32)

/-- R167: a load followed by the store of its kind at the same address. SLD with SST and FLDL with FSTL leave DMEM
unchanged; FLD with FST writes the reduced (and, with MSBMASK, masked) value, so it leaves DMEM unchanged for values
below p. -/
def Obligations.LoadThenStoreRoundTrips : Prop :=
  ∀ (s : State) (r : RField) (f : FReg) (ca : CReg) (addr : Half),
    (r.toNat ≤ 3 → s.effectiveAddress ca addr + 32 ≤ s.params.dmemWords →
      ∃ t u, exec (.sld r ca addr) s = .next t ∧ exec (.sst r ca addr) t = .next u ∧
        ∀ a, u.byteAt .dmem a = s.byteAt .dmem a) ∧
    (s.effectiveAddress ca addr + 72 ≤ s.params.dmemWords →
      ∃ t u, exec (.fldl f ca addr) s = .next t ∧ exec (.fstl f ca addr) t = .next u ∧
        ∀ a, u.byteAt .dmem a = s.byteAt .dmem a) ∧
    (s.effectiveAddress ca addr + 32 ≤ s.params.dmemWords →
      ∃ t u, exec (.fld f ca addr) s = .next t ∧ exec (.fst f ca addr) t = .next u ∧
        (∀ l, let k := s.laneValue (s.effectiveAddress ca addr) l
          u.laneValue (s.effectiveAddress ca addr) l = (if s.msbmask then k % 2 ^ 255 else k) % p) ∧
        ((∀ l, s.laneValue (s.effectiveAddress ca addr) l < p) → ∀ a, u.byteAt .dmem a = s.byteAt .dmem a))

/-! ## Field arithmetic -/

/-- R9, R10: the canonical representation and the unreduced split: limb widths and values. -/
def Obligations.CanonicalLimbsSplitTheResidue : Prop :=
  (∀ v : Int, SplitOf (canon v) (v % (p : Int)).toNat ∧ (val (canon v) : Int) = v % (p : Int) ∧
    (∀ i : Fin 9, ((canon v).get i).toNat < 2 ^ 29) ∧ ((canon v).get 8).toNat < 2 ^ 23 ∧ Normalized (canon v)) ∧
  (∀ k : Nat, k < 2 ^ 256 → SplitOf (limbs k) k ∧ val (limbs k) = k) ∧
  (∀ x : Limbs, val x < 2 ^ 297)

/-- R180 to R185: FADD, FSUB, FMUL, FSQR and FMULC on any limbs, in any aliasing of their registers: the exact integer
result, reduced, in canonical limbs. -/
def Obligations.FieldArithmeticIsExactModP : Prop :=
  ∀ (s : State) (fd fa fb : FReg) (imm : Imm17),
    (∃ t, exec (.fadd fd fa fb) s = .next t ∧ t.pc = s.pc + 1 ∧ Frame { fregs := [fd] } s t ∧
      ∀ l, t.HoldsModP fd l ((val ((s.freg fa).get l) : Int) + val ((s.freg fb).get l))) ∧
    (∃ t, exec (.fsub fd fa fb) s = .next t ∧ t.pc = s.pc + 1 ∧ Frame { fregs := [fd] } s t ∧
      ∀ l, t.HoldsModP fd l ((val ((s.freg fa).get l) : Int) - val ((s.freg fb).get l))) ∧
    (∃ t, exec (.fmul fd fa fb) s = .next t ∧ t.pc = s.pc + 1 ∧ Frame { fregs := [fd] } s t ∧
      ∀ l, t.HoldsModP fd l ((val ((s.freg fa).get l) : Int) * val ((s.freg fb).get l))) ∧
    (∃ t, exec (.fsqr fd fa) s = .next t ∧ t.pc = s.pc + 1 ∧ Frame { fregs := [fd] } s t ∧
      ∀ l, t.HoldsModP fd l ((val ((s.freg fa).get l) : Int) ^ 2)) ∧
    (∃ t, exec (.fmulc fd fa imm) s = .next t ∧ t.pc = s.pc + 1 ∧ Frame { fregs := [fd] } s t ∧
      ∀ l, t.HoldsModP fd l ((val ((s.freg fa).get l) : Int) * imm.toNat))

/-- R180, R186, R187, R189: FNORM normalizes, FSETI sets the same constant in every lane, and FMOV copies the raw limbs
without normalizing. -/
def Obligations.FnormFsetiAndFmovWriteTheirRegister : Prop :=
  ∀ (s : State) (fd fa : FReg) (imm : Imm17),
    (∃ t, exec (.fnorm fd fa) s = .next t ∧ t.pc = s.pc + 1 ∧ Frame { fregs := [fd] } s t ∧
      ∀ l, t.HoldsModP fd l (val ((s.freg fa).get l))) ∧
    (∃ t, exec (.fseti fd imm) s = .next t ∧ t.pc = s.pc + 1 ∧ Frame { fregs := [fd] } s t ∧
      ∀ l, t.HoldsModP fd l imm.toNat ∧ val ((t.freg fd).get l) = imm.toNat) ∧
    (∃ t, exec (.fmov fd fa) s = .next t ∧ t.pc = s.pc + 1 ∧ Frame { fregs := [fd] } s t ∧
      ∀ (l : Lane) (i : Fin 9), ((t.freg fd).get l).get i = ((s.freg fa).get l).get i)

/-- R188: FINV is a^(p-2) mod p; it is the inverse of a ≢ 0, and 0 for a ≡ 0. -/
def Obligations.FinvInvertsAndMapsZeroToZero : Prop :=
  ∀ (s : State) (fd fa : FReg), ∃ t, exec (.finv fd fa) s = .next t ∧ t.pc = s.pc + 1 ∧ Frame { fregs := [fd] } s t ∧
    ∀ l, t.HoldsModP fd l ((val ((s.freg fa).get l) : Int) ^ (p - 2)) ∧
      (val ((s.freg fa).get l) % p ≠ 0 → val ((s.freg fa).get l) * val ((t.freg fd).get l) % p = 1) ∧
      (val ((s.freg fa).get l) % p = 0 → val ((t.freg fd).get l) = 0)

/-- R190: FNORM after FADD, FMUL or FSUB gives the canonical result of the operands' residues and changes nothing. -/
def Obligations.FieldResultsAreAlreadyNormalized : Prop :=
  ∀ (s : State) (fd fa fb fn : FReg),
    (∃ t u, exec (.fadd fd fa fb) s = .next t ∧ exec (.fnorm fn fd) t = .next u ∧ ∀ l,
      (u.freg fn).get l = canon ((val ((s.freg fa).get l) : Int) % p + (val ((s.freg fb).get l) : Int) % p) ∧
      (u.freg fn).get l = (t.freg fd).get l) ∧
    (∃ t u, exec (.fmul fd fa fb) s = .next t ∧ exec (.fnorm fn fd) t = .next u ∧ ∀ l,
      (u.freg fn).get l = canon (((val ((s.freg fa).get l) : Int) % p) * ((val ((s.freg fb).get l) : Int) % p)) ∧
      (u.freg fn).get l = (t.freg fd).get l) ∧
    (∃ t u, exec (.fsub fd fa fb) s = .next t ∧ exec (.fnorm fn fd) t = .next u ∧ ∀ l,
      (u.freg fn).get l = canon ((val ((s.freg fa).get l) : Int) % p - (val ((s.freg fb).get l) : Int) % p) ∧
      (u.freg fn).get l = (t.freg fd).get l)

/-- R191: FNORM twice is FNORM once, limb for limb, and it makes two registers equal exactly when they hold the same
field value. -/
def Obligations.NormalizationIsIdempotentAndDecidesEquality : Prop :=
  ∀ (s : State) (fd fe fa fb : FReg),
    (∃ t u, exec (.fnorm fd fa) s = .next t ∧ exec (.fnorm fe fd) t = .next u ∧ u.freg fe = t.freg fd) ∧
    (∃ t u, exec (.fnorm fd fa) s = .next t ∧ exec (.fnorm fe fb) s = .next u ∧ ∀ l,
      ((t.freg fd).get l = (u.freg fe).get l ↔ val ((s.freg fa).get l) % p = val ((s.freg fb).get l) % p))

/-- R192: the algebraic laws, for programs of field instructions whose temporary registers do not clobber an operand. -/
def Obligations.FieldInstructionsObeyTheAlgebraicLaws : Prop :=
  ∀ (s : State) (d a b c x y z : FReg) (k : Imm17), x ≠ a → x ≠ c → y ≠ a → y ≠ c → z ≠ a → z ≠ b → z ≠ y →
    (s.after (.fadd d a b)).freg d = (s.after (.fadd d b a)).freg d ∧
    (s.after (.fmul d a b)).freg d = (s.after (.fmul d b a)).freg d ∧
    ((s.after (.fadd x a b)).after (.fadd d x c)).freg d = ((s.after (.fadd y b c)).after (.fadd d a y)).freg d ∧
    ((s.after (.fmul x a b)).after (.fmul d x c)).freg d = ((s.after (.fmul y b c)).after (.fmul d a y)).freg d ∧
    ((s.after (.fadd x b c)).after (.fmul d a x)).freg d =
      (((s.after (.fmul y a b)).after (.fmul z a c)).after (.fadd d y z)).freg d ∧
    ((s.after (.fseti x 0)).after (.fadd d a x)).freg d = (s.after (.fnorm d a)).freg d ∧
    ((s.after (.fseti x 1)).after (.fmul d a x)).freg d = (s.after (.fnorm d a)).freg d ∧
    (s.after (.fsub d a b)).freg d =
      (((s.after (.fseti z 0)).after (.fsub x z b)).after (.fadd d a x)).freg d ∧
    (s.after (.fmulc d a k)).freg d = ((s.after (.fseti x k)).after (.fmul d a x)).freg d

/-! ## Scalars -/

/-- R228: clamping, bit by bit, and the range of its result. -/
def Obligations.ClampForcesTheNamedBits : Prop :=
  ∀ k : Scalar,
    (∀ i < 256, (clamp k).getLsbD i =
      (if i < 3 ∨ i = 255 then false else if i = 254 then true else k.getLsbD i)) ∧
    (clamp k).toNat % 8 = 0 ∧ 2 ^ 254 ≤ (clamp k).toNat ∧ (clamp k).toNat ≤ 2 ^ 255 - 8

/-- R229: the recoding: its carries, its digits' ranges, and that the digits represent the scalar. -/
def Obligations.RecodingKeepsTheValue : Prop :=
  ∀ k : Scalar,
    (∃ carry : Nat → Int, carry 0 = 0 ∧
      (∀ i : Fin 64, let e := (k.toNat / 16 ^ i.val % 16 : Nat) + carry i.val
        (i.val < 63 → carry (i.val + 1) = (e + 8) / 16 ∧ (recode k).get i = e - 16 * carry (i.val + 1)) ∧
        (i.val = 63 → (recode k).get i = e))) ∧
    (∑ i : Fin 64, (recode k).get i * 16 ^ i.val) = (k.toNat : Int) ∧
    (∀ i : Fin 64, i.val ≤ 62 → -8 ≤ (recode k).get i ∧ (recode k).get i ≤ 7) ∧
    0 ≤ (recode k).get 63 ∧ (recode k).get 63 ≤ 16

/-- R232: the encoding laws of clamped scalars. -/
def Obligations.ClampedScalarsRecodeToSmallDigits : Prop :=
  ∀ k : Scalar,
    clamp (clamp k) = clamp k ∧
    (∀ i : Fin 64, -8 ≤ (recode (clamp k)).get i ∧ (recode (clamp k)).get i ≤ 8) ∧
    (∀ i : Fin 64, i.val ≤ 62 → (recode (clamp k)).get i ≤ 7) ∧
    4 ≤ (recode (clamp k)).get 63 ∧
    ((recode (clamp k)).get 0 = 0 ∨ (recode (clamp k)).get 0 = -8)

/-- R230, R231: CLAMP and RECODE in every lane, in place too. -/
def Obligations.ClampAndRecodeWriteTheirRegister : Prop :=
  ∀ (s : State) (rd ra : RField), rd.toNat ≤ 3 → ra.toNat ≤ 3 →
    (∃ t, exec (.clamp rd ra) s = .next t ∧ t.pc = s.pc + 1 ∧ Frame { sregs := [regOfField rd] } s t ∧
      ∀ l, (t.sreg (regOfField rd)).get l = clamp ((s.sreg (regOfField ra)).get l)) ∧
    (∃ t, exec (.recode rd ra) s = .next t ∧ t.pc = s.pc + 1 ∧ Frame { dregs := [regOfField rd] } s t ∧
      ∀ l, (t.dreg (regOfField rd)).get l = recode ((s.sreg (regOfField ra)).get l))

/-! ## Conditional swap -/

/-- R252, R254, R256: CSWAP exchanges the raw limbs of the two groups in the lanes where the scalar bit differs from SWP,
and keeps the bit; CSWAPF exchanges on SWP and clears it. -/
def Obligations.CswapAndCswapfExchangeTheirGroups : Prop :=
  ∀ (s : State) (fa fb : FReg) (sa : SReg) (cc : CReg) (n : BitVec 2),
    ((Instr.cswap fa fb sa cc n).wellFormed = true → (s.creg cc).toNat ≤ 255 →
      ∃ t, exec (.cswap fa fb sa cc n) s = .next t ∧ t.pc = s.pc + 1 ∧
        Frame { fregs := groupList fa (n.toNat + 1) ++ groupList fb (n.toNat + 1), swp := true } s t ∧
        ∀ l, let b := ((s.sreg sa).get l).getLsbD (s.creg cc).toNat
          t.swp.get l = b ∧ ∀ c < n.toNat + 1,
            (t.freg (groupReg fa c)).get l =
              (if s.swp.get l ^^ b then (s.freg (groupReg fb c)).get l else (s.freg (groupReg fa c)).get l) ∧
            (t.freg (groupReg fb c)).get l =
              (if s.swp.get l ^^ b then (s.freg (groupReg fa c)).get l else (s.freg (groupReg fb c)).get l)) ∧
    ((Instr.cswapf fa fb n).wellFormed = true →
      ∃ t, exec (.cswapf fa fb n) s = .next t ∧ t.pc = s.pc + 1 ∧
        Frame { fregs := groupList fa (n.toNat + 1) ++ groupList fb (n.toNat + 1), swp := true } s t ∧
        ∀ l, t.swp.get l = false ∧ ∀ c < n.toNat + 1,
          (t.freg (groupReg fa c)).get l =
            (if s.swp.get l then (s.freg (groupReg fb c)).get l else (s.freg (groupReg fa c)).get l) ∧
          (t.freg (groupReg fb c)).get l =
            (if s.swp.get l then (s.freg (groupReg fa c)).get l else (s.freg (groupReg fb c)).get l))

/-! ## Table lookup -/

/-- R211, R213, R233: TBLSEL. With the digit v of index C[CC] in the lane, the entry |v| - 1 of window C[CC] / 2 when
1 ≤ |v| ≤ 8 and the neutral otherwise, negated for v < 0, each coordinate canonical. -/
def Obligations.TblselWritesTheSelectedTriple : Prop :=
  ∀ (s : State) (fd : FReg) (dd : DReg) (cc : CReg), fd.toNat ≤ 29 → ∀ h : (s.creg cc).toNat ≤ 63,
    ∃ t, exec (.tblsel fd dd cc) s = .next t ∧ t.pc = s.pc + 1 ∧ Frame { fregs := groupList fd 3 } s t ∧
      ∀ l, let v := ((s.dreg dd).get l).get ⟨(s.creg cc).toNat, by omega⟩
        let e : Duif := if hv : 1 ≤ v.natAbs ∧ v.natAbs ≤ 8 then
          (s.params.table.get ⟨(s.creg cc).toNat / 2, by omega⟩).get ⟨v.natAbs - 1, by omega⟩
          else ⟨(p + 1) / 2, (p + 1) / 2, 0⟩
        t.HoldsModP fd l (if v < 0 then e.ym else e.yp : Nat) ∧
        t.HoldsModP (groupReg fd 1) l (if v < 0 then e.yp else e.ym : Nat) ∧
        t.HoldsModP (groupReg fd 2) l (if v < 0 then -(e.t2 : Int) else e.t2)

/-- R210, R213, R214: every entry of the default table is the Duif form of its multiple of the base point, which is on the
curve; the neutral is the Duif form of (0, 1), and negating a point's Duif form gives that of (-x, y). -/
def Obligations.TheDefaultTableHoldsTheMultiplesOfTheBasePoint : Prop :=
  (∀ (w : Fin 32) (j : Fin 8), tableRead State.reset.params.table w j = (tablePoint w.val j.val).duif ∧
    (tablePoint w.val j.val).OnCurve) ∧
  (⟨0, 1⟩ : AffinePoint).duif = duifNeutral ∧
  (∀ P : AffinePoint, (⟨gfNeg P.x, P.y⟩ : AffinePoint).duif = duifNeg P.duif)

/-! ## Edwards points -/

/-- R222: EDINIT writes the identity (0, 1, 1, 0, 1). -/
def Obligations.EdinitWritesTheIdentity : Prop :=
  ∀ (s : State) (fd : FReg), fd.toNat ≤ 27 →
    ∃ t, exec (.edinit fd) s = .next t ∧ t.pc = s.pc + 1 ∧ Frame { fregs := groupList fd 5 } s t ∧
      ∀ l, t.HoldsModP fd l 0 ∧ t.HoldsModP (groupReg fd 1) l 1 ∧ t.HoldsModP (groupReg fd 2) l 1 ∧
        t.HoldsModP (groupReg fd 3) l 0 ∧ t.HoldsModP (groupReg fd 4) l 1

/-- R223, R224: EDADD, as integer formulas in the values held before it, in any overlap of its groups. -/
def Obligations.EdaddAddsATablePoint : Prop :=
  ∀ (s : State) (fd fa fb : FReg), fd.toNat ≤ 27 → fa.toNat ≤ 27 → fb.toNat ≤ 29 →
    ∃ t, exec (.edadd fd fa fb) s = .next t ∧ t.pc = s.pc + 1 ∧ Frame { fregs := groupList fd 5 } s t ∧
      ∀ l, let X := s.intAt fa l
        let Y := s.intAt (groupReg fa 1) l
        let Z := s.intAt (groupReg fa 2) l
        let E := s.intAt (groupReg fa 3) l
        let H := s.intAt (groupReg fa 4) l
        let A := (Y - X) * s.intAt (groupReg fb 1) l
        let B := (Y + X) * s.intAt fb l
        let C := E * H * s.intAt (groupReg fb 2) l
        t.HoldsModP fd l ((B - A) * (Z - C)) ∧ t.HoldsModP (groupReg fd 1) l ((Z + C) * (B + A)) ∧
        t.HoldsModP (groupReg fd 2) l ((Z - C) * (Z + C)) ∧ t.HoldsModP (groupReg fd 3) l (B - A) ∧
        t.HoldsModP (groupReg fd 4) l (B + A)

/-- R225, R226: EDDBL, as integer formulas in X, Y and Z; E and H are not read. -/
def Obligations.EddblDoublesAPoint : Prop :=
  ∀ (s : State) (fd fa : FReg), fd.toNat ≤ 27 → fa.toNat ≤ 27 →
    ∃ t, exec (.eddbl fd fa) s = .next t ∧ t.pc = s.pc + 1 ∧ Frame { fregs := groupList fd 5 } s t ∧
      ∀ l, let X := s.intAt fa l
        let Y := s.intAt (groupReg fa 1) l
        let Z := s.intAt (groupReg fa 2) l
        let E := (X + Y) ^ 2 - X ^ 2 - Y ^ 2
        let G := -X ^ 2 + Y ^ 2
        let F := G - 2 * Z ^ 2
        let H := -X ^ 2 - Y ^ 2
        t.HoldsModP fd l (E * F) ∧ t.HoldsModP (groupReg fd 1) l (G * H) ∧ t.HoldsModP (groupReg fd 2) l (F * G) ∧
        t.HoldsModP (groupReg fd 3) l E ∧ t.HoldsModP (groupReg fd 4) l H

/-- R220, R221, R227: the point-arithmetic laws, "equal in affine terms" with R221's Z1, Z2 ≢ 0. Both functions give
consistent coordinates. For points of the curve with Z ≢ 0 both are complete: Z of the result is not 0, and the result is
the affine sum of the group law. (a) Addition is commutative, exactly. (b) Doubling agrees with adding the point to itself,
for a point on the curve in any consistent extended form. (c) The identity is neutral on both sides. -/
def Obligations.EdwardsAdditionAndDoublingObeyTheGroupLaws : Prop :=
  (∀ (P : ExtPoint) (Q : Duif), (edAdd P Q).Consistent ∧ (edDbl P).Consistent) ∧
  (∀ (P : ExtPoint) (A B : AffinePoint), A.OnCurve → B.OnCurve → P.Holds A →
    (edAdd P B.duif).Holds (A.add B) ∧ (edDbl P).Holds (A.add A)) ∧
  (∀ P Q : AffinePoint, edAdd P.ext Q.duif = edAdd Q.ext P.duif ∧
    (P.OnCurve → Q.OnCurve → (edAdd P.ext Q.duif).SameAffine (edAdd Q.ext P.duif))) ∧
  (∀ (P : ExtPoint) (Q : AffinePoint), Q.OnCurve → P.Holds Q → (edDbl P).SameAffine (edAdd P Q.duif)) ∧
  (∀ (P : ExtPoint) (Q : AffinePoint), Q.OnCurve → P.Consistent →
    (P.X : Int) % p = (Q.x * P.Z : Int) % p → (P.Y : Int) % p = (Q.y * P.Z : Int) % p →
    (edDbl P).CrossEqual (edAdd P Q.duif)) ∧
  (∀ P : ExtPoint, (edAdd P duifNeutral).CrossEqual P ∧ (P.Z % p ≠ 0 → (edAdd P duifNeutral).SameAffine P)) ∧
  (∀ Q : AffinePoint, Q.x < p → Q.y < p → edAdd identityPoint Q.duif = Q.ext)

/-! ## Fixed-base comb -/

/-- R233, R234: the comb is its two passes with four doublings between them, on the digits of the clamped scalar, and Sel
is the entry its digit names. -/
def Obligations.TheCombIsItsTwoPasses : Prop :=
  (∀ (T : BaseTable) (k : Scalar), ∃ P : Nat → ExtPoint, P 0 = identityPoint ∧
    (∀ w : Fin 32, P (w.val + 1) = edAdd (P w.val) (sel T w ((recode (clamp k)).get ⟨2 * w.val + 1, by omega⟩))) ∧
    (∀ j < 4, P (33 + j) = edDbl (P (32 + j))) ∧
    (∀ w : Fin 32, P (37 + w.val) = edAdd (P (36 + w.val)) (sel T w ((recode (clamp k)).get ⟨2 * w.val, by omega⟩))) ∧
    comb T k = P 68) ∧
  (∀ (T : BaseTable) (w : Fin 32) (v : Int),
    (v = 0 ∨ 8 < v.natAbs → sel T w v = (if v < 0 then duifNeg duifNeutral else duifNeutral)) ∧
    (∀ j : Fin 8, (v = j.val + 1 → sel T w v = tableRead T w j) ∧
      (v = -(j.val + 1 : Int) → sel T w v = duifNeg (tableRead T w j))))

/-- R235, R260, R261, R270, R271: EDFBMUL writes (Y, Z) of the comb, MONFB the Montgomery pair (Z + Y, Z - Y), KEYGEN its
quotient (Z + Y) · (Z - Y)^(p-2); KEYGEN of the clamped scalar is KEYGEN of the scalar. -/
def Obligations.EdfbmulMonfbAndKeygenWriteTheCombsPoint : Prop :=
  ∀ (s : State) (fd : FReg) (sb : RField), sb.toNat ≤ 3 →
    (fd.toNat ≤ 30 → ∃ t, exec (.edfbmul fd sb) s = .next t ∧ t.pc = s.pc + 1 ∧ Frame { fregs := groupList fd 2 } s t ∧
      ∀ l, let P := comb s.params.table ((s.sreg (regOfField sb)).get l)
        t.HoldsModP fd l P.Y ∧ t.HoldsModP (groupReg fd 1) l P.Z) ∧
    (fd.toNat ≤ 30 → ∃ t, exec (.monfb fd sb) s = .next t ∧ t.pc = s.pc + 1 ∧ Frame { fregs := groupList fd 2 } s t ∧
      ∀ l, let P := comb s.params.table ((s.sreg (regOfField sb)).get l)
        t.HoldsModP fd l ((P.Z : Int) + P.Y) ∧ t.HoldsModP (groupReg fd 1) l ((P.Z : Int) - P.Y)) ∧
    (∃ t, exec (.keygen fd sb) s = .next t ∧ t.pc = s.pc + 1 ∧ Frame { fregs := [fd] } s t ∧
      ∀ l, let P := comb s.params.table ((s.sreg (regOfField sb)).get l)
        t.HoldsModP fd l (((P.Z : Int) + P.Y) * ((P.Z : Int) - P.Y) ^ (p - 2))) ∧
    ((s.after (.clamp sb sb)).after (.keygen fd sb)).freg fd = (s.after (.keygen fd sb)).freg fd

/-- R233, R234, R237: TBLSEL then EDADD in place is one step of a comb pass, in every lane. -/
def Obligations.TblselThenEdaddIsOneCombStep : Prop :=
  ∀ (s : State) (fa fd : FReg) (dd : DReg) (cc : CReg), fa.toNat ≤ 27 → fd.toNat ≤ 29 →
    (∀ r ∈ groupList fd 3, r ∉ groupList fa 5) → ∀ h : (s.creg cc).toNat ≤ 63,
    ∃ t u, exec (.tblsel fd dd cc) s = .next t ∧ exec (.edadd fa fa fd) t = .next u ∧
      ∀ l, u.extAt fa l = edAdd (s.extAt fa l)
        (sel s.params.table ⟨(s.creg cc).toNat / 2, by omega⟩ (((s.dreg dd).get l).get ⟨(s.creg cc).toNat, by omega⟩))

/-! ## Montgomery ladder -/

/-- R250, R251: LADSTEP, as integer formulas in the values held before it; the x1 register may lie in the group. -/
def Obligations.LadstepStepsTheLadder : Prop :=
  ∀ (s : State) (fd fa : FReg), fd.toNat ≤ 28 →
    ∃ t, exec (.ladstep fd fa) s = .next t ∧ t.pc = s.pc + 1 ∧ Frame { fregs := groupList fd 4 } s t ∧
      ∀ l, let x1 := s.intAt fa l
        let A := s.intAt fd l + s.intAt (groupReg fd 1) l
        let B := s.intAt fd l - s.intAt (groupReg fd 1) l
        let C := s.intAt (groupReg fd 2) l + s.intAt (groupReg fd 3) l
        let D := s.intAt (groupReg fd 2) l - s.intAt (groupReg fd 3) l
        let E := A ^ 2 - B ^ 2
        t.HoldsModP fd l (A ^ 2 * B ^ 2) ∧ t.HoldsModP (groupReg fd 1) l (E * (A ^ 2 + 121665 * E)) ∧
        t.HoldsModP (groupReg fd 2) l ((D * A + C * B) ^ 2) ∧
        t.HoldsModP (groupReg fd 3) l (x1 * (D * A - C * B) ^ 2)

/-- R257: the ladder runs 255 steps on the bits 254 to 0 of the clamped scalar, with its internal swap bit, and swaps once
more at the end. -/
def Obligations.TheLadderRunsOverTheClampedBits : Prop :=
  ∀ (u : Nat) (k : Scalar), ∃ (q : Nat → Ladder) (swap : Nat → Bool),
    q 0 = ⟨1, 0, u % p, 1⟩ ∧ swap 0 = false ∧
    (∀ n < 255, let b := (clamp k).getLsbD (254 - n)
      swap (n + 1) = b ∧
      q (n + 1) = ladStep (u % p)
        (if swap n ^^ b then ⟨(q n).x3, (q n).z3, (q n).x2, (q n).z2⟩ else q n)) ∧
    (ladder u k).x2 = (if swap 255 then (q 255).x3 else (q 255).x2) ∧
    (ladder u k).z2 = (if swap 255 then (q 255).z3 else (q 255).z2)

/-- R258, R271, R272: MONVB writes the ladder's pair, SHSEC its quotient X · Z^(p-2); no value of the peer stops them. -/
def Obligations.MonvbWritesTheLaddersPairAndShsecItsQuotient : Prop :=
  ∀ (s : State) (fd fa : FReg) (sb : RField), sb.toNat ≤ 3 →
    (fd.toNat ≤ 30 → ∃ t, exec (.monvb fd fa sb) s = .next t ∧ t.pc = s.pc + 1 ∧
      Frame { fregs := groupList fd 2 } s t ∧
      ∀ l, let q := ladder (val ((s.freg fa).get l)) ((s.sreg (regOfField sb)).get l)
        t.HoldsModP fd l q.x2 ∧ t.HoldsModP (groupReg fd 1) l q.z2) ∧
    (∃ t, exec (.shsec fd fa sb) s = .next t ∧ t.pc = s.pc + 1 ∧ Frame { fregs := [fd] } s t ∧
      ∀ l, let q := ladder (val ((s.freg fa).get l)) ((s.sreg (regOfField sb)).get l)
        t.HoldsModP fd l ((q.x2 : Int) * (q.z2 : Int) ^ (p - 2)))

/-- R257, R263: CSWAP on a ladder group then LADSTEP is one iteration of the ladder, in every lane. -/
def Obligations.CswapThenLadstepIsOneLadderIteration : Prop :=
  ∀ (s : State) (fd fa : FReg) (sa : SReg) (cc : CReg), fd.toNat ≤ 28 → fa ∉ groupList fd 4 →
    (s.creg cc).toNat ≤ 255 →
    ∃ t u, exec (.cswap fd (groupReg fd 2) sa cc 1) s = .next t ∧ exec (.ladstep fd fa) t = .next u ∧
      ∀ l, let b := ((s.sreg sa).get l).getLsbD (s.creg cc).toNat
        u.swp.get l = b ∧
        u.ladderAt fd l = ladStep (s.fieldAt fa l) (ladSwap (s.swp.get l ^^ b) (s.ladderAt fd l))

/-- R258, R272: each of the three peer values the rules name, u ≡ 0, u ≡ 1 and u ≡ p - 1, gives the shared secret 0 for
every scalar, and MONVB of u ≡ 0 gives (0, 0). The two values of order 8 are not stated. -/
def Obligations.SmallOrderPeersGiveZero : Prop :=
  ∀ (s : State) (fd fa : FReg) (sb : RField) (l : Lane), sb.toNat ≤ 3 →
    (val ((s.freg fa).get l) % p = 0 ∨ val ((s.freg fa).get l) % p = 1 ∨ val ((s.freg fa).get l) % p = p - 1 →
      ∃ t, exec (.shsec fd fa sb) s = .next t ∧ (t.freg fd).get l = canon 0) ∧
    (fd.toNat ≤ 30 → val ((s.freg fa).get l) % p = 0 →
      ∃ t, exec (.monvb fd fa sb) s = .next t ∧ (t.freg fd).get l = canon 0 ∧ (t.freg (groupReg fd 1)).get l = canon 0)

/-! ## Host, interrupt and reset -/

/-- R41: a host write of CTRL, and what CTRL reads afterwards. IE is updated; MSBMASK only while idle; then START starts a
run when idle and sets HBERR when busy; ABORT sets the request when busy, does nothing when idle, and is ignored beside a
START that is taken. That START and ABORT together while busy do both is the model's reading (log entry 12). Nothing else
changes. -/
def Obligations.AWriteOfCtrlStartsAbortsAndConfigures : Prop :=
  ∀ (s : State) (data : Word), ∃ t, s.hostWrite .word 0x0008 data = t ∧
    t.ie = data.getLsbD 1 ∧ t.msbmask = (if s.busy then s.msbmask else data.getLsbD 2) ∧
    (s.busy = true → t.hberr = (s.hberr || data.getLsbD 0) ∧ t.abortReq = (s.abortReq || data.getLsbD 3) ∧
      SameControl { s with ie := t.ie, hberr := t.hberr, abortReq := t.abortReq } t ∧ t.pc = s.pc) ∧
    (s.busy = false → data.getLsbD 0 = true →
      SameControl { s with ie := t.ie, msbmask := t.msbmask, done := false, fault := false, cause := .none,
                           faultPc := 0, faultInsn := 0, abortReq := false, busy := true } t ∧ t.pc = s.startPc) ∧
    (s.busy = false → data.getLsbD 0 = false → SameControl { s with ie := t.ie, msbmask := t.msbmask } t ∧ t.pc = s.pc) ∧
    SameOutside {} s t ∧ t.imem = s.imem ∧ t.dmem = s.dmem ∧
    ∃ w, t.hostRead .word 0x0008 = (w, t) ∧ ∀ i < 32,
      w.getLsbD i = (if i = 1 then t.ie else if i = 2 then t.msbmask else false)

/-- R323: what a START taken by the idle engine does, with everything it keeps. -/
def Obligations.StartSetsThePcAndClearsTheLastRun : Prop :=
  ∀ s : State, s.startRun.pc = s.startPc ∧ s.startRun.done = false ∧ s.startRun.fault = false ∧
    s.startRun.cause = .none ∧ s.startRun.faultPc = 0 ∧ s.startRun.faultInsn = 0 ∧ s.startRun.abortReq = false ∧
    s.startRun.busy = true ∧ s.startRun.hberr = s.hberr ∧ s.startRun.ie = s.ie ∧ s.startRun.msbmask = s.msbmask ∧
    SameOutside {} s s.startRun ∧ s.startRun.imem = s.imem ∧ s.startRun.dmem = s.dmem ∧
    (s.busy = false → ∀ data : Word, data.getLsbD 0 = true → data.getLsbD 1 = s.ie → data.getLsbD 2 = s.msbmask →
      s.hostWrite .word 0x0008 data = s.startRun) ∧
    (s.busy = true → ∀ data : Word, data.getLsbD 0 = true → data.getLsbD 1 = s.ie → data.getLsbD 3 = false →
      s.hostWrite .word 0x0008 data = { s with hberr := true })

/-- R38 to R48: what a host read of each register returns; reading changes nothing. -/
def Obligations.RegisterReadsReturnTheirFields : Prop :=
  ∀ s : State,
    s.hostRead .word 0x0000 = (0x45433235, s) ∧
    s.hostRead .word 0x0004 = (1, s) ∧
    (∃ w, s.hostRead .word 0x0008 = (w, s) ∧ ∀ i < 32,
      w.getLsbD i = (if i = 1 then s.ie else if i = 2 then s.msbmask else false)) ∧
    (∃ w, s.hostRead .word 0x000C = (w, s) ∧ ∀ i < 32, w.getLsbD i =
      (if i = 0 then s.busy else if i = 1 then s.done else if i = 2 then s.fault else if i = 3 then s.hberr else false)) ∧
    (∃ w, s.hostRead .word 0x0010 = (w, s) ∧ w.toNat = s.startPc.toNat) ∧
    (∃ w, s.hostRead .word 0x0014 = (w, s) ∧ w.toNat = s.pc.toNat) ∧
    (∃ w, s.hostRead .word 0x0018 = (w, s) ∧ w.toNat = causeCode s.cause ∧ w.toNat ≤ 6) ∧
    (∃ w, s.hostRead .word 0x001C = (w, s) ∧ w.toNat = s.faultPc.toNat) ∧
    s.hostRead .word 0x0020 = (s.faultInsn, s) ∧
    (s.params.Legal → ∃ w, s.hostRead .word 0x0024 = (w, s) ∧
      w.toNat % 32 = s.params.imemBits ∧ w.toNat / 256 = s.params.dmemBits ∧ w.toNat / 32 % 8 = 0)

/-- R38, R42, R43: host writes of the other registers. STATUS bits 1, 2 and 3 are cleared by writing 1; START_PC takes the
low half while idle and sets HBERR while busy; a write of a read-only register changes nothing at all. -/
def Obligations.RegisterWritesClearStatusAndSetStartPc : Prop :=
  ∀ (s : State) (data : Word),
    s.hostWrite .word 0x000C data =
      { s with done := s.done && !data.getLsbD 1, fault := s.fault && !data.getLsbD 2,
               hberr := s.hberr && !data.getLsbD 3 } ∧
    (s.busy = false → s.hostWrite .word 0x0010 data = { s with startPc := BitVec.ofNat 16 (data.toNat % 2 ^ 16) }) ∧
    (s.busy = true → s.hostWrite .word 0x0010 data = { s with hberr := true }) ∧
    (∀ o : Half, o = 0x0000 ∨ o = 0x0004 ∨ o = 0x0014 ∨ o = 0x0018 ∨ o = 0x001C ∨ o = 0x0020 ∨ o = 0x0024 →
      s.hostWrite .word o data = s)

/-- R70, R71, R72, R292: a host access that is narrow, misaligned or unmapped, or that reaches a memory while the engine is
busy, reads 0 or is dropped, sets HBERR and has no other effect. -/
def Obligations.HostAccessErrorsOnlySetHberr : Prop :=
  ∀ (s : State) (width : HostWidth) (o : Half) (data : Word), s.params.Legal →
    (width ≠ .word ∨ o.toNat % 4 ≠ 0 ∨ (0x28 ≤ o.toNat ∧ o.toNat < 0x4000) ∨
      (0x4000 + 4 * s.params.imemWords ≤ o.toNat ∧ o.toNat < 0x8000) ∨ 0x8000 + 4 * s.params.dmemWords ≤ o.toNat ∨
      (s.busy = true ∧ 0x4000 ≤ o.toNat)) →
    s.hostRead width o = (0, { s with hberr := true }) ∧ s.hostWrite width o data = { s with hberr := true }

/-- R70, R73, R74, R327: while the engine is idle a host write of a memory word stores exactly that word, a read returns
it, and a read changes nothing. -/
def Obligations.HostWritesAndReadsMemoryWhileIdle : Prop :=
  ∀ (s : State) (sp : Space) (i : Nat) (o : Half) (data : Word), s.params.Legal → s.busy = false →
    (sp = .imem ∧ i < s.params.imemWords ∧ o.toNat = 0x4000 + 4 * i ∨
      sp = .dmem ∧ i < s.params.dmemWords ∧ o.toNat = 0x8000 + 4 * i) →
    s.hostRead .word o = (s.wordAt sp i, s) ∧
    ∃ t, s.hostWrite .word o data = t ∧ t.wordAt sp i = data ∧ t.hostRead .word o = (data, t) ∧
      (∀ sp' i', (sp', i') ≠ (sp, i) → t.wordAt sp' i' = s.wordAt sp' i') ∧
      SameControl s t ∧ t.pc = s.pc ∧ (∀ r, t.freg r = s.freg r) ∧ (∀ r, t.sreg r = s.sreg r) ∧
      (∀ r, t.dreg r = s.dreg r) ∧ (∀ r, t.creg r = s.creg r) ∧ t.swp = s.swp

/-- R295: the IRQ output, what raises it and what drops it. -/
def Obligations.IrqIsTheEnabledEndOfARun : Prop :=
  (∀ s : State, (s.irq = true ↔ s.ie = true ∧ (s.done = true ∨ s.fault = true)) ∧
    (∀ h, State.irq { s with hberr := h } = s.irq) ∧
    (s.busy = false → s.startRun.irq = false) ∧
    (∀ data : Word, (s.done = true → data.getLsbD 1 = true) → (s.fault = true → data.getLsbD 2 = true) →
      (s.hostWrite .word 0x000C data).irq = false) ∧
    (∀ data : Word, data.getLsbD 1 = false → (s.hostWrite .word 0x0008 data).irq = false)) ∧
  State.reset.irq = false

/-- R52, R320, R321, R51, R78: a reset turn puts every register to its reset value, whatever the engine was doing; the
parameters stay. That no memory word counts as written afterwards is the model's reading of R78 (log entry 3). -/
def Obligations.ResetPutsEveryRegisterToItsResetValue : Prop :=
  ∀ s : State, ∃ t, turnStep .reset s = .next t ∧
    (∀ r l i, ((t.freg r).get l).get i = 0) ∧ (∀ r l, (t.sreg r).get l = 0) ∧ (∀ r l i, ((t.dreg r).get l).get i = 0) ∧
    (∀ r, t.creg r = 0) ∧ (∀ l, t.swp.get l = false) ∧ t.pc = 0 ∧ t.abortReq = false ∧
    t.hostRead .word 0x0000 = (0x45433235, t) ∧ t.hostRead .word 0x0004 = (1, t) ∧
    (∀ o : Half, o = 0x0008 ∨ o = 0x000C ∨ o = 0x0010 ∨ o = 0x0014 ∨ o = 0x0018 ∨ o = 0x001C ∨ o = 0x0020 →
      t.hostRead .word o = (0, t)) ∧
    t.irq = false ∧ t.params = s.params ∧ t.imem = [] ∧ t.dmem = []

/-! ## Whole machine -/

/-- The invariant (R33, R42, R45 to R47, R49, R325; log entries 14 and 16) holds at reset. -/
def Obligations.TheInvariantHoldsAtReset : Prop :=
  Inv State.reset

/-- The invariant is kept by every step of the engine, the host and the reset input: the memories keep their canonical
form and stay in range, the digits stay in [-8, 16], DONE and FAULT exclude each other, and CAUSE, FAULT_PC, FAULT_INSN,
ABORTREQ and BUSY fit together (R33, R42, R45 to R47, R49, R325). The form of the memories and the digits' type, whose
range is stated, are the model's (log entries 14 and 16). -/
def Obligations.EveryStepKeepsTheInvariant : Prop :=
  ∀ s t : State, Inv s → step s = .next t → Inv t

/-- R141, R283, R284, R291, R325: from a state that meets the invariant, an engine step that ends the run ends it in
exactly one of the two ways; otherwise the run goes on. -/
def Obligations.ARunEndsDoneOrFaulted : Prop :=
  ∀ s : State, Inv s → s.busy = true → ∃ t, engineStep s = .next t ∧
    (t.busy = true ∧ t.done = false ∧ t.fault = false ∧ t.abortReq = false ∨
     t.busy = false ∧ t.done = true ∧ t.fault = false ∧ t.cause = .none ∧ t.abortReq = false ∧
       decode s.fetched = .ok .halt ∧ t.pc.toNat = s.pc.toNat + 1 ∧ t.pc.toNat ≤ s.params.imemWords ∨
     t.busy = false ∧ t.done = false ∧ t.fault = true ∧ t.cause ≠ .none ∧ t.pc = t.faultPc ∧ t.pc = s.pc ∧
       t.abortReq = false)

/-- R334 (with R194, R212, R237, R263, R276): two states that differ only in F, S, D, SWP, DMEM and what the host last
read show the same PC, the same DMEM addresses and the same table entries in their next step, and step to two states that
again differ only there. So no PC, address or table access of a run depends on a data value. What a step shows are the
model's trace functions (log entry 22, a design choice that is unsafe for this claim if a trace left out an access); its
duration is not modelled (log entry 15). -/
def Obligations.ControlAndAddressesDoNotDependOnData : Prop :=
  ∀ s s' : State, PublicEq s s' → s'.observe = s.observe ∧
    ∃ t t', step s = .next t ∧ step s' = .next t' ∧ PublicEq t t'

/-- R4, R195: no instruction's result in a lane depends on another lane. Two states that agree on what is shared and on
lane `l`, memory included, agree on lane `l` after the instruction, and after a store on the words of lane `l`. -/
def Obligations.NoLaneDependsOnAnotherLane : Prop :=
  ∀ (i : Instr) (l : Lane) (s s' : State), PublicEq s s' → LaneEq l s s' →
    (∀ a, s'.byteAt .dmem a = s.byteAt .dmem a) →
    ∃ t t', exec i s = .next t ∧ exec i s' = .next t' ∧ LaneEq l t t' ∧
      (∀ r ca addr, i = .fst r ca addr ∨ i = .sst r ca addr → ∀ j < 8,
        t'.wordAt .dmem (s.effectiveAddress ca addr + 4 * j + l.val) =
          t.wordAt .dmem (s.effectiveAddress ca addr + 4 * j + l.val)) ∧
      (∀ r ca addr, i = .fstl r ca addr → ∀ k < 9, ∀ half < 2,
        t'.wordAt .dmem (s.effectiveAddress ca addr + 2 * (4 * k + l.val) + half) =
          t.wordAt .dmem (s.effectiveAddress ca addr + 2 * (4 * k + l.val) + half))

/-- R30, R320, R327, and the model's turns (log entries 1, 4 and 18): a step at a listed host or reset turn removes the turn
and is the host's read, the host's write, or the reset event; a read leaves the word it returns on the read port. -/
def Obligations.AStepServesTheNextTurn : Prop :=
  ∀ (s : State) (rest : List Turn), let u : State := { s with turns := rest }
    (∀ width o, s.turns = .hostRead width o :: rest →
      ∃ t, step s = .next t ∧ t.hostRdata = (u.hostRead width o).1 ∧
        { t with hostRdata := s.hostRdata } = (u.hostRead width o).2 ∧ t.turns = rest) ∧
    (∀ width o data, s.turns = .hostWrite width o data :: rest →
      step s = .next (u.hostWrite width o data) ∧ (u.hostWrite width o data).turns = rest) ∧
    (s.turns = .reset :: rest →
      step s = .next u.resetEvent ∧ turnStep .reset u = .next u.resetEvent ∧ u.resetEvent.turns = rest ∧
        u.resetEvent.hostRdata = s.hostRdata)
end

