-- ==== Sys2Proof/Laws/State.lean ====
section
/-! SUPPORT. One lemma per field of State per update, each true by unfolding the update once, so that no later proof
unfolds a record update. -/

namespace Sys2Proof.Machine

section

variable (s : State)

/-! ## setF -/

@[simp] theorem State.setF_params (r : FReg) (x : Lanes Limbs) : (s.setF r x).params = s.params := rfl
@[simp] theorem State.setF_fregs (r : FReg) (x : Lanes Limbs) : (s.setF r x).fregs = s.fregs.set r.toFin x r.toFin.isLt := rfl
@[simp] theorem State.setF_sregs (r : FReg) (x : Lanes Limbs) : (s.setF r x).sregs = s.sregs := rfl
@[simp] theorem State.setF_dregs (r : FReg) (x : Lanes Limbs) : (s.setF r x).dregs = s.dregs := rfl
@[simp] theorem State.setF_cregs (r : FReg) (x : Lanes Limbs) : (s.setF r x).cregs = s.cregs := rfl
@[simp] theorem State.setF_swp (r : FReg) (x : Lanes Limbs) : (s.setF r x).swp = s.swp := rfl
@[simp] theorem State.setF_pc (r : FReg) (x : Lanes Limbs) : (s.setF r x).pc = s.pc := rfl
@[simp] theorem State.setF_ie (r : FReg) (x : Lanes Limbs) : (s.setF r x).ie = s.ie := rfl
@[simp] theorem State.setF_msbmask (r : FReg) (x : Lanes Limbs) : (s.setF r x).msbmask = s.msbmask := rfl
@[simp] theorem State.setF_busy (r : FReg) (x : Lanes Limbs) : (s.setF r x).busy = s.busy := rfl
@[simp] theorem State.setF_done (r : FReg) (x : Lanes Limbs) : (s.setF r x).done = s.done := rfl
@[simp] theorem State.setF_fault (r : FReg) (x : Lanes Limbs) : (s.setF r x).fault = s.fault := rfl
@[simp] theorem State.setF_hberr (r : FReg) (x : Lanes Limbs) : (s.setF r x).hberr = s.hberr := rfl
@[simp] theorem State.setF_startPc (r : FReg) (x : Lanes Limbs) : (s.setF r x).startPc = s.startPc := rfl
@[simp] theorem State.setF_cause (r : FReg) (x : Lanes Limbs) : (s.setF r x).cause = s.cause := rfl
@[simp] theorem State.setF_faultPc (r : FReg) (x : Lanes Limbs) : (s.setF r x).faultPc = s.faultPc := rfl
@[simp] theorem State.setF_faultInsn (r : FReg) (x : Lanes Limbs) : (s.setF r x).faultInsn = s.faultInsn := rfl
@[simp] theorem State.setF_abortReq (r : FReg) (x : Lanes Limbs) : (s.setF r x).abortReq = s.abortReq := rfl
@[simp] theorem State.setF_imem (r : FReg) (x : Lanes Limbs) : (s.setF r x).imem = s.imem := rfl
@[simp] theorem State.setF_dmem (r : FReg) (x : Lanes Limbs) : (s.setF r x).dmem = s.dmem := rfl
@[simp] theorem State.setF_memEpoch (r : FReg) (x : Lanes Limbs) : (s.setF r x).memEpoch = s.memEpoch := rfl
@[simp] theorem State.setF_hostRdata (r : FReg) (x : Lanes Limbs) : (s.setF r x).hostRdata = s.hostRdata := rfl
@[simp] theorem State.setF_turns (r : FReg) (x : Lanes Limbs) : (s.setF r x).turns = s.turns := rfl

/-! ## setS -/

@[simp] theorem State.setS_params (r : SReg) (x : Lanes Scalar) : (s.setS r x).params = s.params := rfl
@[simp] theorem State.setS_fregs (r : SReg) (x : Lanes Scalar) : (s.setS r x).fregs = s.fregs := rfl
@[simp] theorem State.setS_sregs (r : SReg) (x : Lanes Scalar) : (s.setS r x).sregs = s.sregs.set r.toFin x r.toFin.isLt := rfl
@[simp] theorem State.setS_dregs (r : SReg) (x : Lanes Scalar) : (s.setS r x).dregs = s.dregs := rfl
@[simp] theorem State.setS_cregs (r : SReg) (x : Lanes Scalar) : (s.setS r x).cregs = s.cregs := rfl
@[simp] theorem State.setS_swp (r : SReg) (x : Lanes Scalar) : (s.setS r x).swp = s.swp := rfl
@[simp] theorem State.setS_pc (r : SReg) (x : Lanes Scalar) : (s.setS r x).pc = s.pc := rfl
@[simp] theorem State.setS_ie (r : SReg) (x : Lanes Scalar) : (s.setS r x).ie = s.ie := rfl
@[simp] theorem State.setS_msbmask (r : SReg) (x : Lanes Scalar) : (s.setS r x).msbmask = s.msbmask := rfl
@[simp] theorem State.setS_busy (r : SReg) (x : Lanes Scalar) : (s.setS r x).busy = s.busy := rfl
@[simp] theorem State.setS_done (r : SReg) (x : Lanes Scalar) : (s.setS r x).done = s.done := rfl
@[simp] theorem State.setS_fault (r : SReg) (x : Lanes Scalar) : (s.setS r x).fault = s.fault := rfl
@[simp] theorem State.setS_hberr (r : SReg) (x : Lanes Scalar) : (s.setS r x).hberr = s.hberr := rfl
@[simp] theorem State.setS_startPc (r : SReg) (x : Lanes Scalar) : (s.setS r x).startPc = s.startPc := rfl
@[simp] theorem State.setS_cause (r : SReg) (x : Lanes Scalar) : (s.setS r x).cause = s.cause := rfl
@[simp] theorem State.setS_faultPc (r : SReg) (x : Lanes Scalar) : (s.setS r x).faultPc = s.faultPc := rfl
@[simp] theorem State.setS_faultInsn (r : SReg) (x : Lanes Scalar) : (s.setS r x).faultInsn = s.faultInsn := rfl
@[simp] theorem State.setS_abortReq (r : SReg) (x : Lanes Scalar) : (s.setS r x).abortReq = s.abortReq := rfl
@[simp] theorem State.setS_imem (r : SReg) (x : Lanes Scalar) : (s.setS r x).imem = s.imem := rfl
@[simp] theorem State.setS_dmem (r : SReg) (x : Lanes Scalar) : (s.setS r x).dmem = s.dmem := rfl
@[simp] theorem State.setS_memEpoch (r : SReg) (x : Lanes Scalar) : (s.setS r x).memEpoch = s.memEpoch := rfl
@[simp] theorem State.setS_hostRdata (r : SReg) (x : Lanes Scalar) : (s.setS r x).hostRdata = s.hostRdata := rfl
@[simp] theorem State.setS_turns (r : SReg) (x : Lanes Scalar) : (s.setS r x).turns = s.turns := rfl

/-! ## setD -/

@[simp] theorem State.setD_params (r : DReg) (x : Lanes Digits) : (s.setD r x).params = s.params := rfl
@[simp] theorem State.setD_fregs (r : DReg) (x : Lanes Digits) : (s.setD r x).fregs = s.fregs := rfl
@[simp] theorem State.setD_sregs (r : DReg) (x : Lanes Digits) : (s.setD r x).sregs = s.sregs := rfl
@[simp] theorem State.setD_dregs (r : DReg) (x : Lanes Digits) : (s.setD r x).dregs = s.dregs.set r.toFin x r.toFin.isLt := rfl
@[simp] theorem State.setD_cregs (r : DReg) (x : Lanes Digits) : (s.setD r x).cregs = s.cregs := rfl
@[simp] theorem State.setD_swp (r : DReg) (x : Lanes Digits) : (s.setD r x).swp = s.swp := rfl
@[simp] theorem State.setD_pc (r : DReg) (x : Lanes Digits) : (s.setD r x).pc = s.pc := rfl
@[simp] theorem State.setD_ie (r : DReg) (x : Lanes Digits) : (s.setD r x).ie = s.ie := rfl
@[simp] theorem State.setD_msbmask (r : DReg) (x : Lanes Digits) : (s.setD r x).msbmask = s.msbmask := rfl
@[simp] theorem State.setD_busy (r : DReg) (x : Lanes Digits) : (s.setD r x).busy = s.busy := rfl
@[simp] theorem State.setD_done (r : DReg) (x : Lanes Digits) : (s.setD r x).done = s.done := rfl
@[simp] theorem State.setD_fault (r : DReg) (x : Lanes Digits) : (s.setD r x).fault = s.fault := rfl
@[simp] theorem State.setD_hberr (r : DReg) (x : Lanes Digits) : (s.setD r x).hberr = s.hberr := rfl
@[simp] theorem State.setD_startPc (r : DReg) (x : Lanes Digits) : (s.setD r x).startPc = s.startPc := rfl
@[simp] theorem State.setD_cause (r : DReg) (x : Lanes Digits) : (s.setD r x).cause = s.cause := rfl
@[simp] theorem State.setD_faultPc (r : DReg) (x : Lanes Digits) : (s.setD r x).faultPc = s.faultPc := rfl
@[simp] theorem State.setD_faultInsn (r : DReg) (x : Lanes Digits) : (s.setD r x).faultInsn = s.faultInsn := rfl
@[simp] theorem State.setD_abortReq (r : DReg) (x : Lanes Digits) : (s.setD r x).abortReq = s.abortReq := rfl
@[simp] theorem State.setD_imem (r : DReg) (x : Lanes Digits) : (s.setD r x).imem = s.imem := rfl
@[simp] theorem State.setD_dmem (r : DReg) (x : Lanes Digits) : (s.setD r x).dmem = s.dmem := rfl
@[simp] theorem State.setD_memEpoch (r : DReg) (x : Lanes Digits) : (s.setD r x).memEpoch = s.memEpoch := rfl
@[simp] theorem State.setD_hostRdata (r : DReg) (x : Lanes Digits) : (s.setD r x).hostRdata = s.hostRdata := rfl
@[simp] theorem State.setD_turns (r : DReg) (x : Lanes Digits) : (s.setD r x).turns = s.turns := rfl

/-! ## setC -/

@[simp] theorem State.setC_params (r : CReg) (v : Half) : (s.setC r v).params = s.params := by unfold State.setC; split <;> rfl
@[simp] theorem State.setC_fregs (r : CReg) (v : Half) : (s.setC r v).fregs = s.fregs := by unfold State.setC; split <;> rfl
@[simp] theorem State.setC_sregs (r : CReg) (v : Half) : (s.setC r v).sregs = s.sregs := by unfold State.setC; split <;> rfl
@[simp] theorem State.setC_dregs (r : CReg) (v : Half) : (s.setC r v).dregs = s.dregs := by unfold State.setC; split <;> rfl
@[simp] theorem State.setC_cregs (r : CReg) (v : Half) : (s.setC r v).cregs = if r = 0 then s.cregs else s.cregs.set r.toFin v r.toFin.isLt := by unfold State.setC; split <;> rfl
@[simp] theorem State.setC_swp (r : CReg) (v : Half) : (s.setC r v).swp = s.swp := by unfold State.setC; split <;> rfl
@[simp] theorem State.setC_pc (r : CReg) (v : Half) : (s.setC r v).pc = s.pc := by unfold State.setC; split <;> rfl
@[simp] theorem State.setC_ie (r : CReg) (v : Half) : (s.setC r v).ie = s.ie := by unfold State.setC; split <;> rfl
@[simp] theorem State.setC_msbmask (r : CReg) (v : Half) : (s.setC r v).msbmask = s.msbmask := by unfold State.setC; split <;> rfl
@[simp] theorem State.setC_busy (r : CReg) (v : Half) : (s.setC r v).busy = s.busy := by unfold State.setC; split <;> rfl
@[simp] theorem State.setC_done (r : CReg) (v : Half) : (s.setC r v).done = s.done := by unfold State.setC; split <;> rfl
@[simp] theorem State.setC_fault (r : CReg) (v : Half) : (s.setC r v).fault = s.fault := by unfold State.setC; split <;> rfl
@[simp] theorem State.setC_hberr (r : CReg) (v : Half) : (s.setC r v).hberr = s.hberr := by unfold State.setC; split <;> rfl
@[simp] theorem State.setC_startPc (r : CReg) (v : Half) : (s.setC r v).startPc = s.startPc := by unfold State.setC; split <;> rfl
@[simp] theorem State.setC_cause (r : CReg) (v : Half) : (s.setC r v).cause = s.cause := by unfold State.setC; split <;> rfl
@[simp] theorem State.setC_faultPc (r : CReg) (v : Half) : (s.setC r v).faultPc = s.faultPc := by unfold State.setC; split <;> rfl
@[simp] theorem State.setC_faultInsn (r : CReg) (v : Half) : (s.setC r v).faultInsn = s.faultInsn := by unfold State.setC; split <;> rfl
@[simp] theorem State.setC_abortReq (r : CReg) (v : Half) : (s.setC r v).abortReq = s.abortReq := by unfold State.setC; split <;> rfl
@[simp] theorem State.setC_imem (r : CReg) (v : Half) : (s.setC r v).imem = s.imem := by unfold State.setC; split <;> rfl
@[simp] theorem State.setC_dmem (r : CReg) (v : Half) : (s.setC r v).dmem = s.dmem := by unfold State.setC; split <;> rfl
@[simp] theorem State.setC_memEpoch (r : CReg) (v : Half) : (s.setC r v).memEpoch = s.memEpoch := by unfold State.setC; split <;> rfl
@[simp] theorem State.setC_hostRdata (r : CReg) (v : Half) : (s.setC r v).hostRdata = s.hostRdata := by unfold State.setC; split <;> rfl
@[simp] theorem State.setC_turns (r : CReg) (v : Half) : (s.setC r v).turns = s.turns := by unfold State.setC; split <;> rfl

/-! ## setSwp -/

@[simp] theorem State.setSwp_params (b : Lanes Bool) : (s.setSwp b).params = s.params := rfl
@[simp] theorem State.setSwp_fregs (b : Lanes Bool) : (s.setSwp b).fregs = s.fregs := rfl
@[simp] theorem State.setSwp_sregs (b : Lanes Bool) : (s.setSwp b).sregs = s.sregs := rfl
@[simp] theorem State.setSwp_dregs (b : Lanes Bool) : (s.setSwp b).dregs = s.dregs := rfl
@[simp] theorem State.setSwp_cregs (b : Lanes Bool) : (s.setSwp b).cregs = s.cregs := rfl
@[simp] theorem State.setSwp_swp (b : Lanes Bool) : (s.setSwp b).swp = b := rfl
@[simp] theorem State.setSwp_pc (b : Lanes Bool) : (s.setSwp b).pc = s.pc := rfl
@[simp] theorem State.setSwp_ie (b : Lanes Bool) : (s.setSwp b).ie = s.ie := rfl
@[simp] theorem State.setSwp_msbmask (b : Lanes Bool) : (s.setSwp b).msbmask = s.msbmask := rfl
@[simp] theorem State.setSwp_busy (b : Lanes Bool) : (s.setSwp b).busy = s.busy := rfl
@[simp] theorem State.setSwp_done (b : Lanes Bool) : (s.setSwp b).done = s.done := rfl
@[simp] theorem State.setSwp_fault (b : Lanes Bool) : (s.setSwp b).fault = s.fault := rfl
@[simp] theorem State.setSwp_hberr (b : Lanes Bool) : (s.setSwp b).hberr = s.hberr := rfl
@[simp] theorem State.setSwp_startPc (b : Lanes Bool) : (s.setSwp b).startPc = s.startPc := rfl
@[simp] theorem State.setSwp_cause (b : Lanes Bool) : (s.setSwp b).cause = s.cause := rfl
@[simp] theorem State.setSwp_faultPc (b : Lanes Bool) : (s.setSwp b).faultPc = s.faultPc := rfl
@[simp] theorem State.setSwp_faultInsn (b : Lanes Bool) : (s.setSwp b).faultInsn = s.faultInsn := rfl
@[simp] theorem State.setSwp_abortReq (b : Lanes Bool) : (s.setSwp b).abortReq = s.abortReq := rfl
@[simp] theorem State.setSwp_imem (b : Lanes Bool) : (s.setSwp b).imem = s.imem := rfl
@[simp] theorem State.setSwp_dmem (b : Lanes Bool) : (s.setSwp b).dmem = s.dmem := rfl
@[simp] theorem State.setSwp_memEpoch (b : Lanes Bool) : (s.setSwp b).memEpoch = s.memEpoch := rfl
@[simp] theorem State.setSwp_hostRdata (b : Lanes Bool) : (s.setSwp b).hostRdata = s.hostRdata := rfl
@[simp] theorem State.setSwp_turns (b : Lanes Bool) : (s.setSwp b).turns = s.turns := rfl

/-! ## jump -/

@[simp] theorem State.jump_params (target : Half) : (s.jump target).params = s.params := rfl
@[simp] theorem State.jump_fregs (target : Half) : (s.jump target).fregs = s.fregs := rfl
@[simp] theorem State.jump_sregs (target : Half) : (s.jump target).sregs = s.sregs := rfl
@[simp] theorem State.jump_dregs (target : Half) : (s.jump target).dregs = s.dregs := rfl
@[simp] theorem State.jump_cregs (target : Half) : (s.jump target).cregs = s.cregs := rfl
@[simp] theorem State.jump_swp (target : Half) : (s.jump target).swp = s.swp := rfl
@[simp] theorem State.jump_pc (target : Half) : (s.jump target).pc = target := rfl
@[simp] theorem State.jump_ie (target : Half) : (s.jump target).ie = s.ie := rfl
@[simp] theorem State.jump_msbmask (target : Half) : (s.jump target).msbmask = s.msbmask := rfl
@[simp] theorem State.jump_busy (target : Half) : (s.jump target).busy = s.busy := rfl
@[simp] theorem State.jump_done (target : Half) : (s.jump target).done = s.done := rfl
@[simp] theorem State.jump_fault (target : Half) : (s.jump target).fault = s.fault := rfl
@[simp] theorem State.jump_hberr (target : Half) : (s.jump target).hberr = s.hberr := rfl
@[simp] theorem State.jump_startPc (target : Half) : (s.jump target).startPc = s.startPc := rfl
@[simp] theorem State.jump_cause (target : Half) : (s.jump target).cause = s.cause := rfl
@[simp] theorem State.jump_faultPc (target : Half) : (s.jump target).faultPc = s.faultPc := rfl
@[simp] theorem State.jump_faultInsn (target : Half) : (s.jump target).faultInsn = s.faultInsn := rfl
@[simp] theorem State.jump_abortReq (target : Half) : (s.jump target).abortReq = s.abortReq := rfl
@[simp] theorem State.jump_imem (target : Half) : (s.jump target).imem = s.imem := rfl
@[simp] theorem State.jump_dmem (target : Half) : (s.jump target).dmem = s.dmem := rfl
@[simp] theorem State.jump_memEpoch (target : Half) : (s.jump target).memEpoch = s.memEpoch := rfl
@[simp] theorem State.jump_hostRdata (target : Half) : (s.jump target).hostRdata = s.hostRdata := rfl
@[simp] theorem State.jump_turns (target : Half) : (s.jump target).turns = s.turns := rfl

/-! ## advance -/

@[simp] theorem State.advance_params : (s.advance).params = s.params := rfl
@[simp] theorem State.advance_fregs : (s.advance).fregs = s.fregs := rfl
@[simp] theorem State.advance_sregs : (s.advance).sregs = s.sregs := rfl
@[simp] theorem State.advance_dregs : (s.advance).dregs = s.dregs := rfl
@[simp] theorem State.advance_cregs : (s.advance).cregs = s.cregs := rfl
@[simp] theorem State.advance_swp : (s.advance).swp = s.swp := rfl
@[simp] theorem State.advance_pc : (s.advance).pc = s.pc + 1 := rfl
@[simp] theorem State.advance_ie : (s.advance).ie = s.ie := rfl
@[simp] theorem State.advance_msbmask : (s.advance).msbmask = s.msbmask := rfl
@[simp] theorem State.advance_busy : (s.advance).busy = s.busy := rfl
@[simp] theorem State.advance_done : (s.advance).done = s.done := rfl
@[simp] theorem State.advance_fault : (s.advance).fault = s.fault := rfl
@[simp] theorem State.advance_hberr : (s.advance).hberr = s.hberr := rfl
@[simp] theorem State.advance_startPc : (s.advance).startPc = s.startPc := rfl
@[simp] theorem State.advance_cause : (s.advance).cause = s.cause := rfl
@[simp] theorem State.advance_faultPc : (s.advance).faultPc = s.faultPc := rfl
@[simp] theorem State.advance_faultInsn : (s.advance).faultInsn = s.faultInsn := rfl
@[simp] theorem State.advance_abortReq : (s.advance).abortReq = s.abortReq := rfl
@[simp] theorem State.advance_imem : (s.advance).imem = s.imem := rfl
@[simp] theorem State.advance_dmem : (s.advance).dmem = s.dmem := rfl
@[simp] theorem State.advance_memEpoch : (s.advance).memEpoch = s.memEpoch := rfl
@[simp] theorem State.advance_hostRdata : (s.advance).hostRdata = s.hostRdata := rfl
@[simp] theorem State.advance_turns : (s.advance).turns = s.turns := rfl

/-! ## storeWords -/

@[simp] theorem State.storeWords_params (i : Nat) (ws : List Word) : (s.storeWords i ws).params = s.params := rfl
@[simp] theorem State.storeWords_fregs (i : Nat) (ws : List Word) : (s.storeWords i ws).fregs = s.fregs := rfl
@[simp] theorem State.storeWords_sregs (i : Nat) (ws : List Word) : (s.storeWords i ws).sregs = s.sregs := rfl
@[simp] theorem State.storeWords_dregs (i : Nat) (ws : List Word) : (s.storeWords i ws).dregs = s.dregs := rfl
@[simp] theorem State.storeWords_cregs (i : Nat) (ws : List Word) : (s.storeWords i ws).cregs = s.cregs := rfl
@[simp] theorem State.storeWords_swp (i : Nat) (ws : List Word) : (s.storeWords i ws).swp = s.swp := rfl
@[simp] theorem State.storeWords_pc (i : Nat) (ws : List Word) : (s.storeWords i ws).pc = s.pc := rfl
@[simp] theorem State.storeWords_ie (i : Nat) (ws : List Word) : (s.storeWords i ws).ie = s.ie := rfl
@[simp] theorem State.storeWords_msbmask (i : Nat) (ws : List Word) : (s.storeWords i ws).msbmask = s.msbmask := rfl
@[simp] theorem State.storeWords_busy (i : Nat) (ws : List Word) : (s.storeWords i ws).busy = s.busy := rfl
@[simp] theorem State.storeWords_done (i : Nat) (ws : List Word) : (s.storeWords i ws).done = s.done := rfl
@[simp] theorem State.storeWords_fault (i : Nat) (ws : List Word) : (s.storeWords i ws).fault = s.fault := rfl
@[simp] theorem State.storeWords_hberr (i : Nat) (ws : List Word) : (s.storeWords i ws).hberr = s.hberr := rfl
@[simp] theorem State.storeWords_startPc (i : Nat) (ws : List Word) : (s.storeWords i ws).startPc = s.startPc := rfl
@[simp] theorem State.storeWords_cause (i : Nat) (ws : List Word) : (s.storeWords i ws).cause = s.cause := rfl
@[simp] theorem State.storeWords_faultPc (i : Nat) (ws : List Word) : (s.storeWords i ws).faultPc = s.faultPc := rfl
@[simp] theorem State.storeWords_faultInsn (i : Nat) (ws : List Word) : (s.storeWords i ws).faultInsn = s.faultInsn := rfl
@[simp] theorem State.storeWords_abortReq (i : Nat) (ws : List Word) : (s.storeWords i ws).abortReq = s.abortReq := rfl
@[simp] theorem State.storeWords_imem (i : Nat) (ws : List Word) : (s.storeWords i ws).imem = s.imem := rfl
@[simp] theorem State.storeWords_dmem (i : Nat) (ws : List Word) : (s.storeWords i ws).dmem = s.dmem.putWords i ws := rfl
@[simp] theorem State.storeWords_memEpoch (i : Nat) (ws : List Word) : (s.storeWords i ws).memEpoch = s.memEpoch := rfl
@[simp] theorem State.storeWords_hostRdata (i : Nat) (ws : List Word) : (s.storeWords i ws).hostRdata = s.hostRdata := rfl
@[simp] theorem State.storeWords_turns (i : Nat) (ws : List Word) : (s.storeWords i ws).turns = s.turns := rfl

/-! ## faultEntry -/

@[simp] theorem State.faultEntry_params (c : Cause) (w : Word) : (s.faultEntry c w).params = s.params := rfl
@[simp] theorem State.faultEntry_fregs (c : Cause) (w : Word) : (s.faultEntry c w).fregs = s.fregs := rfl
@[simp] theorem State.faultEntry_sregs (c : Cause) (w : Word) : (s.faultEntry c w).sregs = s.sregs := rfl
@[simp] theorem State.faultEntry_dregs (c : Cause) (w : Word) : (s.faultEntry c w).dregs = s.dregs := rfl
@[simp] theorem State.faultEntry_cregs (c : Cause) (w : Word) : (s.faultEntry c w).cregs = s.cregs := rfl
@[simp] theorem State.faultEntry_swp (c : Cause) (w : Word) : (s.faultEntry c w).swp = s.swp := rfl
@[simp] theorem State.faultEntry_pc (c : Cause) (w : Word) : (s.faultEntry c w).pc = s.pc := rfl
@[simp] theorem State.faultEntry_ie (c : Cause) (w : Word) : (s.faultEntry c w).ie = s.ie := rfl
@[simp] theorem State.faultEntry_msbmask (c : Cause) (w : Word) : (s.faultEntry c w).msbmask = s.msbmask := rfl
@[simp] theorem State.faultEntry_busy (c : Cause) (w : Word) : (s.faultEntry c w).busy = false := rfl
@[simp] theorem State.faultEntry_done (c : Cause) (w : Word) : (s.faultEntry c w).done = s.done := rfl
@[simp] theorem State.faultEntry_fault (c : Cause) (w : Word) : (s.faultEntry c w).fault = true := rfl
@[simp] theorem State.faultEntry_hberr (c : Cause) (w : Word) : (s.faultEntry c w).hberr = s.hberr := rfl
@[simp] theorem State.faultEntry_startPc (c : Cause) (w : Word) : (s.faultEntry c w).startPc = s.startPc := rfl
@[simp] theorem State.faultEntry_cause (c : Cause) (w : Word) : (s.faultEntry c w).cause = c := rfl
@[simp] theorem State.faultEntry_faultPc (c : Cause) (w : Word) : (s.faultEntry c w).faultPc = s.pc := rfl
@[simp] theorem State.faultEntry_faultInsn (c : Cause) (w : Word) : (s.faultEntry c w).faultInsn = w := rfl
@[simp] theorem State.faultEntry_abortReq (c : Cause) (w : Word) : (s.faultEntry c w).abortReq = false := rfl
@[simp] theorem State.faultEntry_imem (c : Cause) (w : Word) : (s.faultEntry c w).imem = s.imem := rfl
@[simp] theorem State.faultEntry_dmem (c : Cause) (w : Word) : (s.faultEntry c w).dmem = s.dmem := rfl
@[simp] theorem State.faultEntry_memEpoch (c : Cause) (w : Word) : (s.faultEntry c w).memEpoch = s.memEpoch := rfl
@[simp] theorem State.faultEntry_hostRdata (c : Cause) (w : Word) : (s.faultEntry c w).hostRdata = s.hostRdata := rfl
@[simp] theorem State.faultEntry_turns (c : Cause) (w : Word) : (s.faultEntry c w).turns = s.turns := rfl

/-! ## startRun -/

@[simp] theorem State.startRun_params : (s.startRun).params = s.params := rfl
@[simp] theorem State.startRun_fregs : (s.startRun).fregs = s.fregs := rfl
@[simp] theorem State.startRun_sregs : (s.startRun).sregs = s.sregs := rfl
@[simp] theorem State.startRun_dregs : (s.startRun).dregs = s.dregs := rfl
@[simp] theorem State.startRun_cregs : (s.startRun).cregs = s.cregs := rfl
@[simp] theorem State.startRun_swp : (s.startRun).swp = s.swp := rfl
@[simp] theorem State.startRun_pc : (s.startRun).pc = s.startPc := rfl
@[simp] theorem State.startRun_ie : (s.startRun).ie = s.ie := rfl
@[simp] theorem State.startRun_msbmask : (s.startRun).msbmask = s.msbmask := rfl
@[simp] theorem State.startRun_busy : (s.startRun).busy = true := rfl
@[simp] theorem State.startRun_done : (s.startRun).done = false := rfl
@[simp] theorem State.startRun_fault : (s.startRun).fault = false := rfl
@[simp] theorem State.startRun_hberr : (s.startRun).hberr = s.hberr := rfl
@[simp] theorem State.startRun_startPc : (s.startRun).startPc = s.startPc := rfl
@[simp] theorem State.startRun_cause : (s.startRun).cause = .none := rfl
@[simp] theorem State.startRun_faultPc : (s.startRun).faultPc = 0 := rfl
@[simp] theorem State.startRun_faultInsn : (s.startRun).faultInsn = 0 := rfl
@[simp] theorem State.startRun_abortReq : (s.startRun).abortReq = false := rfl
@[simp] theorem State.startRun_imem : (s.startRun).imem = s.imem := rfl
@[simp] theorem State.startRun_dmem : (s.startRun).dmem = s.dmem := rfl
@[simp] theorem State.startRun_memEpoch : (s.startRun).memEpoch = s.memEpoch := rfl
@[simp] theorem State.startRun_hostRdata : (s.startRun).hostRdata = s.hostRdata := rfl
@[simp] theorem State.startRun_turns : (s.startRun).turns = s.turns := rfl

/-! ## setGroup -/

@[simp] theorem State.setGroup_params (r : FReg) (xs : List (Lanes Limbs)) : (s.setGroup r xs).params = s.params := by
  induction xs generalizing s r with
  | nil => rfl
  | cons x xs ih => exact (ih (s.setF r x) (groupReg r 1)).trans rfl

@[simp] theorem State.setGroup_sregs (r : FReg) (xs : List (Lanes Limbs)) : (s.setGroup r xs).sregs = s.sregs := by
  induction xs generalizing s r with
  | nil => rfl
  | cons x xs ih => exact (ih (s.setF r x) (groupReg r 1)).trans rfl

@[simp] theorem State.setGroup_dregs (r : FReg) (xs : List (Lanes Limbs)) : (s.setGroup r xs).dregs = s.dregs := by
  induction xs generalizing s r with
  | nil => rfl
  | cons x xs ih => exact (ih (s.setF r x) (groupReg r 1)).trans rfl

@[simp] theorem State.setGroup_cregs (r : FReg) (xs : List (Lanes Limbs)) : (s.setGroup r xs).cregs = s.cregs := by
  induction xs generalizing s r with
  | nil => rfl
  | cons x xs ih => exact (ih (s.setF r x) (groupReg r 1)).trans rfl

@[simp] theorem State.setGroup_swp (r : FReg) (xs : List (Lanes Limbs)) : (s.setGroup r xs).swp = s.swp := by
  induction xs generalizing s r with
  | nil => rfl
  | cons x xs ih => exact (ih (s.setF r x) (groupReg r 1)).trans rfl

@[simp] theorem State.setGroup_pc (r : FReg) (xs : List (Lanes Limbs)) : (s.setGroup r xs).pc = s.pc := by
  induction xs generalizing s r with
  | nil => rfl
  | cons x xs ih => exact (ih (s.setF r x) (groupReg r 1)).trans rfl

@[simp] theorem State.setGroup_ie (r : FReg) (xs : List (Lanes Limbs)) : (s.setGroup r xs).ie = s.ie := by
  induction xs generalizing s r with
  | nil => rfl
  | cons x xs ih => exact (ih (s.setF r x) (groupReg r 1)).trans rfl

@[simp] theorem State.setGroup_msbmask (r : FReg) (xs : List (Lanes Limbs)) : (s.setGroup r xs).msbmask = s.msbmask := by
  induction xs generalizing s r with
  | nil => rfl
  | cons x xs ih => exact (ih (s.setF r x) (groupReg r 1)).trans rfl

@[simp] theorem State.setGroup_busy (r : FReg) (xs : List (Lanes Limbs)) : (s.setGroup r xs).busy = s.busy := by
  induction xs generalizing s r with
  | nil => rfl
  | cons x xs ih => exact (ih (s.setF r x) (groupReg r 1)).trans rfl

@[simp] theorem State.setGroup_done (r : FReg) (xs : List (Lanes Limbs)) : (s.setGroup r xs).done = s.done := by
  induction xs generalizing s r with
  | nil => rfl
  | cons x xs ih => exact (ih (s.setF r x) (groupReg r 1)).trans rfl

@[simp] theorem State.setGroup_fault (r : FReg) (xs : List (Lanes Limbs)) : (s.setGroup r xs).fault = s.fault := by
  induction xs generalizing s r with
  | nil => rfl
  | cons x xs ih => exact (ih (s.setF r x) (groupReg r 1)).trans rfl

@[simp] theorem State.setGroup_hberr (r : FReg) (xs : List (Lanes Limbs)) : (s.setGroup r xs).hberr = s.hberr := by
  induction xs generalizing s r with
  | nil => rfl
  | cons x xs ih => exact (ih (s.setF r x) (groupReg r 1)).trans rfl

@[simp] theorem State.setGroup_startPc (r : FReg) (xs : List (Lanes Limbs)) : (s.setGroup r xs).startPc = s.startPc := by
  induction xs generalizing s r with
  | nil => rfl
  | cons x xs ih => exact (ih (s.setF r x) (groupReg r 1)).trans rfl

@[simp] theorem State.setGroup_cause (r : FReg) (xs : List (Lanes Limbs)) : (s.setGroup r xs).cause = s.cause := by
  induction xs generalizing s r with
  | nil => rfl
  | cons x xs ih => exact (ih (s.setF r x) (groupReg r 1)).trans rfl

@[simp] theorem State.setGroup_faultPc (r : FReg) (xs : List (Lanes Limbs)) : (s.setGroup r xs).faultPc = s.faultPc := by
  induction xs generalizing s r with
  | nil => rfl
  | cons x xs ih => exact (ih (s.setF r x) (groupReg r 1)).trans rfl

@[simp] theorem State.setGroup_faultInsn (r : FReg) (xs : List (Lanes Limbs)) : (s.setGroup r xs).faultInsn = s.faultInsn := by
  induction xs generalizing s r with
  | nil => rfl
  | cons x xs ih => exact (ih (s.setF r x) (groupReg r 1)).trans rfl

@[simp] theorem State.setGroup_abortReq (r : FReg) (xs : List (Lanes Limbs)) : (s.setGroup r xs).abortReq = s.abortReq := by
  induction xs generalizing s r with
  | nil => rfl
  | cons x xs ih => exact (ih (s.setF r x) (groupReg r 1)).trans rfl

@[simp] theorem State.setGroup_imem (r : FReg) (xs : List (Lanes Limbs)) : (s.setGroup r xs).imem = s.imem := by
  induction xs generalizing s r with
  | nil => rfl
  | cons x xs ih => exact (ih (s.setF r x) (groupReg r 1)).trans rfl

@[simp] theorem State.setGroup_dmem (r : FReg) (xs : List (Lanes Limbs)) : (s.setGroup r xs).dmem = s.dmem := by
  induction xs generalizing s r with
  | nil => rfl
  | cons x xs ih => exact (ih (s.setF r x) (groupReg r 1)).trans rfl

@[simp] theorem State.setGroup_memEpoch (r : FReg) (xs : List (Lanes Limbs)) : (s.setGroup r xs).memEpoch = s.memEpoch := by
  induction xs generalizing s r with
  | nil => rfl
  | cons x xs ih => exact (ih (s.setF r x) (groupReg r 1)).trans rfl

@[simp] theorem State.setGroup_hostRdata (r : FReg) (xs : List (Lanes Limbs)) : (s.setGroup r xs).hostRdata = s.hostRdata := by
  induction xs generalizing s r with
  | nil => rfl
  | cons x xs ih => exact (ih (s.setF r x) (groupReg r 1)).trans rfl

@[simp] theorem State.setGroup_turns (r : FReg) (xs : List (Lanes Limbs)) : (s.setGroup r xs).turns = s.turns := by
  induction xs generalizing s r with
  | nil => rfl
  | cons x xs ih => exact (ih (s.setF r x) (groupReg r 1)).trans rfl

/-! ## swapGroups -/

@[simp] theorem State.swapGroups_params (fa fb : FReg) (sw : Lanes Bool) (n : Nat) : (s.swapGroups fa fb sw n).params = s.params := by
  induction n with
  | zero => rfl
  | succ n ih => exact ih

@[simp] theorem State.swapGroups_sregs (fa fb : FReg) (sw : Lanes Bool) (n : Nat) : (s.swapGroups fa fb sw n).sregs = s.sregs := by
  induction n with
  | zero => rfl
  | succ n ih => exact ih

@[simp] theorem State.swapGroups_dregs (fa fb : FReg) (sw : Lanes Bool) (n : Nat) : (s.swapGroups fa fb sw n).dregs = s.dregs := by
  induction n with
  | zero => rfl
  | succ n ih => exact ih

@[simp] theorem State.swapGroups_cregs (fa fb : FReg) (sw : Lanes Bool) (n : Nat) : (s.swapGroups fa fb sw n).cregs = s.cregs := by
  induction n with
  | zero => rfl
  | succ n ih => exact ih

@[simp] theorem State.swapGroups_swp (fa fb : FReg) (sw : Lanes Bool) (n : Nat) : (s.swapGroups fa fb sw n).swp = s.swp := by
  induction n with
  | zero => rfl
  | succ n ih => exact ih

@[simp] theorem State.swapGroups_pc (fa fb : FReg) (sw : Lanes Bool) (n : Nat) : (s.swapGroups fa fb sw n).pc = s.pc := by
  induction n with
  | zero => rfl
  | succ n ih => exact ih

@[simp] theorem State.swapGroups_ie (fa fb : FReg) (sw : Lanes Bool) (n : Nat) : (s.swapGroups fa fb sw n).ie = s.ie := by
  induction n with
  | zero => rfl
  | succ n ih => exact ih

@[simp] theorem State.swapGroups_msbmask (fa fb : FReg) (sw : Lanes Bool) (n : Nat) : (s.swapGroups fa fb sw n).msbmask = s.msbmask := by
  induction n with
  | zero => rfl
  | succ n ih => exact ih

@[simp] theorem State.swapGroups_busy (fa fb : FReg) (sw : Lanes Bool) (n : Nat) : (s.swapGroups fa fb sw n).busy = s.busy := by
  induction n with
  | zero => rfl
  | succ n ih => exact ih

@[simp] theorem State.swapGroups_done (fa fb : FReg) (sw : Lanes Bool) (n : Nat) : (s.swapGroups fa fb sw n).done = s.done := by
  induction n with
  | zero => rfl
  | succ n ih => exact ih

@[simp] theorem State.swapGroups_fault (fa fb : FReg) (sw : Lanes Bool) (n : Nat) : (s.swapGroups fa fb sw n).fault = s.fault := by
  induction n with
  | zero => rfl
  | succ n ih => exact ih

@[simp] theorem State.swapGroups_hberr (fa fb : FReg) (sw : Lanes Bool) (n : Nat) : (s.swapGroups fa fb sw n).hberr = s.hberr := by
  induction n with
  | zero => rfl
  | succ n ih => exact ih

@[simp] theorem State.swapGroups_startPc (fa fb : FReg) (sw : Lanes Bool) (n : Nat) : (s.swapGroups fa fb sw n).startPc = s.startPc := by
  induction n with
  | zero => rfl
  | succ n ih => exact ih

@[simp] theorem State.swapGroups_cause (fa fb : FReg) (sw : Lanes Bool) (n : Nat) : (s.swapGroups fa fb sw n).cause = s.cause := by
  induction n with
  | zero => rfl
  | succ n ih => exact ih

@[simp] theorem State.swapGroups_faultPc (fa fb : FReg) (sw : Lanes Bool) (n : Nat) : (s.swapGroups fa fb sw n).faultPc = s.faultPc := by
  induction n with
  | zero => rfl
  | succ n ih => exact ih

@[simp] theorem State.swapGroups_faultInsn (fa fb : FReg) (sw : Lanes Bool) (n : Nat) : (s.swapGroups fa fb sw n).faultInsn = s.faultInsn := by
  induction n with
  | zero => rfl
  | succ n ih => exact ih

@[simp] theorem State.swapGroups_abortReq (fa fb : FReg) (sw : Lanes Bool) (n : Nat) : (s.swapGroups fa fb sw n).abortReq = s.abortReq := by
  induction n with
  | zero => rfl
  | succ n ih => exact ih

@[simp] theorem State.swapGroups_imem (fa fb : FReg) (sw : Lanes Bool) (n : Nat) : (s.swapGroups fa fb sw n).imem = s.imem := by
  induction n with
  | zero => rfl
  | succ n ih => exact ih

@[simp] theorem State.swapGroups_dmem (fa fb : FReg) (sw : Lanes Bool) (n : Nat) : (s.swapGroups fa fb sw n).dmem = s.dmem := by
  induction n with
  | zero => rfl
  | succ n ih => exact ih

@[simp] theorem State.swapGroups_memEpoch (fa fb : FReg) (sw : Lanes Bool) (n : Nat) : (s.swapGroups fa fb sw n).memEpoch = s.memEpoch := by
  induction n with
  | zero => rfl
  | succ n ih => exact ih

@[simp] theorem State.swapGroups_hostRdata (fa fb : FReg) (sw : Lanes Bool) (n : Nat) : (s.swapGroups fa fb sw n).hostRdata = s.hostRdata := by
  induction n with
  | zero => rfl
  | succ n ih => exact ih

@[simp] theorem State.swapGroups_turns (fa fb : FReg) (sw : Lanes Bool) (n : Nat) : (s.swapGroups fa fb sw n).turns = s.turns := by
  induction n with
  | zero => rfl
  | succ n ih => exact ih

end

end Sys2Proof.Machine
end

