-- ==== Sys2Proof/Laws/Registers.lean ====
section
/-! SUPPORT. What a read of a register gives after a write: one lemma per register file, and for the shared writes of a
group of field registers. -/

namespace Sys2Proof.Machine

/-! ## Vectors -/

@[simp] theorem vector_get_ofFn {α : Type} {n : Nat} (f : Fin n → α) (i : Fin n) : (Vector.ofFn f).get i = f i :=
  Vector.getElem_ofFn i.isLt

@[simp] theorem vector_get_map {α β : Type} {n : Nat} (f : α → β) (v : Vector α n) (i : Fin n) : (v.map f).get i = f (v.get i) :=
  Vector.getElem_map f i.isLt

@[simp] theorem vector_get_replicate {α : Type} {n : Nat} (x : α) (i : Fin n) : (Vector.replicate n x).get i = x :=
  Vector.getElem_replicate i.isLt

@[simp] theorem forEachLane_get {α : Type} (f : Lane → α) (l : Lane) : (forEachLane f).get l = f l := vector_get_ofFn f l

theorem vector_ext_get {α : Type} {n : Nat} {v w : Vector α n} (h : ∀ i, v.get i = w.get i) : v = w :=
  Vector.ext fun i hi => h ⟨i, hi⟩

/-! ## One register -/

theorem vector_get_set {α : Type} {n w : Nat} (v : Vector α n) (r q : BitVec w) (h : 2 ^ w = n) (x : α) :
    (v.set r.toNat x (h ▸ r.isLt)).get ⟨q.toNat, h ▸ q.isLt⟩ = if q = r then x else v.get ⟨q.toNat, h ▸ q.isLt⟩ := by
  show (v.set r.toNat x _)[q.toNat]'_ = if q = r then x else v[q.toNat]'_
  rw [Vector.getElem_set]
  by_cases e : q = r
  · subst e; simp
  · have : r.toNat ≠ q.toNat := fun h => e (BitVec.eq_of_toNat_eq h.symm)
    simp [e, this]

theorem State.freg_setF (s : State) (r q : FReg) (x : Lanes Limbs) :
    (s.setF r x).freg q = if q = r then x else s.freg q := vector_get_set s.fregs r q rfl x

@[simp] theorem State.freg_setF_same (s : State) (r : FReg) (x : Lanes Limbs) : (s.setF r x).freg r = x := by
  rw [State.freg_setF, if_pos rfl]

theorem State.freg_setF_other (s : State) {r q : FReg} (h : q ≠ r) (x : Lanes Limbs) : (s.setF r x).freg q = s.freg q := by
  rw [State.freg_setF, if_neg h]

theorem State.sreg_setS (s : State) (r q : SReg) (x : Lanes Scalar) :
    (s.setS r x).sreg q = if q = r then x else s.sreg q := vector_get_set s.sregs r q rfl x

theorem State.dreg_setD (s : State) (r q : DReg) (x : Lanes Digits) :
    (s.setD r x).dreg q = if q = r then x else s.dreg q := vector_get_set s.dregs r q rfl x

/-- A counter after a write: C0 reads 0 whatever is written, another counter reads what was written to it (R34). -/
theorem State.creg_setC (s : State) (r q : CReg) (v : Half) :
    (s.setC r v).creg q = if q = 0 then 0 else if q = r then v else s.creg q := by
  unfold State.creg State.setC
  by_cases hq : q = 0
  · simp [hq]
  · by_cases hr : r = 0
    · have : q ≠ r := fun e => hq (e.trans hr)
      rw [if_pos hr, if_neg hq, if_neg hq, if_neg this]
    · rw [if_neg hq, if_neg hr, if_neg hq, if_neg hq]
      exact vector_get_set s.cregs r q rfl v

@[simp] theorem State.creg_zero (s : State) : s.creg 0 = 0 := rfl

/-! ## Reads of what a write does not name -/

section

variable (s : State) (r : FReg) (x : Lanes Limbs)

@[simp] theorem State.setF_sreg (q : SReg) : (s.setF r x).sreg q = s.sreg q := by cases s; rfl
@[simp] theorem State.setF_dreg (q : DReg) : (s.setF r x).dreg q = s.dreg q := by cases s; rfl
@[simp] theorem State.setF_creg (q : CReg) : (s.setF r x).creg q = s.creg q := by cases s; rfl
@[simp] theorem State.setF_byteAt (sp : Config.Space) (a : Nat) : (s.setF r x).byteAt sp a = s.byteAt sp a := by cases sp <;> rfl
@[simp] theorem State.jump_freg (t : Half) (q : FReg) : (s.jump t).freg q = s.freg q := by cases s; rfl
@[simp] theorem State.jump_sreg (t : Half) (q : SReg) : (s.jump t).sreg q = s.sreg q := by cases s; rfl
@[simp] theorem State.jump_dreg (t : Half) (q : DReg) : (s.jump t).dreg q = s.dreg q := by cases s; rfl
@[simp] theorem State.jump_creg (t : Half) (q : CReg) : (s.jump t).creg q = s.creg q := by cases s; rfl
@[simp] theorem State.jump_byteAt (t : Half) (sp : Config.Space) (a : Nat) : (s.jump t).byteAt sp a = s.byteAt sp a := by
  cases sp <;> rfl
@[simp] theorem State.advance_freg (q : FReg) : s.advance.freg q = s.freg q := by cases s; rfl
@[simp] theorem State.advance_sreg (q : SReg) : s.advance.sreg q = s.sreg q := by cases s; rfl
@[simp] theorem State.advance_dreg (q : DReg) : s.advance.dreg q = s.dreg q := by cases s; rfl
@[simp] theorem State.advance_creg (q : CReg) : s.advance.creg q = s.creg q := by cases s; rfl
@[simp] theorem State.advance_wordAt (sp : Config.Space) (i : Nat) : s.advance.wordAt sp i = s.wordAt sp i := by cases sp <;> rfl
@[simp] theorem State.advance_byteAt (sp : Config.Space) (a : Nat) : s.advance.byteAt sp a = s.byteAt sp a := by cases sp <;> rfl

end

/-! ## Groups -/

theorem groupReg_toNat {r : FReg} {c : Nat} (h : r.toNat + c < 32) : (groupReg r c).toNat = r.toNat + c := by
  unfold groupReg
  rw [BitVec.toNat_add, BitVec.toNat_ofNat]
  omega

@[simp] theorem groupReg_zero (r : FReg) : groupReg r 0 = r := by simp [groupReg]

theorem groupReg_groupReg (r : FReg) (a b : Nat) : groupReg (groupReg r a) b = groupReg r (a + b) := by
  unfold groupReg
  rw [BitVec.add_assoc, ← BitVec.ofNat_add]

theorem groupReg_inj {r : FReg} {a b : Nat} (ha : r.toNat + a < 32) (hb : r.toNat + b < 32)
    (h : groupReg r a = groupReg r b) : a = b := by
  have := congrArg BitVec.toNat h
  rw [groupReg_toNat ha, groupReg_toNat hb] at this
  omega

/-- A register that is no member of the group keeps its value. -/
theorem State.freg_setGroup_outside (s : State) (r q : FReg) (xs : List (Lanes Limbs))
    (h : ∀ c, c < xs.length → q ≠ groupReg r c) : (s.setGroup r xs).freg q = s.freg q := by
  induction xs generalizing s r with
  | nil => rfl
  | cons x xs ih =>
    have h0 : q ≠ r := by simpa using h 0 (by simp)
    have := ih (s.setF r x) (groupReg r 1) fun c hc => by
      rw [groupReg_groupReg, Nat.add_comm]
      exact h (c + 1) (by simpa using hc)
    exact this.trans (State.freg_setF_other s h0 x)

/-- Member `c` of a group holds the c-th value written to the group. -/
theorem State.freg_setGroup_member (s : State) (r : FReg) (xs : List (Lanes Limbs)) (c : Nat) (hc : c < xs.length)
    (h : r.toNat + xs.length ≤ 32) : (s.setGroup r xs).freg (groupReg r c) = xs[c] := by
  induction xs generalizing s r c with
  | nil => simp at hc
  | cons x xs ih =>
    simp only [List.length_cons] at hc h
    cases c with
    | zero =>
      have := State.freg_setGroup_outside (s.setF r x) (groupReg r 1) r xs fun c hc e => by
        rw [groupReg_groupReg] at e
        have := groupReg_inj (r := r) (a := 0) (b := 1 + c) (by omega) (by omega) (by simpa using e)
        omega
      simpa [State.setGroup] using this
    | succ c =>
      have hr : (groupReg r 1).toNat = r.toNat + 1 := groupReg_toNat (by omega)
      have := ih (s.setF r x) (groupReg r 1) c (by omega) (by omega)
      rw [groupReg_groupReg, Nat.add_comm] at this
      simpa [State.setGroup] using this

/-! ## Swapped groups -/

theorem blend_get (sw : Lanes Bool) (x y : Lanes Limbs) (l : Lane) :
    (blend sw x y).get l = if sw.get l then y.get l else x.get l := by
  unfold blend
  rw [forEachLane_get]
  apply vector_ext_get
  intro i
  rw [vector_get_ofFn]
  cases sw.get l
  · simp
  · simp only [if_true]
    rw [BitVec.allOnes_and, ← BitVec.xor_assoc, BitVec.xor_self, BitVec.zero_xor]

/-- A register in neither group keeps its value. -/
theorem State.freg_swapGroups_outside (s : State) (fa fb q : FReg) (sw : Lanes Bool) (n : Nat)
    (h : ∀ c, c < n → q ≠ groupReg fa c ∧ q ≠ groupReg fb c) : (s.swapGroups fa fb sw n).freg q = s.freg q := by
  induction n with
  | zero => rfl
  | succ n ih =>
    have hn := h n (by omega)
    have := ih fun c hc => h c (by omega)
    simp only [State.swapGroups]
    rw [State.freg_setF_other _ hn.2, State.freg_setF_other _ hn.1, this]

/-- The members of the groups hold the blends of the old pair, where the groups fit and do not overlap (R252). -/
theorem State.freg_swapGroups_member (s : State) (fa fb : FReg) (sw : Lanes Bool) (n : Nat) (ha : fa.toNat + n ≤ 32)
    (hb : fb.toNat + n ≤ 32) (hd : fa.toNat + n ≤ fb.toNat ∨ fb.toNat + n ≤ fa.toNat) (c : Nat) (hc : c < n) :
    (s.swapGroups fa fb sw n).freg (groupReg fa c) = blend sw (s.freg (groupReg fa c)) (s.freg (groupReg fb c)) ∧
      (s.swapGroups fa fb sw n).freg (groupReg fb c) = blend sw (s.freg (groupReg fb c)) (s.freg (groupReg fa c)) := by
  have na : ∀ k, k < n → (groupReg fa k).toNat = fa.toNat + k := fun k hk => groupReg_toNat (by omega)
  have nb : ∀ k, k < n → (groupReg fb k).toNat = fb.toNat + k := fun k hk => groupReg_toNat (by omega)
  have ne : ∀ i j, i < n → j < n → groupReg fa i ≠ groupReg fb j := fun i j hi hj e => by
    have := congrArg BitVec.toNat e
    rw [na i hi, nb j hj] at this
    omega
  suffices H : ∀ m, m ≤ n → ∀ c, c < m →
      (s.swapGroups fa fb sw m).freg (groupReg fa c) = blend sw (s.freg (groupReg fa c)) (s.freg (groupReg fb c)) ∧
      (s.swapGroups fa fb sw m).freg (groupReg fb c) = blend sw (s.freg (groupReg fb c)) (s.freg (groupReg fa c)) from
    H n (Nat.le_refl n) c hc
  intro m
  induction m with
  | zero => intro _ c hc; omega
  | succ m ih =>
    intro hm c hc
    have out : ∀ q, (∀ k, k < m → q ≠ groupReg fa k ∧ q ≠ groupReg fb k) → (s.swapGroups fa fb sw m).freg q = s.freg q :=
      fun q => State.freg_swapGroups_outside s fa fb q sw m
    have fam : (s.swapGroups fa fb sw m).freg (groupReg fa m) = s.freg (groupReg fa m) := out _ fun k hk =>
      ⟨fun e => by have := groupReg_inj (by omega) (by omega) e; omega, ne m k (by omega) (by omega)⟩
    have fbm : (s.swapGroups fa fb sw m).freg (groupReg fb m) = s.freg (groupReg fb m) := out _ fun k hk =>
      ⟨fun e => ne k m (by omega) (by omega) e.symm, fun e => by have := groupReg_inj (by omega) (by omega) e; omega⟩
    simp only [State.swapGroups]
    by_cases e : c = m
    · subst e
      refine ⟨?_, ?_⟩
      · rw [State.freg_setF_other _ (ne c c (by omega) (by omega)), State.freg_setF_same, fam, fbm]
      · rw [State.freg_setF_same, fam, fbm]
    · have hcm : c < m := by omega
      have hi := ih (by omega) c hcm
      have ja : groupReg fa c ≠ groupReg fa m := fun h => e (groupReg_inj (by omega) (by omega) h)
      have jb : groupReg fb c ≠ groupReg fb m := fun h => e (groupReg_inj (by omega) (by omega) h)
      refine ⟨?_, ?_⟩
      · rw [State.freg_setF_other _ (ne c m (by omega) (by omega)), State.freg_setF_other _ ja, hi.1]
      · rw [State.freg_setF_other _ jb, State.freg_setF_other _ (fun h => ne m c (by omega) (by omega) h.symm), hi.2]

end Sys2Proof.Machine
end

