-- ==== Sys2Proof/Laws/Field.lean ====
section
/-! SUPPORT. What val, canon and limbs do to each other, that results mod p are reduced, and what the power function
computes. -/

namespace Sys2Proof.Machine

open Sys2Proof.Config

theorem p_pos : 0 < p := by decide +kernel

theorem p_lt : p < 2 ^ 255 := by decide +kernel

theorem redc_lt (r : Int) : redc r < p := by
  have h : (0 : Int) < p := by exact_mod_cast p_pos
  have h1 := Int.emod_lt_of_pos r h
  have h2 := Int.emod_nonneg r (ne_of_gt h)
  unfold redc
  omega

/-- redc is the remainder mod p as an integer. -/
theorem redc_cast (r : Int) : (redc r : Int) = r % p := by
  have h : (0 : Int) < p := by exact_mod_cast p_pos
  exact Int.toNat_of_nonneg (Int.emod_nonneg r (ne_of_gt h))

theorem redc_natCast (n : Nat) : redc (n : Int) = n % p := by
  have := redc_cast n
  exact_mod_cast this

theorem redc_of_lt {n : Nat} (h : n < p) : redc (n : Int) = n := by rw [redc_natCast, Nat.mod_eq_of_lt h]

/-- Integers congruent mod p have the same canonical limbs (R9). -/
theorem canon_congr {a b : Int} (h : a % (p : Int) = b % (p : Int)) : canon a = canon b := by
  unfold canon redc
  rw [h]

theorem canon_redc (r : Int) : canon (redc r : Int) = canon r := canon_congr (by rw [redc_cast, Int.emod_emod])

/-! ## Splitting a number into limbs -/

theorem splitLimbs_get (k top : Nat) (i : Fin 9) :
    (splitLimbs k top).get i = BitVec.ofNat 64 (if i.val < 8 then slice k (29 * i.val) 29 else slice k 232 top) := by
  simp [splitLimbs]

theorem slice_lt (v lo len : Nat) : slice v lo len < 2 ^ len := Nat.mod_lt _ (Nat.two_pow_pos len)

/-- Limbs 0 .. 7 of a split are below 2^29, limb 8 below 2^top. -/
theorem splitLimbs_toNat_lt (k top : Nat) (i : Fin 9) :
    ((splitLimbs k top).get i).toNat < if i.val < 8 then 2 ^ 29 else 2 ^ top := by
  rw [splitLimbs_get, BitVec.toNat_ofNat]
  split
  · exact Nat.lt_of_le_of_lt (Nat.mod_le _ _) (slice_lt _ _ _)
  · exact Nat.lt_of_le_of_lt (Nat.mod_le _ _) (slice_lt _ _ _)

/-- A number below 2^(232 + top) is the value of its split. -/
theorem val_splitLimbs {k top : Nat} (ht : top ≤ 64) (hk : k < 2 ^ (232 + top)) : val (splitLimbs k top) = k := by
  have e : ∀ (n len : Nat), len ≤ 64 → (BitVec.ofNat 64 (slice k n len)).toNat = slice k n len := fun n len h => by
    rw [BitVec.toNat_ofNat]
    exact Nat.mod_eq_of_lt (Nat.lt_of_lt_of_le (slice_lt k n len) (Nat.pow_le_pow_right (by omega) h))
  have top_part : slice k 232 top = k / 2 ^ 232 := Nat.mod_eq_of_lt (by
    rw [Nat.div_lt_iff_lt_mul (Nat.two_pow_pos 232), ← Nat.pow_add, Nat.add_comm]
    exact hk)
  unfold val
  simp only [splitLimbs_get]
  simp only [show ((0 : Fin 9).val) = 0 from rfl, show ((1 : Fin 9).val) = 1 from rfl, show ((2 : Fin 9).val) = 2 from rfl,
    show ((3 : Fin 9).val) = 3 from rfl, show ((4 : Fin 9).val) = 4 from rfl, show ((5 : Fin 9).val) = 5 from rfl,
    show ((6 : Fin 9).val) = 6 from rfl, show ((7 : Fin 9).val) = 7 from rfl, show ((8 : Fin 9).val) = 8 from rfl]
  norm_num only [if_true, if_false]
  rw [e _ _ (by omega), e _ _ (by omega), e _ _ (by omega), e _ _ (by omega), e _ _ (by omega), e _ _ (by omega),
    e _ _ (by omega), e _ _ (by omega), e _ _ ht, top_part]
  unfold slice
  omega

/-- limbs does not reduce: val(limbs(k)) = k for k < 2^256 (R10). -/
theorem val_limbs {k : Nat} (h : k < 2 ^ 256) : val (limbs k) = k := val_splitLimbs (by omega) (by simpa using h)

/-- canon represents its argument mod p: val(canon(v)) = v mod p (R9). -/
theorem val_canon (r : Int) : val (canon r) = redc r :=
  val_splitLimbs (by omega) (Nat.lt_trans (redc_lt r) p_lt)

theorem val_canon_cast (r : Int) : (val (canon r) : Int) = r % p := by rw [val_canon, redc_cast]

theorem val_canon_lt (r : Int) : val (canon r) < p := by rw [val_canon]; exact redc_lt r

/-- A canonical vector is its own canonical vector (R191). -/
theorem canon_val_canon (r : Int) : canon (val (canon r) : Int) = canon r := by rw [val_canon, canon_redc]

/-! ## Operations mod p -/

theorem gfAdd_lt (a b : Nat) : gfAdd a b < p := Nat.mod_lt _ p_pos
theorem gfMul_lt (a b : Nat) : gfMul a b < p := Nat.mod_lt _ p_pos
theorem gfSub_lt (a b : Nat) : gfSub a b < p := redc_lt _
theorem gfNeg_lt (a : Nat) : gfNeg a < p := redc_lt _

theorem gfAdd_cast (a b : Nat) : (gfAdd a b : Int) = ((a : Int) + b) % p := by simp [gfAdd]
theorem gfMul_cast (a b : Nat) : (gfMul a b : Int) = ((a : Int) * b) % p := by simp [gfMul]
theorem gfSub_cast (a b : Nat) : (gfSub a b : Int) = ((a : Int) - b) % p := redc_cast _
theorem gfNeg_cast (a : Nat) : (gfNeg a : Int) = (-(a : Int)) % p := redc_cast _
theorem gfSqr_cast (a : Nat) : (gfSqr a : Int) = ((a : Int) * a) % p := gfMul_cast a a

theorem fieldAt_lt (s : State) (r : FReg) (l : Lane) : s.fieldAt r l < p := Nat.mod_lt _ p_pos

/-- The power function computes a^e mod p (R11, R188). -/
theorem gfPow_eq (n : Nat) : ∀ (a e : Nat), e < 2 ^ n → gfPow a n e = a ^ e % p := by
  induction n with
  | zero =>
    intro a e h
    have : e = 0 := by simpa using h
    subst this
    rfl
  | succ n ih =>
    intro a e h
    have h2 : e / 2 < 2 ^ n := by rw [Nat.pow_succ] at h; omega
    have sq : gfSqr a ^ (e / 2) % p = a ^ (2 * (e / 2)) % p := by
      rw [gfSqr, gfMul, ← Nat.pow_mod, ← Nat.pow_two, ← Nat.pow_mul]
    unfold gfPow
    split
    · rename_i hodd
      rw [ih _ _ h2, sq, gfMul, Nat.mul_mod_mod, ← Nat.pow_succ']
      congr 2
      omega
    · rename_i heven
      rw [ih _ _ h2, sq]
      congr 2
      omega

/-- inv(a) = a^(p-2) mod p (R11). -/
theorem gfInv_eq (a : Nat) : gfInv a = a ^ (p - 2) % p := gfPow_eq 255 a (p - 2) (by decide +kernel)

theorem gfInv_lt (a : Nat) : gfInv a < p := by rw [gfInv_eq]; exact Nat.mod_lt _ p_pos

/-! ## In the ring of integers mod p -/

/-- Integers agree mod p exactly when they are equal in the ring of integers mod p. -/
theorem emod_p_iff (a b : Int) : a % (p : Int) = b % (p : Int) ↔ (a : ZMod p) = (b : ZMod p) :=
  (ZMod.intCast_eq_intCast_iff' a b p).symm

theorem mod_p_iff (a b : Nat) : a % p = b % p ↔ (a : ZMod p) = (b : ZMod p) := (ZMod.natCast_eq_natCast_iff' a b p).symm

theorem mod_p_zmod (a : Nat) : ((a % p : Nat) : ZMod p) = (a : ZMod p) := ZMod.natCast_mod a p

theorem redc_zmod (r : Int) : ((redc r : Nat) : ZMod p) = (r : ZMod p) := by
  rw [← Int.cast_natCast, redc_cast, ZMod.intCast_mod]

theorem gfAdd_zmod (a b : Nat) : ((gfAdd a b : Nat) : ZMod p) = a + b := by
  rw [gfAdd, mod_p_zmod, Nat.cast_add]

theorem gfMul_zmod (a b : Nat) : ((gfMul a b : Nat) : ZMod p) = a * b := by
  rw [gfMul, mod_p_zmod, Nat.cast_mul]

theorem gfSqr_zmod (a : Nat) : ((gfSqr a : Nat) : ZMod p) = a * a := gfMul_zmod a a

theorem gfSub_zmod (a b : Nat) : ((gfSub a b : Nat) : ZMod p) = a - b := by
  rw [gfSub, redc_zmod, Int.cast_sub, Int.cast_natCast, Int.cast_natCast]

theorem gfNeg_zmod (a : Nat) : ((gfNeg a : Nat) : ZMod p) = -a := by
  rw [gfNeg, redc_zmod, Int.cast_neg, Int.cast_natCast]

theorem gfInv_zmod (a : Nat) : ((gfInv a : Nat) : ZMod p) = (a : ZMod p) ^ (p - 2) := by
  rw [gfInv_eq, mod_p_zmod, Nat.cast_pow]

/-- The value mod p of a register's lane. -/
theorem fieldAt_zmod (s : State) (r : FReg) (l : Lane) : (s.fieldAt r l : ZMod p) = (val ((s.freg r).get l) : ZMod p) :=
  mod_p_zmod _

theorem val_canon_zmod (r : Int) : ((val (canon r) : Nat) : ZMod p) = (r : ZMod p) := by rw [val_canon, redc_zmod]

/-- Reduced numbers that agree in the ring are equal. -/
theorem eq_of_zmod_eq {a b : Nat} (ha : a < p) (hb : b < p) (h : (a : ZMod p) = (b : ZMod p)) : a = b := by
  have := (mod_p_iff a b).2 h
  rwa [Nat.mod_eq_of_lt ha, Nat.mod_eq_of_lt hb] at this

/-- Integers that agree in the ring have the same canonical limbs. -/
theorem canon_eq_of_zmod_eq {a b : Int} (h : (a : ZMod p) = (b : ZMod p)) : canon a = canon b :=
  canon_congr ((emod_p_iff a b).2 h)

/-! ## The common rule of the field instructions -/

/-- A field instruction answers the next state in which the destination holds, in each lane, the canonical limbs of the
integer computed there, and the PC has advanced (R180). -/
theorem fieldOp_eq (fd : FReg) (r : Lane → Int) (s : State) :
    fieldOp fd r s = .next (s.setF fd (forEachLane fun l => canon (r l))).advance := rfl

end Sys2Proof.Machine
end

