-- ==== Sys2Proof/Laws/Prime.lean ====
section
/-! SUPPORT. p = 2^255 - 19 is prime, by a chain of Lucas certificates, and what follows for inversion
(spec/42_field.md R188). -/

namespace Sys2Proof.Machine

open Sys2Proof.Config

/-- a^e mod m for e < 2^n, by one squaring per bit of e. -/
def powMod (m : Nat) : (n a e : Nat) → Nat
  | 0, _, _ => 1 % m
  | n + 1, a, e => if e % 2 = 1 then a * powMod m n (a * a % m) (e / 2) % m else powMod m n (a * a % m) (e / 2)

theorem powMod_eq (m n : Nat) : ∀ (a e : Nat), e < 2 ^ n → powMod m n a e = a ^ e % m := by
  induction n with
  | zero =>
    intro a e h
    have : e = 0 := by simpa using h
    subst this
    rfl
  | succ n ih =>
    intro a e h
    have h2 : e / 2 < 2 ^ n := by rw [Nat.pow_succ] at h; omega
    have sq : (a * a % m) ^ (e / 2) % m = a ^ (2 * (e / 2)) % m := by
      rw [← Nat.pow_mod, ← Nat.pow_two, ← Nat.pow_mul]
    unfold powMod
    split
    · rename_i hodd
      rw [ih _ _ h2, sq, Nat.mul_mod_mod, ← Nat.pow_succ']
      congr 2
      omega
    · rename_i heven
      rw [ih _ _ h2, sq]
      congr 2
      omega

/-- A Lucas certificate: a has order q - 1 modulo q, checked at the prime factors of q - 1. -/
theorem prime_of_factors {q : Nat} (a : Nat) (fs : List Nat) (hq : 1 < q ∧ q < 2 ^ 256) (hfs : ∀ f ∈ fs, f.Prime)
    (hprod : fs.prod = q - 1) (h1 : powMod q 256 a (q - 1) = 1)
    (h2 : ∀ f ∈ fs, powMod q 256 a ((q - 1) / f) ≠ 1) : q.Prime := by
  have cast : ∀ e, e < 2 ^ 256 → ((a : ZMod q) ^ e = 1 ↔ powMod q 256 a e = 1) := fun e he => by
    rw [powMod_eq q 256 a e he, ← Nat.cast_pow, ← Nat.cast_one, ZMod.natCast_eq_natCast_iff', Nat.mod_eq_of_lt hq.1]
  refine lucas_primality q (a : ZMod q) ((cast _ (by omega)).2 h1) fun r hr hd => ?_
  obtain ⟨f, hf, hrf⟩ := (Prime.dvd_prod_iff hr.prime).1 (hprod ▸ hd)
  have e : r = f := (Nat.prime_dvd_prime_iff_eq hr (hfs f hf)).1 hrf
  subst e
  exact fun h => h2 r hf ((cast _ (Nat.lt_of_le_of_lt (Nat.div_le_self _ _) (by omega))).1 h)

theorem prime_a : Nat.Prime 31757755568855353 := by
  refine prime_of_factors 10
    [2, 2, 2, 3, 31, 107, 223, 4153, 430751]
    (by decide +kernel) ?_ (by decide +kernel) (by decide +kernel) (by decide +kernel)
  simp only [List.forall_mem_cons, List.not_mem_nil, false_imp_iff, implies_true, and_true]
  refine ⟨by norm_num, by norm_num, by norm_num, by norm_num, by norm_num, by norm_num, by norm_num, by norm_num, by norm_num⟩

theorem prime_b : Nat.Prime 2773320623 := by
  refine prime_of_factors 5
    [2, 2437, 569003]
    (by decide +kernel) ?_ (by decide +kernel) (by decide +kernel) (by decide +kernel)
  simp only [List.forall_mem_cons, List.not_mem_nil, false_imp_iff, implies_true, and_true]
  refine ⟨by norm_num, by norm_num, by norm_num⟩

theorem prime_c : Nat.Prime 72106336199 := by
  refine prime_of_factors 7
    [2, 13, 2773320623]
    (by decide +kernel) ?_ (by decide +kernel) (by decide +kernel) (by decide +kernel)
  simp only [List.forall_mem_cons, List.not_mem_nil, false_imp_iff, implies_true, and_true]
  refine ⟨by norm_num, by norm_num, prime_b⟩

theorem prime_d : Nat.Prime 1919519569386763 := by
  refine prime_of_factors 2
    [2, 3, 7, 19, 47, 47, 127, 8574133]
    (by decide +kernel) ?_ (by decide +kernel) (by decide +kernel) (by decide +kernel)
  simp only [List.forall_mem_cons, List.not_mem_nil, false_imp_iff, implies_true, and_true]
  refine ⟨by norm_num, by norm_num, by norm_num, by norm_num, by norm_num, by norm_num, by norm_num, by norm_num⟩

theorem prime_e : Nat.Prime 75445702479781427272750846543864801 := by
  refine prime_of_factors 7
    [2, 2, 2, 2, 2, 3, 3, 5, 5, 75707, 72106336199, 1919519569386763]
    (by decide +kernel) ?_ (by decide +kernel) (by decide +kernel) (by decide +kernel)
  simp only [List.forall_mem_cons, List.not_mem_nil, false_imp_iff, implies_true, and_true]
  refine ⟨by norm_num, by norm_num, by norm_num, by norm_num, by norm_num, by norm_num, by norm_num, by norm_num, by norm_num, by norm_num, prime_c, prime_d⟩

theorem prime_f : Nat.Prime 74058212732561358302231226437062788676166966415465897661863160754340907 := by
  refine prime_of_factors 2
    [2, 3, 353, 57467, 132049, 1923133, 31757755568855353, 75445702479781427272750846543864801]
    (by decide +kernel) ?_ (by decide +kernel) (by decide +kernel) (by decide +kernel)
  simp only [List.forall_mem_cons, List.not_mem_nil, false_imp_iff, implies_true, and_true]
  refine ⟨by norm_num, by norm_num, by norm_num, by norm_num, by norm_num, by norm_num, prime_a, prime_e⟩

/-- The modulus of the field is prime. -/
theorem p_prime : Nat.Prime p := by
  refine prime_of_factors 2
    [2, 2, 3, 65147, 74058212732561358302231226437062788676166966415465897661863160754340907]
    (by decide +kernel) ?_ (by decide +kernel) (by decide +kernel) (by decide +kernel)
  simp only [List.forall_mem_cons, List.not_mem_nil, false_imp_iff, implies_true, and_true]
  refine ⟨by norm_num, by norm_num, by norm_num, by norm_num, prime_f⟩

/-- The inverse of a nonzero value is an inverse (R188). -/
theorem mul_gfInv {a : Nat} (h : a % p ≠ 0) : a * gfInv a % p = 1 := by
  have : Fact (Nat.Prime p) := ⟨p_prime⟩
  have hp : 2 < p := by decide +kernel
  have hz : (a : ZMod p) ≠ 0 := fun e => h (by
    rw [← Nat.cast_zero, ZMod.natCast_eq_natCast_iff'] at e
    simpa using e)
  rw [gfInv_eq, Nat.mul_mod_mod, ← Nat.pow_succ', show (p - 2).succ = p - 1 by omega]
  have := ZMod.pow_card_sub_one_eq_one hz
  rw [← Nat.cast_pow, show (1 : ZMod p) = ((1 : Nat) : ZMod p) from Nat.cast_one.symm, ZMod.natCast_eq_natCast_iff'] at this
  rw [this, Nat.mod_eq_of_lt (by omega)]

/-- The inverse of zero is zero (R188). -/
theorem gfInv_of_zero {a : Nat} (h : a % p = 0) : gfInv a = 0 := by
  have hp : 2 < p := by decide +kernel
  rw [gfInv_eq, Nat.pow_mod, h, Nat.zero_pow (by omega)]
  rfl

end Sys2Proof.Machine
end

