-- ==== Sys2Proof/Laws/Curve.lean ====
section
/-! SUPPORT. The curve -x² + y² = 1 + d·x²·y² over the field: -1 is a square, d is not, and so no denominator of the group
law vanishes (the completeness that spec/44_edwards.md R227 rests on). -/

namespace Sys2Proof.Machine

open Sys2Proof.Config

/-- A square root of -1 mod p, 2^((p-1)/4). -/
def rootMinusOne : Nat := 0x2b8324804fc1df0b2b4d00993dfbd7a72f431806ad2fe478c4ee1b274a0ea0b0

theorem rootMinusOne_sq : (rootMinusOne : ZMod p) * rootMinusOne = -1 := by
  have h : ((rootMinusOne * rootMinusOne + 1) % p : Nat) = 0 := by decide +kernel
  have := mod_p_zmod (rootMinusOne * rootMinusOne + 1)
  rw [h] at this
  push_cast at this
  exact eq_neg_of_add_eq_zero_left this.symm

/-- d is no square mod p, by Euler's criterion. -/
theorem edwardsD_not_square : ¬ IsSquare (edwardsD : ZMod p) := by
  have : Fact (Nat.Prime p) := ⟨p_prime⟩
  have e : ((gfPow edwardsD 255 (p / 2) : Nat) : ZMod p) = (edwardsD : ZMod p) ^ (p / 2) := by
    rw [gfPow_eq 255 _ _ (by decide +kernel), mod_p_zmod, Nat.cast_pow]
  have v : gfPow edwardsD 255 (p / 2) = p - 1 := by decide +kernel
  have d0 : (edwardsD : ZMod p) ≠ 0 := fun h => by
    rw [← Nat.cast_zero, ← mod_p_iff] at h
    revert h
    decide +kernel
  rw [ZMod.euler_criterion p d0, ← e, v]
  intro h
  have h : ((p - 1 : Nat) : ZMod p) = ((1 : Nat) : ZMod p) := by rw [h, Nat.cast_one]
  rw [← mod_p_iff] at h
  revert h
  decide +kernel

/-- Completeness: for two points of the curve neither 1 + k nor 1 - k is 0, k = d·x1·x2·y1·y2. -/
theorem curve_complete {x1 y1 x2 y2 : ZMod p} (h1 : y1 * y1 - x1 * x1 = 1 + edwardsD * x1 * x1 * y1 * y1)
    (h2 : y2 * y2 - x2 * x2 = 1 + edwardsD * x2 * x2 * y2 * y2) :
    1 + edwardsD * (x1 * x2 * y1 * y2) ≠ 0 ∧ 1 - edwardsD * (x1 * x2 * y1 * y2) ≠ 0 := by
  have : Fact (Nat.Prime p) := ⟨p_prime⟩
  have i2 := rootMinusOne_sq
  have nsq := edwardsD_not_square
  generalize (rootMinusOne : ZMod p) = i at *
  generalize (edwardsD : ZMod p) = d at *
  -- with k = c and c² = 1, d is the square of a quotient
  have key : ∀ c : ZMod p, c * c = 1 → d * (x1 * x2 * y1 * y2) ≠ c := by
    intro c hc hk
    have nz : x1 * y1 ≠ 0 := fun h => by
      have : d * (x1 * x2 * y1 * y2) = 0 := by linear_combination d * x2 * y2 * h
      rw [this] at hk
      rw [← hk, mul_zero] at hc
      exact zero_ne_one hc
    have sq : ∀ u : ZMod p, u * u = 1 → (x1 * i + u * c * y1) ^ 2 = d * ((x1 * y1) * (x2 * i + u * y2)) ^ 2 := by
      intro u hu
      linear_combination (x1 ^ 2 - d * x1 ^ 2 * y1 ^ 2 * x2 ^ 2) * i2 + (c ^ 2 * y1 ^ 2 - d * x1 ^ 2 * y1 ^ 2 * y2 ^ 2) * hu +
        (y1 ^ 2 - 1) * hc + h1 - d * x1 ^ 2 * y1 ^ 2 * h2 - (d * (x1 * x2 * y1 * y2) + c + 2 * u * i * x1 * y1) * hk
    have zero : ∀ u : ZMod p, u * u = 1 → x2 * i + u * y2 = 0 := by
      intro u hu
      by_contra h
      have q : (x1 * y1) * (x2 * i + u * y2) ≠ 0 := mul_ne_zero nz h
      refine nsq ⟨(x1 * i + u * c * y1) / ((x1 * y1) * (x2 * i + u * y2)), ?_⟩
      rw [div_mul_div_comm, eq_div_iff (mul_ne_zero q q)]
      linear_combination -(sq u hu)
    have y0 : y2 * y2 = 0 := by
      have e1 := zero 1 (by ring)
      have e2 := zero (-1) (by ring)
      have : (4 : ZMod p) * (y2 * y2) = 0 := by linear_combination 2 * y2 * (e1 - e2)
      have four : ((4 : Nat) : ZMod p) ≠ 0 := fun h => by
        rw [← Nat.cast_zero, ← mod_p_iff] at h
        revert h
        decide +kernel
      exact (mul_eq_zero.1 this).resolve_left (by exact_mod_cast four)
    rw [mul_self_eq_zero.1 y0, mul_zero, mul_zero] at hk
    rw [← hk, mul_zero] at hc
    exact zero_ne_one hc
  exact ⟨fun h => key (-1) (by ring) (by linear_combination h), fun h => key 1 (by ring) (by linear_combination -h)⟩

/-! ## Points in the field -/

/-- A coordinate is not 0 mod p. -/
theorem mod_p_ne_zero_iff {a : Nat} : a % p ≠ 0 ↔ (a : ZMod p) ≠ 0 := by
  rw [not_iff_not, show (0 : ZMod p) = ((0 : Nat) : ZMod p) by simp, ← mod_p_iff]; simp

theorem gfInv_mul_zmod {n : Nat} (h : (n : ZMod p) ≠ 0) : ((gfInv n : Nat) : ZMod p) * n = 1 := by
  have := mul_gfInv (mod_p_ne_zero_iff.2 h)
  have k : ((n * gfInv n % p : Nat) : ZMod p) = ((1 : Nat) : ZMod p) := by rw [this]
  rw [mod_p_zmod, Nat.cast_mul, Nat.cast_one] at k
  rw [mul_comm]; exact k

/-- The affine sum by its two equations, where neither denominator vanishes. -/
theorem AffinePoint.add_zmod (C D : AffinePoint)
    (h1 : (1 + edwardsD * (C.x * D.x * C.y * D.y) : ZMod p) ≠ 0)
    (h2 : (1 - edwardsD * (C.x * D.x * C.y * D.y) : ZMod p) ≠ 0) :
    ((C.add D).x : ZMod p) * (1 + edwardsD * (C.x * D.x * C.y * D.y)) = C.x * D.y + D.x * C.y ∧
    ((C.add D).y : ZMod p) * (1 - edwardsD * (C.x * D.x * C.y * D.y)) = C.y * D.y + D.x * C.x := by
  simp only [AffinePoint.add, gfMul_zmod]
  constructor
  · have e : ((gfAdd 1 (gfMul (gfMul edwardsD (gfMul C.x D.x)) (gfMul C.y D.y)) : Nat) : ZMod p) =
        1 + edwardsD * (C.x * D.x * C.y * D.y) := by
      simp only [gfMul_zmod, gfAdd_zmod, Nat.cast_one]; ring
    have i := gfInv_mul_zmod (n := gfAdd 1 (gfMul (gfMul edwardsD (gfMul C.x D.x)) (gfMul C.y D.y)))
      (by rw [e]; exact h1)
    rw [e] at i
    rw [mul_assoc, i, mul_one]
    simp only [gfMul_zmod, gfAdd_zmod]
  · have e : ((gfSub 1 (gfMul (gfMul edwardsD (gfMul C.x D.x)) (gfMul C.y D.y)) : Nat) : ZMod p) =
        1 - edwardsD * (C.x * D.x * C.y * D.y) := by
      simp only [gfMul_zmod, gfSub_zmod, Nat.cast_one]; ring
    have i := gfInv_mul_zmod (n := gfSub 1 (gfMul (gfMul edwardsD (gfMul C.x D.x)) (gfMul C.y D.y)))
      (by rw [e]; exact h2)
    rw [e] at i
    rw [mul_assoc, i, mul_one]
    simp only [gfMul_zmod, gfAdd_zmod]; ring

/-! The products that give X and Y of both formulas. -/

theorem edAdd_X (P : ExtPoint) (Q : Duif) : (edAdd P Q).X =
    gfMul (edAdd P Q).E (gfSub P.Z (gfMul (gfMul P.E P.H) Q.t2)) := by rw [edAdd]

theorem edAdd_Y (P : ExtPoint) (Q : Duif) : (edAdd P Q).Y =
    gfMul (gfAdd P.Z (gfMul (gfMul P.E P.H) Q.t2)) (edAdd P Q).H := by rw [edAdd]

theorem edDbl_X (P : ExtPoint) : (edDbl P).X =
    gfMul (edDbl P).E (gfSub (gfAdd (gfNeg (gfSqr P.X)) (gfSqr P.Y)) (gfMul 2 (gfSqr P.Z))) := by rw [edDbl]

theorem edDbl_Y (P : ExtPoint) : (edDbl P).Y =
    gfMul (gfAdd (gfNeg (gfSqr P.X)) (gfSqr P.Y)) (edDbl P).H := by rw [edDbl]

end Sys2Proof.Machine
end

