-- ==== Sys2Proof/Laws/Formats.lean ====
section
/-! SUPPORT. The formats of spec/30_encoding.md R102 to R108, field by field: reading a field of a format gives the field,
and the mask of an opcode-table row keeps exactly the opcode and the function code. -/

namespace Sys2Proof

theorem formatR_rd (op rd ra rb fn : BitVec 5) : bits (formatR op rd ra rb fn) 22 5 = rd := by
  apply BitVec.eq_of_getLsbD_eq
  intro i hi
  simp only [bits, formatR, BitVec.getLsbD_extractLsb', BitVec.getLsbD_append]
  interval_cases i <;> simp

theorem formatR_ra (op rd ra rb fn : BitVec 5) : bits (formatR op rd ra rb fn) 17 5 = ra := by
  apply BitVec.eq_of_getLsbD_eq
  intro i hi
  simp only [bits, formatR, BitVec.getLsbD_extractLsb', BitVec.getLsbD_append]
  interval_cases i <;> simp

theorem formatR_rb (op rd ra rb fn : BitVec 5) : bits (formatR op rd ra rb fn) 12 5 = rb := by
  apply BitVec.eq_of_getLsbD_eq
  intro i hi
  simp only [bits, formatR, BitVec.getLsbD_extractLsb', BitVec.getLsbD_append]
  interval_cases i <;> simp

theorem formatR_mask_F8000FFF (op : BitVec 5) (rd : BitVec 5) (ra : BitVec 5) (rb : BitVec 5) (fn : BitVec 5) : formatR op rd ra rb fn &&& 0xF8000FFF = formatR op 0 0 0 fn := by
  apply BitVec.eq_of_getLsbD_eq
  intro i hi
  simp only [formatR, BitVec.getLsbD_and, BitVec.getLsbD_append]
  interval_cases i <;> simp

theorem formatR_mask_F801FFFF (op : BitVec 5) (rd : BitVec 5) (ra : BitVec 5) (fn : BitVec 5) : formatR op rd ra 0 fn &&& 0xF801FFFF = formatR op 0 0 0 fn := by
  apply BitVec.eq_of_getLsbD_eq
  intro i hi
  simp only [formatR, BitVec.getLsbD_and, BitVec.getLsbD_append]
  interval_cases i <;> simp

theorem formatR_mask_F83FFFFF (op : BitVec 5) (rd : BitVec 5) (fn : BitVec 5) : formatR op rd 0 0 fn &&& 0xF83FFFFF = formatR op 0 0 0 fn := by
  apply BitVec.eq_of_getLsbD_eq
  intro i hi
  simp only [formatR, BitVec.getLsbD_and, BitVec.getLsbD_append]
  interval_cases i <;> simp

theorem formatR_mask_F83E0FFF (op : BitVec 5) (rd : BitVec 5) (rb : BitVec 5) (fn : BitVec 5) : formatR op rd 0 rb fn &&& 0xF83E0FFF = formatR op 0 0 0 fn := by
  apply BitVec.eq_of_getLsbD_eq
  intro i hi
  simp only [formatR, BitVec.getLsbD_and, BitVec.getLsbD_append]
  interval_cases i <;> simp

theorem formatK_rd (op rd ra : BitVec 5) (imm : Imm17) : bits (formatK op rd ra imm) 22 5 = rd := by
  apply BitVec.eq_of_getLsbD_eq
  intro i hi
  simp only [bits, formatK, BitVec.getLsbD_extractLsb', BitVec.getLsbD_append]
  interval_cases i <;> simp

theorem formatK_ra (op rd ra : BitVec 5) (imm : Imm17) : bits (formatK op rd ra imm) 17 5 = ra := by
  apply BitVec.eq_of_getLsbD_eq
  intro i hi
  simp only [bits, formatK, BitVec.getLsbD_extractLsb', BitVec.getLsbD_append]
  interval_cases i <;> simp

theorem formatK_imm (op rd ra : BitVec 5) (imm : Imm17) : bits (formatK op rd ra imm) 0 17 = imm := by
  apply BitVec.eq_of_getLsbD_eq
  intro i hi
  simp only [bits, formatK, BitVec.getLsbD_extractLsb', BitVec.getLsbD_append]
  interval_cases i <;> simp

theorem formatK_mask_F8000000 (op : BitVec 5) (rd : BitVec 5) (ra : BitVec 5) (imm : Imm17) : formatK op rd ra imm &&& 0xF8000000 = formatK op 0 0 0 := by
  apply BitVec.eq_of_getLsbD_eq
  intro i hi
  simp only [formatK, BitVec.getLsbD_and, BitVec.getLsbD_append]
  interval_cases i <;> simp

theorem formatK_mask_F83E0000 (op : BitVec 5) (rd : BitVec 5) (imm : Imm17) : formatK op rd 0 imm &&& 0xF83E0000 = formatK op 0 0 0 := by
  apply BitVec.eq_of_getLsbD_eq
  intro i hi
  simp only [formatK, BitVec.getLsbD_and, BitVec.getLsbD_append]
  interval_cases i <;> simp

theorem formatJ_ca (op : BitVec 5) (ca : CReg) (tgt : Half) : bits (formatJ op ca tgt) 24 3 = ca := by
  apply BitVec.eq_of_getLsbD_eq
  intro i hi
  simp only [bits, formatJ, BitVec.getLsbD_extractLsb', BitVec.getLsbD_append]
  interval_cases i <;> simp

theorem formatJ_tgt (op : BitVec 5) (ca : CReg) (tgt : Half) : bits (formatJ op ca tgt) 0 16 = tgt := by
  apply BitVec.eq_of_getLsbD_eq
  intro i hi
  simp only [bits, formatJ, BitVec.getLsbD_extractLsb', BitVec.getLsbD_append]
  interval_cases i <;> simp

theorem formatJ_mask_FFFF0000 (op : BitVec 5) (tgt : Half) : formatJ op 0 tgt &&& 0xFFFF0000 = formatJ op 0 0 := by
  apply BitVec.eq_of_getLsbD_eq
  intro i hi
  simp only [formatJ, BitVec.getLsbD_and, BitVec.getLsbD_append]
  interval_cases i <;> simp

theorem formatJ_mask_F8FF0000 (op : BitVec 5) (ca : CReg) (tgt : Half) : formatJ op ca tgt &&& 0xF8FF0000 = formatJ op 0 0 := by
  apply BitVec.eq_of_getLsbD_eq
  intro i hi
  simp only [formatJ, BitVec.getLsbD_and, BitVec.getLsbD_append]
  interval_cases i <;> simp

theorem formatC_cd (op : BitVec 5) (cd : CReg) (imm : Half) : bits (formatC op cd imm) 24 3 = cd := by
  apply BitVec.eq_of_getLsbD_eq
  intro i hi
  simp only [bits, formatC, BitVec.getLsbD_extractLsb', BitVec.getLsbD_append]
  interval_cases i <;> simp

theorem formatC_imm (op : BitVec 5) (cd : CReg) (imm : Half) : bits (formatC op cd imm) 0 16 = imm := by
  apply BitVec.eq_of_getLsbD_eq
  intro i hi
  simp only [bits, formatC, BitVec.getLsbD_extractLsb', BitVec.getLsbD_append]
  interval_cases i <;> simp

theorem formatC_mask_F8FF0000 (op : BitVec 5) (cd : CReg) (imm : Half) : formatC op cd imm &&& 0xF8FF0000 = formatC op 0 0 := by
  apply BitVec.eq_of_getLsbD_eq
  intro i hi
  simp only [formatC, BitVec.getLsbD_and, BitVec.getLsbD_append]
  interval_cases i <;> simp

theorem formatM_r (op r : BitVec 5) (ca : CReg) (addr : Half) : bits (formatM op r ca addr) 22 5 = r := by
  apply BitVec.eq_of_getLsbD_eq
  intro i hi
  simp only [bits, formatM, BitVec.getLsbD_extractLsb', BitVec.getLsbD_append]
  interval_cases i <;> simp

theorem formatM_ca (op r : BitVec 5) (ca : CReg) (addr : Half) : bits (formatM op r ca addr) 19 3 = ca := by
  apply BitVec.eq_of_getLsbD_eq
  intro i hi
  simp only [bits, formatM, BitVec.getLsbD_extractLsb', BitVec.getLsbD_append]
  interval_cases i <;> simp

theorem formatM_addr (op r : BitVec 5) (ca : CReg) (addr : Half) : bits (formatM op r ca addr) 0 16 = addr := by
  apply BitVec.eq_of_getLsbD_eq
  intro i hi
  simp only [bits, formatM, BitVec.getLsbD_extractLsb', BitVec.getLsbD_append]
  interval_cases i <;> simp

theorem formatM_mask_F8070000 (op : BitVec 5) (r : BitVec 5) (ca : CReg) (addr : Half) : formatM op r ca addr &&& 0xF8070000 = formatM op 0 0 0 := by
  apply BitVec.eq_of_getLsbD_eq
  intro i hi
  simp only [formatM, BitVec.getLsbD_and, BitVec.getLsbD_append]
  interval_cases i <;> simp

theorem formatS_fa (op : BitVec 5) (fa fb : FReg) (sa : SReg) (cc : CReg) (n : BitVec 2) (fn : BitVec 5) : bits (formatS op fa fb sa cc n fn) 22 5 = fa := by
  apply BitVec.eq_of_getLsbD_eq
  intro i hi
  simp only [bits, formatS, BitVec.getLsbD_extractLsb', BitVec.getLsbD_append]
  interval_cases i <;> simp

theorem formatS_fb (op : BitVec 5) (fa fb : FReg) (sa : SReg) (cc : CReg) (n : BitVec 2) (fn : BitVec 5) : bits (formatS op fa fb sa cc n fn) 17 5 = fb := by
  apply BitVec.eq_of_getLsbD_eq
  intro i hi
  simp only [bits, formatS, BitVec.getLsbD_extractLsb', BitVec.getLsbD_append]
  interval_cases i <;> simp

theorem formatS_sa (op : BitVec 5) (fa fb : FReg) (sa : SReg) (cc : CReg) (n : BitVec 2) (fn : BitVec 5) : bits (formatS op fa fb sa cc n fn) 15 2 = sa := by
  apply BitVec.eq_of_getLsbD_eq
  intro i hi
  simp only [bits, formatS, BitVec.getLsbD_extractLsb', BitVec.getLsbD_append]
  interval_cases i <;> simp

theorem formatS_cc (op : BitVec 5) (fa fb : FReg) (sa : SReg) (cc : CReg) (n : BitVec 2) (fn : BitVec 5) : bits (formatS op fa fb sa cc n fn) 12 3 = cc := by
  apply BitVec.eq_of_getLsbD_eq
  intro i hi
  simp only [bits, formatS, BitVec.getLsbD_extractLsb', BitVec.getLsbD_append]
  interval_cases i <;> simp

theorem formatS_n (op : BitVec 5) (fa fb : FReg) (sa : SReg) (cc : CReg) (n : BitVec 2) (fn : BitVec 5) : bits (formatS op fa fb sa cc n fn) 10 2 = n := by
  apply BitVec.eq_of_getLsbD_eq
  intro i hi
  simp only [bits, formatS, BitVec.getLsbD_extractLsb', BitVec.getLsbD_append]
  interval_cases i <;> simp

theorem formatS_mask_F80003FF (op : BitVec 5) (fa : FReg) (fb : FReg) (sa : SReg) (cc : CReg) (n : BitVec 2) (fn : BitVec 5) : formatS op fa fb sa cc n fn &&& 0xF80003FF = formatS op 0 0 0 0 0 fn := by
  apply BitVec.eq_of_getLsbD_eq
  intro i hi
  simp only [formatS, BitVec.getLsbD_and, BitVec.getLsbD_append]
  interval_cases i <;> simp

theorem formatS_mask_F801F3FF (op : BitVec 5) (fa : FReg) (fb : FReg) (n : BitVec 2) (fn : BitVec 5) : formatS op fa fb 0 0 n fn &&& 0xF801F3FF = formatS op 0 0 0 0 0 fn := by
  apply BitVec.eq_of_getLsbD_eq
  intro i hi
  simp only [formatS, BitVec.getLsbD_and, BitVec.getLsbD_append]
  interval_cases i <;> simp

theorem formatT_fd (op : BitVec 5) (fd : FReg) (dd : DReg) (cc : CReg) : bits (formatT op fd dd cc) 22 5 = fd := by
  apply BitVec.eq_of_getLsbD_eq
  intro i hi
  simp only [bits, formatT, BitVec.getLsbD_extractLsb', BitVec.getLsbD_append]
  interval_cases i <;> simp

theorem formatT_dd (op : BitVec 5) (fd : FReg) (dd : DReg) (cc : CReg) : bits (formatT op fd dd cc) 20 2 = dd := by
  apply BitVec.eq_of_getLsbD_eq
  intro i hi
  simp only [bits, formatT, BitVec.getLsbD_extractLsb', BitVec.getLsbD_append]
  interval_cases i <;> simp

theorem formatT_cc (op : BitVec 5) (fd : FReg) (dd : DReg) (cc : CReg) : bits (formatT op fd dd cc) 17 3 = cc := by
  apply BitVec.eq_of_getLsbD_eq
  intro i hi
  simp only [bits, formatT, BitVec.getLsbD_extractLsb', BitVec.getLsbD_append]
  interval_cases i <;> simp

theorem formatT_mask_F801FFFF (op : BitVec 5) (fd : FReg) (dd : DReg) (cc : CReg) : formatT op fd dd cc &&& 0xF801FFFF = formatT op 0 0 0 := by
  apply BitVec.eq_of_getLsbD_eq
  intro i hi
  simp only [formatT, BitVec.getLsbD_and, BitVec.getLsbD_append]
  interval_cases i <;> simp

/-- No two rows of the opcode table overlap: some bit that both masks keep differs in their match values (R110). -/
theorem rows_apart : rows.Pairwise (fun a b => a.mask &&& b.mask &&& (a.value ^^^ b.value) ≠ 0) := by decide +kernel

theorem rows_length : rows.length = 36 := by decide +kernel

/-- A word that lies in two rows whose masks and values are apart does not exist. -/
theorem covers_apart {a b : Row} {w : Word} (h : a.mask &&& b.mask &&& (a.value ^^^ b.value) ≠ 0) :
    ¬ (a.covers w = true ∧ b.covers w = true) := by
  rintro ⟨ha, hb⟩
  refine h (BitVec.eq_of_getLsbD_eq fun i hi => ?_)
  have ea := congrArg (BitVec.getLsbD · i) (beq_iff_eq.1 ha)
  have eb := congrArg (BitVec.getLsbD · i) (beq_iff_eq.1 hb)
  simp only [BitVec.getLsbD_and] at ea eb
  simp only [BitVec.getLsbD_and, BitVec.getLsbD_xor, ← ea, ← eb]
  cases w.getLsbD i <;> cases a.mask.getLsbD i <;> cases b.mask.getLsbD i <;> simp

end Sys2Proof
end

