-- ==== Sys2Proof/Laws/Memory.lean ====
section
/-! SUPPORT. What the memory operations do: a block write keeps the canonical form, a read inside the block gives the byte
written and a read outside gives what it gave before. -/

namespace Sys2Proof.Machine

theorem mem_cellsFrom {c : Host.Cell} : ∀ {bs : List Byte} {a : Nat}, c ∈ cellsFrom a bs → a ≤ c.1 ∧ c.1 < a + bs.length
  | [], _, h => by simp [cellsFrom] at h
  | b :: bs, a, h => by
    rcases List.mem_cons.1 h with rfl | h
    · simp
    · have := mem_cellsFrom h
      simp only [List.length_cons]
      omega

theorem cellsFrom_wf : ∀ (bs : List Byte) (a : Nat), (cellsFrom a bs).wf
  | [], _ => List.Pairwise.nil
  | b :: bs, a => List.Pairwise.cons (fun c h => by have := mem_cellsFrom h; show a < c.1; omega) (cellsFrom_wf bs (a + 1))

/-- A block write keeps the canonical form. -/
theorem Memory.putBytes_wf {m : Memory} (h : m.wf) (a : Nat) (bs : List Byte) : (m.putBytes a bs).wf := by
  have low : ∀ c ∈ m.filter (fun c => decide (c.1 < a)), c.1 < a := fun c hc => by simpa using (List.mem_filter.1 hc).2
  have high : ∀ c ∈ m.filter (fun c => decide (a + bs.length ≤ c.1)), a + bs.length ≤ c.1 := fun c hc => by
    simpa using (List.mem_filter.1 hc).2
  refine List.pairwise_append.2 ⟨List.pairwise_append.2 ⟨h.filter _, cellsFrom_wf bs a, ?_⟩, h.filter _, ?_⟩
  · intro c hc d hd
    have := low c hc
    have := mem_cellsFrom hd
    omega
  · intro c hc d hd
    have := high d hd
    rcases List.mem_append.1 hc with hc | hc
    · have := low c hc
      omega
    · have := mem_cellsFrom hc
      omega

theorem Memory.putWords_wf {m : Memory} (h : m.wf) (i : Nat) (ws : List Word) : (m.putWords i ws).wf :=
  Memory.putBytes_wf h _ _

theorem reset_memories_wf : State.reset.imem.wf ∧ State.reset.dmem.wf := ⟨List.Pairwise.nil, List.Pairwise.nil⟩

/-! ## Reading after a block write -/

theorem lookup_filter_of {q : Nat → Bool} {a : Nat} (h : q a = true) :
    ∀ m : Memory, (m.filter (fun c => q c.1)).lookup a = m.lookup a
  | [] => rfl
  | (k, b) :: m => by
    have ih := lookup_filter_of h m
    by_cases e : k = a
    · subst e; simp [h]
    · have e' : (a == k) = false := beq_false_of_ne (Ne.symm e)
      by_cases hq : q k = true <;> simp [hq, List.lookup_cons, e', ih]

theorem lookup_filter_of_not {q : Nat → Bool} {a : Nat} (h : q a = false) :
    ∀ m : Memory, (m.filter (fun c => q c.1)).lookup a = none
  | [] => rfl
  | (k, b) :: m => by
    have ih := lookup_filter_of_not h m
    by_cases hq : q k = true
    · have e' : (a == k) = false := beq_false_of_ne fun e => by simp [← e, h] at hq
      simp [hq, List.lookup_cons, e', ih]
    · simp [hq, ih]

theorem lookup_cellsFrom : ∀ (bs : List Byte) (a x : Nat),
    (cellsFrom a bs).lookup x = if a ≤ x then bs[x - a]? else none
  | [], a, x => by simp [cellsFrom]
  | b :: bs, a, x => by
    have ih := lookup_cellsFrom bs (a + 1) x
    by_cases e : x = a
    · subst e; simp [cellsFrom]
    · have e' : (x == a) = false := beq_false_of_ne e
      by_cases h : a ≤ x
      · have h1 : a + 1 ≤ x := by omega
        have h2 : x - a = (x - (a + 1)) + 1 := by omega
        simp [cellsFrom, List.lookup_cons, e', ih, h, h1, h2]
      · have h1 : ¬ a + 1 ≤ x := by omega
        simp [cellsFrom, List.lookup_cons, e', ih, h, h1]

theorem lookup_append (m n : Memory) (a : Nat) : (m ++ n).lookup a = (m.lookup a).or (n.lookup a) := by
  induction m with
  | nil => simp
  | cons c m ih =>
    obtain ⟨k, b⟩ := c
    by_cases e : a = k
    · subst e; simp
    · simp [List.lookup_cons, beq_false_of_ne e, ih]

/-- The byte a memory lists after a block write: the block's byte inside, what was listed before outside. -/
theorem Memory.byte?_putBytes (m : Memory) (a : Nat) (bs : List Byte) (x : Nat) :
    (m.putBytes a bs).byte? x = if a ≤ x ∧ x < a + bs.length then bs[x - a]? else m.byte? x := by
  unfold Memory.byte? Memory.putBytes
  rw [lookup_append, lookup_append, lookup_cellsFrom]
  by_cases h1 : x < a
  · have e1 := lookup_filter_of (q := fun k => decide (k < a)) (a := x) (by simpa using h1) m
    have e2 := lookup_filter_of_not (q := fun k => decide (a + bs.length ≤ k)) (a := x) (by simp; omega) m
    rw [e1, e2]
    have : ¬ a ≤ x := by omega
    simp [this]
  · have e1 := lookup_filter_of_not (q := fun k => decide (k < a)) (a := x) (by simpa using h1) m
    rw [e1]
    have ha : a ≤ x := by omega
    by_cases h2 : x < a + bs.length
    · have e2 := lookup_filter_of_not (q := fun k => decide (a + bs.length ≤ k)) (a := x) (by simp; omega) m
      rw [e2]
      simp [ha, h2]
    · have e2 := lookup_filter_of (q := fun k => decide (a + bs.length ≤ k)) (a := x) (by simp; omega) m
      rw [e2]
      have h3 : bs[x - a]? = none := List.getElem?_eq_none (by omega)
      simp [ha, h2, h3]

/-- A block write leaves the byte at an index outside the block alone. -/
theorem Memory.byte?_putBytes_outside (m : Memory) {a : Nat} {bs : List Byte} {x : Nat} (h : x < a ∨ a + bs.length ≤ x) :
    (m.putBytes a bs).byte? x = m.byte? x := by
  rw [Memory.byte?_putBytes, if_neg (by omega)]

@[simp] theorem length_bytesOfWords (ws : List Word) : (bytesOfWords ws).length = 4 * ws.length := by
  induction ws with
  | nil => rfl
  | cons w ws ih => simp only [bytesOfWords, List.flatMap_cons, List.length_append, List.length_cons] at *; rw [ih]; simp [bytesOfWord]; omega

theorem wordOfBytes_bytesOfWord (w : Word) :
    wordOfBytes (w.extractLsb' 0 8) (w.extractLsb' 8 8) (w.extractLsb' 16 8) (w.extractLsb' 24 8) = w := by
  apply BitVec.eq_of_getLsbD_eq
  intro i hi
  simp only [wordOfBytes, BitVec.getLsbD_append, BitVec.getLsbD_extractLsb']
  by_cases h1 : i < 8
  · simp [h1]
  · by_cases h2 : i < 16
    · have : i - 8 < 8 := by omega
      have e : 8 + (i - 8) = i := by omega
      simp [h1, this, e]
    · by_cases h3 : i < 24
      · have a1 : ¬ i - 8 < 8 := by omega
        have a2 : i - 8 - 8 < 8 := by omega
        have e : 16 + (i - 8 - 8) = i := by omega
        simp [h1, a1, a2, e]
      · have a1 : ¬ i - 8 < 8 := by omega
        have a2 : ¬ i - 8 - 8 < 8 := by omega
        have a3 : i - 8 - 8 - 8 < 8 := by omega
        have e : 24 + (i - 8 - 8 - 8) = i := by omega
        simp [h1, a1, a2, a3, e]

/-- Byte `b` of word `k` of a list of words, in the list of their bytes. -/
theorem bytesOfWords_getElem? (ws : List Word) (k b : Nat) (hb : b < 4) :
    (bytesOfWords ws)[4 * k + b]? = ws[k]?.map fun w => w.extractLsb' (8 * b) 8 := by
  induction ws generalizing k with
  | nil => simp [bytesOfWords]
  | cons w ws ih =>
    cases k with
    | zero =>
      have : b = 0 ∨ b = 1 ∨ b = 2 ∨ b = 3 := by omega
      rcases this with rfl | rfl | rfl | rfl <;> simp [bytesOfWords, bytesOfWord]
    | succ k =>
      have e : 4 * (k + 1) + b = (bytesOfWord w).length + (4 * k + b) := by simp [bytesOfWord]; omega
      rw [e, bytesOfWords, List.flatMap_cons, List.getElem?_append_right (by omega), Nat.add_sub_cancel_left]
      simpa [bytesOfWords] using ih k

/-- The word read at index `x` after a block of words is stored in DMEM from index `i` on. -/
theorem State.wordAt_storeWords (s : State) (i : Nat) (ws : List Word) (x : Nat) :
    (s.storeWords i ws).wordAt .dmem x = if h : i ≤ x ∧ x < i + ws.length then ws[x - i]'(by omega) else s.wordAt .dmem x := by
  have key : ∀ b, b < 4 → (s.storeWords i ws).byteAt .dmem (4 * x + b) =
      if h : i ≤ x ∧ x < i + ws.length then (ws[x - i]'(by omega)).extractLsb' (8 * b) 8 else s.byteAt .dmem (4 * x + b) := by
    intro b hb
    unfold State.byteAt
    show (((s.dmem.putWords i ws).byte? (4 * x + b)).getD _) = _
    rw [Memory.putWords, Memory.byte?_putBytes, length_bytesOfWords]
    by_cases h : i ≤ x ∧ x < i + ws.length
    · have h' : 4 * i ≤ 4 * x + b ∧ 4 * x + b < 4 * i + 4 * ws.length := by omega
      have e : 4 * x + b - 4 * i = 4 * (x - i) + b := by omega
      rw [if_pos h', dif_pos h, e, bytesOfWords_getElem? _ _ _ hb, List.getElem?_eq_getElem (by omega)]
      rfl
    · have h' : ¬ (4 * i ≤ 4 * x + b ∧ 4 * x + b < 4 * i + 4 * ws.length) := by omega
      rw [if_neg h', dif_neg h]
      rfl
  unfold State.wordAt
  have k0 := key 0 (by omega)
  rw [Nat.add_zero] at k0
  rw [k0, key 1 (by omega), key 2 (by omega), key 3 (by omega)]
  split
  · exact wordOfBytes_bytesOfWord _
  · rfl

/-- A byte of DMEM outside a stored block of words reads as before. -/
theorem State.byteAt_storeWords_outside (s : State) {i : Nat} {ws : List Word} {a : Nat}
    (h : a < 4 * i ∨ 4 * (i + ws.length) ≤ a) : (s.storeWords i ws).byteAt .dmem a = s.byteAt .dmem a := by
  unfold State.byteAt
  show (((s.dmem.putWords i ws).byte? a).getD _) = _
  rw [Memory.putWords, Memory.byte?_putBytes_outside _ (by rw [length_bytesOfWords]; omega)]
  rfl

@[simp] theorem State.byteAt_storeWords_imem (s : State) (i : Nat) (ws : List Word) (a : Nat) :
    (s.storeWords i ws).byteAt .imem a = s.byteAt .imem a := rfl

@[simp] theorem length_words256 (k : Lanes Scalar) : (words256 k).length = 32 := by simp [words256, List.finRange]

@[simp] theorem length_wordsLimbs (x : Lanes Limbs) : (wordsLimbs x).length = 72 := by
  simp [wordsLimbs, List.finRange]

end Sys2Proof.Machine
end

