-- ==== Sys2Proof/Laws/Frames.lean ====
section
/-! SUPPORT. The frame of each write an instruction makes: what a jump, a register write, a group write, a swap and a
block store leave unchanged. -/

namespace Sys2Proof.Machine

open Sys2Proof.Config

theorem SameControl.refl (s : State) : SameControl s s := by constructor <;> rfl

theorem SameControl.trans {s t u : State} (h : SameControl s t) (k : SameControl t u) : SameControl s u where
  params := k.params.trans h.params
  ie := k.ie.trans h.ie
  msbmask := k.msbmask.trans h.msbmask
  busy := k.busy.trans h.busy
  done := k.done.trans h.done
  fault := k.fault.trans h.fault
  hberr := k.hberr.trans h.hberr
  startPc := k.startPc.trans h.startPc
  cause := k.cause.trans h.cause
  faultPc := k.faultPc.trans h.faultPc
  faultInsn := k.faultInsn.trans h.faultInsn
  abortReq := k.abortReq.trans h.abortReq
  memEpoch := k.memEpoch.trans h.memEpoch
  hostRdata := k.hostRdata.trans h.hostRdata
  turns := k.turns.trans h.turns

theorem Frame.refl (fp : Footprint) (s : State) : Frame fp s s := by
  refine ⟨SameControl.refl s, ?_⟩
  constructor <;> intros <;> rfl

/-- A jump after a write keeps the write's frame: the PC is in no frame. -/
theorem Frame.jump {fp : Footprint} {s t : State} (h : Frame fp s t) (target : Half) : Frame fp s (t.jump target) :=
  ⟨h.control.trans (by constructor <;> rfl),
    h.outside.fregs, h.outside.sregs, h.outside.dregs, h.outside.cregs, h.outside.swp,
    fun a => (State.jump_byteAt t target .imem a).trans (h.outside.imem a),
    fun a ha => (State.jump_byteAt t target .dmem a).trans (h.outside.dmem a ha)⟩

theorem Frame.advance {fp : Footprint} {s t : State} (h : Frame fp s t) : Frame fp s t.advance := h.jump _

/-! ## Register writes -/

theorem frame_setF (s : State) (r : FReg) (x : Lanes Limbs) : Frame { fregs := [r] } s (s.setF r x) := by
  refine ⟨by constructor <;> rfl, ?_⟩
  constructor <;> intros <;> try rfl
  rename_i q hq
  exact State.freg_setF_other s (by simpa using hq) x

theorem frame_setS (s : State) (r : SReg) (x : Lanes Scalar) : Frame { sregs := [r] } s (s.setS r x) := by
  refine ⟨by constructor <;> rfl, ?_⟩
  constructor <;> intros <;> try rfl
  rename_i q hq
  rw [State.sreg_setS, if_neg (by simpa using hq)]

theorem frame_setD (s : State) (r : DReg) (x : Lanes Digits) : Frame { dregs := [r] } s (s.setD r x) := by
  refine ⟨by constructor <;> rfl, ?_⟩
  constructor <;> intros <;> try rfl
  rename_i q hq
  rw [State.dreg_setD, if_neg (by simpa using hq)]

/-- A write of C0 changes nothing at all (R34). -/
theorem setC_zero (s : State) (v : Half) : s.setC 0 v = s := rfl

theorem frame_setC (s : State) (r : CReg) (v : Half) : Frame { cregs := [r] } s (s.setC r v) := by
  by_cases h : r = 0
  · subst h
    exact Frame.refl _ s
  · have e : s.setC r v = { s with cregs := s.cregs.set r.toFin v r.toFin.isLt } := if_neg h
    rw [e]
    refine ⟨by constructor <;> rfl, ?_⟩
    constructor <;> intros <;> try rfl
    rename_i q hq
    have hq : q ≠ r := by simpa using hq
    rw [← e, State.creg_setC, if_neg hq]
    split
    · rename_i h0; rw [h0]; rfl
    · rfl

/-! ## Groups -/

theorem mem_groupList {r q : FReg} {n : Nat} : q ∈ groupList r n ↔ ∃ c, c < n ∧ q = groupReg r c := by
  simp only [groupList, List.mem_map, List.mem_range]
  exact ⟨fun ⟨c, h, e⟩ => ⟨c, h, e.symm⟩, fun ⟨c, h, e⟩ => ⟨c, h, e.symm⟩⟩

/-- Writing a group keeps everything but the field registers. -/
theorem setGroup_rest (s : State) (r : FReg) (xs : List (Lanes Limbs)) :
    ∃ v, s.setGroup r xs = { s with fregs := v } := by
  induction xs generalizing s r with
  | nil => exact ⟨s.fregs, rfl⟩
  | cons x xs ih =>
    obtain ⟨v, h⟩ := ih (s.setF r x) (groupReg r 1)
    exact ⟨v, h⟩

theorem frame_setGroup (s : State) (r : FReg) (xs : List (Lanes Limbs)) :
    Frame { fregs := groupList r xs.length } s (s.setGroup r xs) := by
  have out := fun q => State.freg_setGroup_outside s r q xs
  obtain ⟨v, h⟩ := setGroup_rest s r xs
  refine ⟨by rw [h]; constructor <;> rfl, ?_⟩
  refine ⟨fun q hq => out q fun c hc e => hq (mem_groupList.2 ⟨c, hc, e⟩), ?_, ?_, ?_, ?_, ?_, ?_⟩ <;> rw [h] <;> intros <;> rfl

/-- Swapping groups keeps everything but the field registers. -/
theorem swapGroups_rest (s : State) (fa fb : FReg) (sw : Lanes Bool) (n : Nat) :
    ∃ v, s.swapGroups fa fb sw n = { s with fregs := v } := by
  induction n with
  | zero => exact ⟨s.fregs, rfl⟩
  | succ n ih =>
    obtain ⟨v, h⟩ := ih
    simp only [State.swapGroups, h]
    exact ⟨_, rfl⟩

theorem frame_swap (s : State) (fa fb : FReg) (sw b : Lanes Bool) (n : Nat) :
    Frame { fregs := groupList fa n ++ groupList fb n, swp := true } s ((s.swapGroups fa fb sw n).setSwp b) := by
  have out := fun q => State.freg_swapGroups_outside s fa fb q sw n
  obtain ⟨v, h⟩ := swapGroups_rest s fa fb sw n
  refine ⟨by rw [h]; constructor <;> rfl, ?_⟩
  refine ⟨fun q hq => out q fun c hc => ?_, ?_, ?_, ?_, ?_, ?_, ?_⟩
  · simp only [List.mem_append, not_or] at hq
    exact ⟨fun e => hq.1 (mem_groupList.2 ⟨c, hc, e⟩), fun e => hq.2 (mem_groupList.2 ⟨c, hc, e⟩)⟩
  all_goals rw [h]; intros; first | rfl | contradiction

/-! ## Memory -/

theorem frame_storeWords (s : State) (i : Nat) {ws : List Word} {n : Nat} (h : ws.length = n) :
    Frame { dmemFrom := i, dmemWords := n } s (s.storeWords i ws) := by
  subst h
  refine ⟨by constructor <;> rfl, ?_⟩
  constructor <;> intros <;> try rfl
  exact State.byteAt_storeWords_outside s (by assumption)

end Sys2Proof.Machine
end

