-- ==== Sys2Proof/Laws/LoadStore.lean ====
section
/-! SUPPORT. The load and store instructions where their access is in range, the values that the layouts of
spec/20_memory.md R79 and R80 put in memory and take out of it, and what makes two memories equal. -/

namespace Sys2Proof.Machine

open Sys2Proof.Config

/-! ## 256-bit values -/

/-- The sum of R79 is what the loads compute. -/
theorem laneValue_eq (s : State) (ea : Nat) (l : Lane) : s.laneValue ea l = s.load256 ea l := by
  simp [State.laneValue, State.load256, sumWords, Finset.sum_range_succ]

theorem load256_lt (s : State) (ea : Nat) (l : Lane) : s.load256 ea l < 2 ^ 256 := by
  unfold State.load256 sumWords
  have w := fun j => (s.wordAt .dmem (ea + 4 * j + l.val)).isLt
  have h0 := w 0; have h1 := w 1; have h2 := w 2; have h3 := w 3
  have h4 := w 4; have h5 := w 5; have h6 := w 6; have h7 := w 7
  omega

/-- Word `j` of a lane is its bits [32j+31:32j] (R77, R79). -/
theorem wordAt_toNat_of_load256 (s : State) (ea : Nat) (l : Lane) {j : Nat} (hj : j < 8) :
    (s.wordAt .dmem (ea + 4 * j + l.val)).toNat = s.load256 ea l / 2 ^ (32 * j) % 2 ^ 32 := by
  unfold State.load256 sumWords
  have w := fun j => (s.wordAt .dmem (ea + 4 * j + l.val)).isLt
  have h0 := w 0; have h1 := w 1; have h2 := w 2; have h3 := w 3
  have h4 := w 4; have h5 := w 5; have h6 := w 6; have h7 := w 7
  interval_cases j <;> norm_num <;> omega

theorem words256_getElem (k : Lanes Scalar) {j : Nat} (hj : j < 8) (l : Lane) (h : 4 * j + l.val < (words256 k).length) :
    (words256 k)[4 * j + l.val] = (k.get l).extractLsb' (32 * j) 32 := by
  interval_cases j <;> fin_cases l <;> rfl

/-- The words a 256-bit store leaves in its own block. -/
theorem wordAt_storeWords_words256 (s : State) (ea : Nat) (k : Lanes Scalar) (l : Lane) {j : Nat} (hj : j < 8) :
    (s.storeWords ea (words256 k)).wordAt .dmem (ea + 4 * j + l.val) = (k.get l).extractLsb' (32 * j) 32 := by
  rw [State.wordAt_storeWords, dif_pos (by rw [length_words256]; omega)]
  have e : ea + 4 * j + l.val - ea = 4 * j + l.val := by omega
  simp only [e]
  exact words256_getElem k hj l _

/-- Loading what a 256-bit store put there gives the stored value. -/
theorem load256_storeWords_words256 (s : State) (ea : Nat) (k : Lanes Scalar) (l : Lane) :
    (s.storeWords ea (words256 k)).load256 ea l = (k.get l).toNat := by
  unfold State.load256 sumWords
  have w := fun (j : Nat) (hj : j < 8) =>
    (congrArg BitVec.toNat (wordAt_storeWords_words256 s ea k l hj)).trans (BitVec.extractLsb'_toNat ..)
  rw [w 0 (by omega), w 1 (by omega), w 2 (by omega), w 3 (by omega), w 4 (by omega), w 5 (by omega), w 6 (by omega),
    w 7 (by omega)]
  simp only [Nat.shiftRight_eq_div_pow]
  have := (k.get l).isLt
  omega

theorem scalarOf_toNat {c : Nat} (h : c < 2 ^ 256) : (scalarOf c).toNat = c := by
  rw [scalarOf, BitVec.toNat_ofNat, Nat.mod_eq_of_lt h]

/-- A field value stored by FST is the reduced value (R161). -/
theorem scalarOf_fieldAt_toNat (s : State) (r : FReg) (l : Lane) : (scalarOf (s.fieldAt r l)).toNat = s.fieldAt r l :=
  scalarOf_toNat (Nat.lt_trans (fieldAt_lt s r l) (Nat.lt_trans p_lt (Nat.pow_lt_pow_right (by decide) (by decide))))

/-! ## Raw limbs -/

theorem loadLimb_toNat (s : State) (ea : Nat) (l : Lane) (i : Nat) :
    (s.loadLimb ea l i).toNat =
      (s.wordAt .dmem (ea + 2 * (4 * i + l.val))).toNat +
        2 ^ 32 * (s.wordAt .dmem (ea + 2 * (4 * i + l.val) + 1)).toNat := by
  unfold State.loadLimb
  rw [BitVec.toNat_append, Nat.shiftLeft_eq, Nat.mul_comm, ← Nat.two_pow_add_eq_or_of_lt (BitVec.isLt _)]
  omega

theorem wordsLimbs_getElem_low (x : Lanes Limbs) (i : Fin 9) (l : Lane) (h : 2 * (4 * i.val + l.val) < (wordsLimbs x).length) :
    (wordsLimbs x)[2 * (4 * i.val + l.val)] = ((x.get l).get i).extractLsb' 0 32 := by
  fin_cases i <;> fin_cases l <;> rfl

theorem wordsLimbs_getElem_high (x : Lanes Limbs) (i : Fin 9) (l : Lane)
    (h : 2 * (4 * i.val + l.val) + 1 < (wordsLimbs x).length) :
    (wordsLimbs x)[2 * (4 * i.val + l.val) + 1] = ((x.get l).get i).extractLsb' 32 32 := by
  fin_cases i <;> fin_cases l <;> rfl

/-- The low word a raw store leaves for limb `i` of lane `l`. -/
theorem wordAt_storeWords_wordsLimbs_low (s : State) (ea : Nat) (x : Lanes Limbs) (i : Fin 9) (l : Lane) :
    (s.storeWords ea (wordsLimbs x)).wordAt .dmem (ea + 2 * (4 * i.val + l.val)) = ((x.get l).get i).extractLsb' 0 32 := by
  rw [State.wordAt_storeWords, dif_pos (by rw [length_wordsLimbs]; omega)]
  have e : ea + 2 * (4 * i.val + l.val) - ea = 2 * (4 * i.val + l.val) := by omega
  simp only [e]
  exact wordsLimbs_getElem_low x i l _

/-- The high word a raw store leaves for limb `i` of lane `l`. -/
theorem wordAt_storeWords_wordsLimbs_high (s : State) (ea : Nat) (x : Lanes Limbs) (i : Fin 9) (l : Lane) :
    (s.storeWords ea (wordsLimbs x)).wordAt .dmem (ea + 2 * (4 * i.val + l.val) + 1) =
      ((x.get l).get i).extractLsb' 32 32 := by
  rw [State.wordAt_storeWords, dif_pos (by rw [length_wordsLimbs]; omega)]
  have e : ea + 2 * (4 * i.val + l.val) + 1 - ea = 2 * (4 * i.val + l.val) + 1 := by omega
  simp only [e]
  exact wordsLimbs_getElem_high x i l _

/-! ## Bytes and words -/

/-- Byte `b` of the word at index `i` (R77). -/
theorem byteAt_of_wordAt (s : State) (sp : Space) (i : Nat) {b : Nat} (hb : b < 4) :
    s.byteAt sp (4 * i + b) = (s.wordAt sp i).extractLsb' (8 * b) 8 := by
  unfold State.wordAt wordOfBytes
  apply BitVec.eq_of_getLsbD_eq
  intro n hn
  simp only [BitVec.getLsbD_extractLsb', BitVec.getLsbD_append]
  interval_cases b <;> interval_cases n <;> simp

/-- Memories whose words agree have equal bytes. -/
theorem byteAt_eq_of_wordAt_eq {s t : State} {sp : Space} (h : ∀ i, t.wordAt sp i = s.wordAt sp i) (a : Nat) :
    t.byteAt sp a = s.byteAt sp a := by
  have e : 4 * (a / 4) + a % 4 = a := Nat.div_add_mod a 4
  have h4 : a % 4 < 4 := Nat.mod_lt a (by decide)
  rw [← e, byteAt_of_wordAt s sp _ h4, byteAt_of_wordAt t sp _ h4, h]

/-- States whose bytes agree read equal words. -/
theorem wordAt_eq_of_byteAt_eq {s t : State} {sp : Space} (h : ∀ a, t.byteAt sp a = s.byteAt sp a) (i : Nat) :
    t.wordAt sp i = s.wordAt sp i := by
  unfold State.wordAt
  rw [h, h, h, h]

/-! ## The instructions, in range -/

theorem maskMsb_eq (s : State) (k : Nat) : s.maskMsb k = if s.msbmask then k % 2 ^ 255 else k := by
  unfold State.maskMsb slice
  simp

theorem maskMsb_lt (s : State) {k : Nat} (h : k < 2 ^ 256) : s.maskMsb k < 2 ^ 256 := by
  rw [maskMsb_eq]
  split
  · exact Nat.lt_trans (Nat.mod_lt _ (Nat.two_pow_pos 255)) (Nat.pow_lt_pow_right (by decide) (by decide))
  · exact h

section

variable {s : State} {f : FReg} {r : RField} {ca : CReg} {addr : Half}

theorem exec_fld (h : s.effectiveAddress ca addr + 32 ≤ s.params.dmemWords) :
    exec (.fld f ca addr) s =
      retire (s.setF f (forEachLane fun l => limbs (s.maskMsb (s.load256 (s.effectiveAddress ca addr) l)))) :=
  if_neg (Nat.not_lt.2 h)

theorem exec_fst (h : s.effectiveAddress ca addr + 32 ≤ s.params.dmemWords) :
    exec (.fst f ca addr) s =
      retire (s.storeWords (s.effectiveAddress ca addr) (words256 (forEachLane fun l => scalarOf (s.fieldAt f l)))) :=
  if_neg (Nat.not_lt.2 h)

theorem exec_fldl (h : s.effectiveAddress ca addr + 72 ≤ s.params.dmemWords) :
    exec (.fldl f ca addr) s =
      retire (s.setF f (forEachLane fun l => Vector.ofFn fun i => s.loadLimb (s.effectiveAddress ca addr) l i.val)) :=
  if_neg (Nat.not_lt.2 h)

theorem exec_fstl (h : s.effectiveAddress ca addr + 72 ≤ s.params.dmemWords) :
    exec (.fstl f ca addr) s = retire (s.storeWords (s.effectiveAddress ca addr) (wordsLimbs (s.freg f))) :=
  if_neg (Nat.not_lt.2 h)

theorem exec_sld (hr : r.toNat ≤ 3) (h : s.effectiveAddress ca addr + 32 ≤ s.params.dmemWords) :
    exec (.sld r ca addr) s =
      retire (s.setS (regOfField r) (forEachLane fun l => scalarOf (s.load256 (s.effectiveAddress ca addr) l))) :=
  (if_neg (Nat.not_lt.2 hr)).trans (if_neg (Nat.not_lt.2 h))

theorem exec_sst (hr : r.toNat ≤ 3) (h : s.effectiveAddress ca addr + 32 ≤ s.params.dmemWords) :
    exec (.sst r ca addr) s =
      retire (s.storeWords (s.effectiveAddress ca addr) (words256 (s.sreg (regOfField r)))) :=
  (if_neg (Nat.not_lt.2 hr)).trans (if_neg (Nat.not_lt.2 h))

end

end Sys2Proof.Machine
end

