-- ==== Sys2Proof/Laws/PerInstr.lean ====
section
/-! SUPPORT. Per instruction: its word lies in a row of the opcode table of spec/30_encoding.md R110, and that row's
operand fields give the instruction back. -/

namespace Sys2Proof.Laws.RowOf

/-- The word of `i` lies in a row, and the row builds `i` from it. -/
def Statement (i : Instr) : Prop := ∃ r, r ∈ rows ∧ r.covers (encode i) = true ∧ r.build (encode i) = i

theorem nop : Statement (.nop) :=
  ⟨_, List.mem_of_getElem? (i := 0) rfl, rfl, rfl⟩

theorem halt : Statement (.halt) :=
  ⟨_, List.mem_of_getElem? (i := 1) rfl, rfl, rfl⟩

theorem jmp (tgt : Half) : Statement (.jmp tgt) :=
  ⟨_, List.mem_of_getElem? (i := 2) rfl, beq_iff_eq.2 (formatJ_mask_FFFF0000 ..), by simp only [encode, formatJ_tgt]⟩

theorem bnez (ca : CReg) (tgt : Half) : Statement (.bnez ca tgt) :=
  ⟨_, List.mem_of_getElem? (i := 3) rfl, beq_iff_eq.2 (formatJ_mask_F8FF0000 ..), by simp only [encode, formatJ_ca, formatJ_tgt]⟩

theorem dbnz (ca : CReg) (tgt : Half) : Statement (.dbnz ca tgt) :=
  ⟨_, List.mem_of_getElem? (i := 4) rfl, beq_iff_eq.2 (formatJ_mask_F8FF0000 ..), by simp only [encode, formatJ_ca, formatJ_tgt]⟩

theorem cseti (cd : CReg) (imm : Half) : Statement (.cseti cd imm) :=
  ⟨_, List.mem_of_getElem? (i := 5) rfl, beq_iff_eq.2 (formatC_mask_F8FF0000 ..), by simp only [encode, formatC_cd, formatC_imm]⟩

theorem caddi (cd : CReg) (simm : Half) : Statement (.caddi cd simm) :=
  ⟨_, List.mem_of_getElem? (i := 6) rfl, beq_iff_eq.2 (formatC_mask_F8FF0000 ..), by simp only [encode, formatC_cd, formatC_imm]⟩

theorem fld (fd : FReg) (ca : CReg) (addr : Half) : Statement (.fld fd ca addr) :=
  ⟨_, List.mem_of_getElem? (i := 7) rfl, beq_iff_eq.2 (formatM_mask_F8070000 ..), by simp only [encode, formatM_r, formatM_ca, formatM_addr]⟩

theorem fst (fs : FReg) (ca : CReg) (addr : Half) : Statement (.fst fs ca addr) :=
  ⟨_, List.mem_of_getElem? (i := 8) rfl, beq_iff_eq.2 (formatM_mask_F8070000 ..), by simp only [encode, formatM_r, formatM_ca, formatM_addr]⟩

theorem fldl (fd : FReg) (ca : CReg) (addr : Half) : Statement (.fldl fd ca addr) :=
  ⟨_, List.mem_of_getElem? (i := 9) rfl, beq_iff_eq.2 (formatM_mask_F8070000 ..), by simp only [encode, formatM_r, formatM_ca, formatM_addr]⟩

theorem fstl (fs : FReg) (ca : CReg) (addr : Half) : Statement (.fstl fs ca addr) :=
  ⟨_, List.mem_of_getElem? (i := 10) rfl, beq_iff_eq.2 (formatM_mask_F8070000 ..), by simp only [encode, formatM_r, formatM_ca, formatM_addr]⟩

theorem sld (sd : RField) (ca : CReg) (addr : Half) : Statement (.sld sd ca addr) :=
  ⟨_, List.mem_of_getElem? (i := 11) rfl, beq_iff_eq.2 (formatM_mask_F8070000 ..), by simp only [encode, formatM_r, formatM_ca, formatM_addr]⟩

theorem sst (ss : RField) (ca : CReg) (addr : Half) : Statement (.sst ss ca addr) :=
  ⟨_, List.mem_of_getElem? (i := 12) rfl, beq_iff_eq.2 (formatM_mask_F8070000 ..), by simp only [encode, formatM_r, formatM_ca, formatM_addr]⟩

theorem fadd (fd fa fb : FReg) : Statement (.fadd fd fa fb) :=
  ⟨_, List.mem_of_getElem? (i := 13) rfl, beq_iff_eq.2 (formatR_mask_F8000FFF ..), by simp only [encode, formatR_rd, formatR_ra, formatR_rb]⟩

theorem fsub (fd fa fb : FReg) : Statement (.fsub fd fa fb) :=
  ⟨_, List.mem_of_getElem? (i := 14) rfl, beq_iff_eq.2 (formatR_mask_F8000FFF ..), by simp only [encode, formatR_rd, formatR_ra, formatR_rb]⟩

theorem fmul (fd fa fb : FReg) : Statement (.fmul fd fa fb) :=
  ⟨_, List.mem_of_getElem? (i := 15) rfl, beq_iff_eq.2 (formatR_mask_F8000FFF ..), by simp only [encode, formatR_rd, formatR_ra, formatR_rb]⟩

theorem fsqr (fd fa : FReg) : Statement (.fsqr fd fa) :=
  ⟨_, List.mem_of_getElem? (i := 16) rfl, beq_iff_eq.2 (formatR_mask_F801FFFF ..), by simp only [encode, formatR_rd, formatR_ra]⟩

theorem fmov (fd fa : FReg) : Statement (.fmov fd fa) :=
  ⟨_, List.mem_of_getElem? (i := 17) rfl, beq_iff_eq.2 (formatR_mask_F801FFFF ..), by simp only [encode, formatR_rd, formatR_ra]⟩

theorem fnorm (fd fa : FReg) : Statement (.fnorm fd fa) :=
  ⟨_, List.mem_of_getElem? (i := 18) rfl, beq_iff_eq.2 (formatR_mask_F801FFFF ..), by simp only [encode, formatR_rd, formatR_ra]⟩

theorem finv (fd fa : FReg) : Statement (.finv fd fa) :=
  ⟨_, List.mem_of_getElem? (i := 19) rfl, beq_iff_eq.2 (formatR_mask_F801FFFF ..), by simp only [encode, formatR_rd, formatR_ra]⟩

theorem fmulc (fd fa : FReg) (imm : Imm17) : Statement (.fmulc fd fa imm) :=
  ⟨_, List.mem_of_getElem? (i := 20) rfl, beq_iff_eq.2 (formatK_mask_F8000000 ..), by simp only [encode, formatK_rd, formatK_ra, formatK_imm]⟩

theorem fseti (fd : FReg) (imm : Imm17) : Statement (.fseti fd imm) :=
  ⟨_, List.mem_of_getElem? (i := 21) rfl, beq_iff_eq.2 (formatK_mask_F83E0000 ..), by simp only [encode, formatK_rd, formatK_imm]⟩

theorem clamp (sd sa : RField) : Statement (.clamp sd sa) :=
  ⟨_, List.mem_of_getElem? (i := 22) rfl, beq_iff_eq.2 (formatR_mask_F801FFFF ..), by simp only [encode, formatR_rd, formatR_ra]⟩

theorem recode (dd sa : RField) : Statement (.recode dd sa) :=
  ⟨_, List.mem_of_getElem? (i := 23) rfl, beq_iff_eq.2 (formatR_mask_F801FFFF ..), by simp only [encode, formatR_rd, formatR_ra]⟩

theorem cswap (fa fb : FReg) (sa : SReg) (cc : CReg) (n : BitVec 2) : Statement (.cswap fa fb sa cc n) :=
  ⟨_, List.mem_of_getElem? (i := 24) rfl, beq_iff_eq.2 (formatS_mask_F80003FF ..), by simp only [encode, formatS_fa, formatS_fb, formatS_sa, formatS_cc, formatS_n]⟩

theorem cswapf (fa fb : FReg) (n : BitVec 2) : Statement (.cswapf fa fb n) :=
  ⟨_, List.mem_of_getElem? (i := 25) rfl, beq_iff_eq.2 (formatS_mask_F801F3FF ..), by simp only [encode, formatS_fa, formatS_fb, formatS_n]⟩

theorem tblsel (fd : FReg) (dd : DReg) (cc : CReg) : Statement (.tblsel fd dd cc) :=
  ⟨_, List.mem_of_getElem? (i := 26) rfl, beq_iff_eq.2 (formatT_mask_F801FFFF ..), by simp only [encode, formatT_fd, formatT_dd, formatT_cc]⟩

theorem edinit (fd : FReg) : Statement (.edinit fd) :=
  ⟨_, List.mem_of_getElem? (i := 27) rfl, beq_iff_eq.2 (formatR_mask_F83FFFFF ..), by simp only [encode, formatR_rd]⟩

theorem edadd (fd fa fb : FReg) : Statement (.edadd fd fa fb) :=
  ⟨_, List.mem_of_getElem? (i := 28) rfl, beq_iff_eq.2 (formatR_mask_F8000FFF ..), by simp only [encode, formatR_rd, formatR_ra, formatR_rb]⟩

theorem eddbl (fd fa : FReg) : Statement (.eddbl fd fa) :=
  ⟨_, List.mem_of_getElem? (i := 29) rfl, beq_iff_eq.2 (formatR_mask_F801FFFF ..), by simp only [encode, formatR_rd, formatR_ra]⟩

theorem ladstep (fd fa : FReg) : Statement (.ladstep fd fa) :=
  ⟨_, List.mem_of_getElem? (i := 30) rfl, beq_iff_eq.2 (formatR_mask_F801FFFF ..), by simp only [encode, formatR_rd, formatR_ra]⟩

theorem edfbmul (fd : FReg) (sb : RField) : Statement (.edfbmul fd sb) :=
  ⟨_, List.mem_of_getElem? (i := 31) rfl, beq_iff_eq.2 (formatR_mask_F83E0FFF ..), by simp only [encode, formatR_rd, formatR_rb]⟩

theorem monfb (fd : FReg) (sb : RField) : Statement (.monfb fd sb) :=
  ⟨_, List.mem_of_getElem? (i := 32) rfl, beq_iff_eq.2 (formatR_mask_F83E0FFF ..), by simp only [encode, formatR_rd, formatR_rb]⟩

theorem monvb (fd fa : FReg) (sb : RField) : Statement (.monvb fd fa sb) :=
  ⟨_, List.mem_of_getElem? (i := 33) rfl, beq_iff_eq.2 (formatR_mask_F8000FFF ..), by simp only [encode, formatR_rd, formatR_ra, formatR_rb]⟩

theorem keygen (fd : FReg) (sb : RField) : Statement (.keygen fd sb) :=
  ⟨_, List.mem_of_getElem? (i := 34) rfl, beq_iff_eq.2 (formatR_mask_F83E0FFF ..), by simp only [encode, formatR_rd, formatR_rb]⟩

theorem shsec (fd fa : FReg) (sb : RField) : Statement (.shsec fd fa sb) :=
  ⟨_, List.mem_of_getElem? (i := 35) rfl, beq_iff_eq.2 (formatR_mask_F8000FFF ..), by simp only [encode, formatR_rd, formatR_ra, formatR_rb]⟩

end Sys2Proof.Laws.RowOf
end

