-- ==== Sys2Proof/Laws/Results.lean ====
section
/-! SUPPORT. From the limbs an instruction writes to what a statement says of its result: canonical limbs hold their value
mod p, and the members of a written group hold the values written to them. -/

namespace Sys2Proof.Machine

open Sys2Proof.Config

/-- Canonical limbs are normalized and hold their integer mod p (R9). -/
theorem holdsModP_of_canon {t : State} {r : FReg} {l : Lane} {v w : Int} (h : (t.freg r).get l = canon w)
    (hv : w % (p : Int) = v % (p : Int)) : t.HoldsModP r l v := by
  unfold State.HoldsModP Normalized
  rw [h]
  exact ⟨(canon_val_canon w).symm, (val_canon_cast w).trans hv⟩

/-- The value mod p of a register that holds canonical limbs. -/
theorem fieldAt_of_canon {t : State} {r : FReg} {l : Lane} {n : Nat} (h : (t.freg r).get l = canon (n : Int)) :
    t.fieldAt r l = n % p := by
  unfold State.fieldAt
  rw [h, val_canon, redc_natCast, Nat.mod_mod]

theorem fieldAt_cast (s : State) (r : FReg) (l : Lane) : (s.fieldAt r l : Int) = s.intAt r l % (p : Int) := by
  simp [State.fieldAt, State.intAt]

/-- The state after an instruction that retires. -/
theorem after_retire {i : Instr} {s t : State} (h : exec i s = retire t) : s.after i = t.advance := by
  unfold State.after
  rw [h]
  rfl

/-- A field instruction's result register and what it leaves. -/
theorem exec_fieldOp {i : Instr} {s : State} {fd : FReg} {r : Lane → Int} (h : exec i s = fieldOp fd r s) :
    ∃ t, exec i s = .next t ∧ t.pc = s.pc + 1 ∧ Frame { fregs := [fd] } s t ∧ ∀ l, (t.freg fd).get l = canon (r l) :=
  ⟨_, h, rfl, (frame_setF s fd _).advance, fun l => by simp⟩

/-- An instruction that writes a group: its members hold the values written. -/
theorem exec_group {i : Instr} {s : State} {fd : FReg} {xs : List (Lanes Limbs)} (h : exec i s = retire (s.setGroup fd xs))
    (hf : fd.toNat + xs.length ≤ 32) :
    ∃ t, exec i s = .next t ∧ t.pc = s.pc + 1 ∧ Frame { fregs := groupList fd xs.length } s t ∧
      ∀ (c : Nat) (hc : c < xs.length), t.freg (groupReg fd c) = xs[c] :=
  ⟨_, h, by obtain ⟨v, e⟩ := setGroup_rest s fd xs; rw [e]; rfl, (frame_setGroup s fd xs).advance, fun c hc => by
    rw [State.advance_freg]
    exact State.freg_setGroup_member s fd xs c hc hf⟩

end Sys2Proof.Machine
end

