-- ==== Sys2Proof/Laws/Points.lean ====
section
/-! SUPPORT. Closed forms of the operations the table, swap and point instructions share: the selected table entry, the
operand check of a swap, and what a written point group holds. -/

namespace Sys2Proof.Machine

open Sys2Proof.Config

/-- The scan of a window keeps the entry whose index is one below `m`, or the neutral (R211, R212). -/
theorem scan_eq (T : BaseTable) (w : Fin 32) (m : Nat) :
    (tableScan w).foldl (fun e a => if m = a.2.val + 1 then tableRead T a.1 a.2 else e) duifNeutral =
      if h : 1 ≤ m ∧ m ≤ 8 then tableRead T w ⟨m - 1, by omega⟩ else duifNeutral := by
  simp only [tableScan, List.finRange, List.ofFn_succ, List.ofFn_zero, List.map_cons, List.map_nil, List.foldl_cons,
    List.foldl_nil]
  by_cases h : 1 ≤ m ∧ m ≤ 8
  · obtain ⟨h1, h2⟩ := h
    interval_cases m <;> rfl
  · rw [dif_neg h]
    have : ∀ j : Fin 8, ¬ m = j.val + 1 := fun j => by omega
    simp only [this, if_false]

/-- The operands of a swap are illegal exactly when the instruction is ill-formed (R114). -/
theorem swapIllegal_iff (fa fb : FReg) (n : BitVec 2) :
    swapIllegal fa fb n ↔ (Instr.cswapf fa fb n).wellFormed = false := by
  unfold swapIllegal groupTooBig groupsOverlap swapSize
  simp only [Instr.wellFormed, FReg.groupFits, FReg.groupsApart, Bool.and_eq_false_iff, decide_eq_false_iff_not]
  split <;> omega

/-- What the members of a written point group hold. -/
theorem extLimbs_members {t : State} {r : FReg} {P : Lanes ExtPoint}
    (h : ∀ (c : Nat) (hc : c < (extLimbs P).length), t.freg (groupReg r c) = (extLimbs P)[c]) (l : Lane) :
    (t.freg r).get l = canon (P.get l).X ∧ (t.freg (groupReg r 1)).get l = canon (P.get l).Y ∧
    (t.freg (groupReg r 2)).get l = canon (P.get l).Z ∧ (t.freg (groupReg r 3)).get l = canon (P.get l).E ∧
    (t.freg (groupReg r 4)).get l = canon (P.get l).H := by
  have h0 := h 0 (by simp [extLimbs])
  have h1 := h 1 (by simp [extLimbs])
  have h2 := h 2 (by simp [extLimbs])
  have h3 := h 3 (by simp [extLimbs])
  have h4 := h 4 (by simp [extLimbs])
  rw [groupReg_zero] at h0
  simp only [extLimbs, List.getElem_cons_zero, List.getElem_cons_succ] at h0 h1 h2 h3 h4
  rw [h0, h1, h2, h3, h4]
  simp

/-- A digit index up to 63 names its digit and its window (R33, R211). -/
theorem digitAt_eq (d : Digits) {i : Nat} (h : i < 64) : digitAt d i = d.get ⟨i, h⟩ := by
  unfold digitAt
  congr 1
  exact Fin.ext (Nat.mod_eq_of_lt h)

theorem windowOf_eq {i : Nat} (h : i < 64) : windowOf i = ⟨i / 2, by omega⟩ := Fin.ext (Nat.mod_eq_of_lt (by omega))

end Sys2Proof.Machine
end

