-- ==== Sys2Proof/Laws/Scalars.lean ====
section
/-! SUPPORT. The clamped scalar as a number, and the digits of the recoding as nibbles with their carries
(spec/44_edwards.md R228, R229). -/

namespace Sys2Proof.Machine

/-! ## Clamping -/

theorem clamp_getLsbD (k : Scalar) {i : Nat} (hi : i < 256) :
    (clamp k).getLsbD i = if i < 3 ∨ i = 255 then false else if i = 254 then true else k.getLsbD i := by
  unfold clamp
  interval_cases i <;> simp

/-- The clamped scalar: bits 3 to 253 of k, with bit 254 set (R228). -/
theorem clamp_toNat (k : Scalar) : (clamp k).toNat = 2 ^ 254 + 8 * (k.toNat / 8 % 2 ^ 251) := by
  have e : clamp k = BitVec.ofNat 256 (2 ^ 254) + (k.extractLsb' 3 251).zeroExtend 256 <<< 3 := by
    rw [BitVec.add_eq_or_of_and_eq_zero]
    · apply BitVec.eq_of_getLsbD_eq
      intro i hi
      rw [clamp_getLsbD k hi]
      have z : ∀ i : Fin 256, (BitVec.ofNat 256 (2 ^ 254)).getLsbD i.val = decide (i.val = 254) := by decide +kernel
      have zi := z ⟨i, hi⟩
      simp only at zi
      rw [BitVec.getLsbD_or, zi]
      simp only [BitVec.getLsbD_shiftLeft, BitVec.zeroExtend, BitVec.getLsbD_setWidth, BitVec.getLsbD_extractLsb']
      by_cases h3 : i < 3
      · have : i ≠ 254 := by omega
        simp [h3, this]
      · by_cases h254 : i = 254
        · subst h254; simp
        · by_cases h255 : i = 255
          · subst h255; simp
          · have h1 : i - 3 < 251 := by omega
            have h2 : i - 3 < 256 := by omega
            have h4 : 3 + (i - 3) = i := by omega
            simp [h3, h254, h255, hi, h1, h2, h4]
    · apply BitVec.eq_of_getLsbD_eq
      intro i hi
      have z : ∀ i : Fin 256, (BitVec.ofNat 256 (2 ^ 254)).getLsbD i.val = decide (i.val = 254) := by decide +kernel
      have zi := z ⟨i, hi⟩
      simp only at zi
      rw [BitVec.getLsbD_and, zi]
      by_cases h254 : i = 254
      · subst h254
        simp
      · simp [h254]
  have hx : (k.extractLsb' 3 251).toNat = k.toNat / 8 % 2 ^ 251 := by
    rw [BitVec.extractLsb'_toNat, Nat.shiftRight_eq_div_pow]
  have hlt : k.toNat / 8 % 2 ^ 251 < 2 ^ 251 := Nat.mod_lt _ (Nat.two_pow_pos 251)
  rw [e, BitVec.toNat_add, BitVec.toNat_shiftLeft, BitVec.zeroExtend, BitVec.toNat_setWidth, hx, BitVec.toNat_ofNat,
    Nat.shiftLeft_eq]
  omega

/-! ## Recoding -/

/-- The carry into digit `i` (R229). -/
def carryInto (k : Scalar) : Nat → Int
  | 0 => 0
  | i + 1 => (nibble k i + carryInto k i + 8) / 16

theorem carryInto_succ (k : Scalar) (i : Nat) : carryInto k (i + 1) = (nibble k i + carryInto k i + 8) / 16 := rfl

theorem nibble_eq (k : Scalar) (i : Nat) : nibble k i = ((k.toNat / 16 ^ i % 16 : Nat) : Int) := by
  unfold nibble slice
  rw [show (16 : Nat) = 2 ^ 4 from rfl, ← Nat.pow_mul]

theorem nibble_range (k : Scalar) (i : Nat) : 0 ≤ nibble k i ∧ nibble k i ≤ 15 := by
  rw [nibble_eq]
  omega

theorem carryInto_range (k : Scalar) : ∀ i, 0 ≤ carryInto k i ∧ carryInto k i ≤ 1
  | 0 => ⟨le_refl 0, zero_le_one⟩
  | i + 1 => by
    have := carryInto_range k i
    have := nibble_range k i
    unfold carryInto
    omega

theorem recodeFrom_getD (k : Scalar) : ∀ (n i j : Nat), j ≤ n →
    (recodeFrom k n i (carryInto k i)).getD j 0 =
      if j = n then nibble k (i + j) + carryInto k (i + j)
      else nibble k (i + j) + carryInto k (i + j) - 16 * carryInto k (i + j + 1)
  | 0, i, j, h => by
    have : j = 0 := by omega
    subst this
    simp [recodeFrom]
  | n + 1, i, j, h => by
    cases j with
    | zero => simp [recodeFrom, carryInto]
    | succ j =>
      have ih := recodeFrom_getD k n (i + 1) j (by omega)
      simp only [recodeFrom, List.getD_cons_succ, ← carryInto_succ]
      rw [ih]
      have e : i + 1 + j = i + (j + 1) := by omega
      simp only [e, Nat.add_right_cancel_iff]

/-- A digit before the last: its nibble with the carry in, less sixteen times the carry out (R229). -/
theorem recode_get (k : Scalar) (i : Fin 64) (h : i.val < 63) :
    (recode k).get i = nibble k i.val + carryInto k i.val - 16 * carryInto k (i.val + 1) := by
  unfold recode
  rw [vector_get_ofFn]
  have := recodeFrom_getD k 63 0 i.val (by omega)
  rw [show carryInto k 0 = 0 from rfl, if_neg (by omega), Nat.zero_add] at this
  exact this

/-- The last digit: its nibble with the carry in (R229). -/
theorem recode_get_last (k : Scalar) : (recode k).get 63 = nibble k 63 + carryInto k 63 := by
  unfold recode
  rw [vector_get_ofFn]
  exact recodeFrom_getD k 63 0 63 (by omega)

/-- Every digit lies in [-8, 16] (R33). -/
theorem recode_range (k : Scalar) (i : Fin 64) : -8 ≤ (recode k).get i ∧ (recode k).get i ≤ 16 := by
  have n := nibble_range k i.val
  have c := carryInto_range k i.val
  by_cases h : i.val < 63
  · rw [recode_get k i h, carryInto_succ]
    omega
  · have e : i = 63 := Fin.ext (by have := i.isLt; show i.val = 63; omega)
    subst e
    rw [recode_get_last]
    have n : 0 ≤ nibble k 63 ∧ nibble k 63 ≤ 15 := n
    have c : 0 ≤ carryInto k 63 ∧ carryInto k 63 ≤ 1 := c
    omega

end Sys2Proof.Machine
end

