-- ==== Sys2Proof/Laws/Step.lean ====
section
/-! SUPPORT. Everything a step can do, said once: the cases of the engine step, of a turn, and of `exec` (a fault entered
whole, HALT, or one kind of write followed by a jump). -/

namespace Sys2Proof.Machine

open Sys2Proof.Config

/-! ## The engine step -/

theorem engineStep_idle {s : State} (h : s.busy = false) : engineStep s = .next s := by
  simp [engineStep, h]

theorem engineStep_abort {s : State} (hb : s.busy = true) (ha : s.abortReq = true) :
    engineStep s = .next (s.faultEntry .aborted 0) := by
  simp [engineStep, hb, ha]

theorem engineStep_fetchRange {s : State} (hb : s.busy = true) (ha : s.abortReq = false)
    (hp : s.params.imemWords ≤ s.pc.toNat) : engineStep s = .next (s.faultEntry .fetchRange 0) := by
  simp [engineStep, hb, ha, hp]

theorem engineStep_fetch {s : State} (hb : s.busy = true) (ha : s.abortReq = false)
    (hp : s.pc.toNat < s.params.imemWords) : engineStep s = s.runWord (s.wordAt .imem s.pc.toNat) := by
  simp [engineStep, hb, ha, hp, State.fetched]

theorem runWord_error {s : State} {w : Word} {e : Illegal} (h : decode w = .error e) :
    s.runWord w = .next (s.faultEntry .illegalInstruction w) := by
  simp only [State.runWord, h]

theorem runWord_ok {s : State} {w : Word} {i : Instr} (h : decode w = .ok i) : s.runWord w = exec i s := by
  simp only [State.runWord, h]

/-- Everything an engine step can do. -/
theorem engineStep_cases (s : State) :
    (s.busy = false ∧ engineStep s = .next s) ∨
    (s.busy = true ∧ s.abortReq = true ∧ engineStep s = .next (s.faultEntry .aborted 0)) ∨
    (s.busy = true ∧ s.abortReq = false ∧ s.params.imemWords ≤ s.pc.toNat ∧
      engineStep s = .next (s.faultEntry .fetchRange 0)) ∨
    (s.busy = true ∧ s.abortReq = false ∧ s.pc.toNat < s.params.imemWords ∧ ∃ e, decode s.fetched = .error e ∧
      engineStep s = .next (s.faultEntry .illegalInstruction s.fetched)) ∨
    (s.busy = true ∧ s.abortReq = false ∧ s.pc.toNat < s.params.imemWords ∧ ∃ i, decode s.fetched = .ok i ∧
      engineStep s = exec i s) := by
  cases hb : s.busy
  · exact .inl ⟨rfl, engineStep_idle hb⟩
  · cases ha : s.abortReq
    · by_cases hp : s.params.imemWords ≤ s.pc.toNat
      · exact .inr (.inr (.inl ⟨rfl, rfl, hp, engineStep_fetchRange hb ha hp⟩))
      · have hp : s.pc.toNat < s.params.imemWords := Nat.lt_of_not_le hp
        have run := engineStep_fetch hb ha hp
        cases hd : decode s.fetched with
        | error e => exact .inr (.inr (.inr (.inl ⟨rfl, rfl, hp, e, rfl, run.trans (runWord_error hd)⟩)))
        | ok i => exact .inr (.inr (.inr (.inr ⟨rfl, rfl, hp, i, rfl, run.trans (runWord_ok hd)⟩)))
    · exact .inr (.inl ⟨rfl, rfl, engineStep_abort hb ha⟩)

/-! ## Turns -/

/-- The engine moves when no turn is listed or its own is next. -/
theorem step_engine {s u : State}
    (h : s.turns = [] ∧ u = s ∨ ∃ rest, s.turns = .engine :: rest ∧ u = { s with turns := rest }) :
    step s = engineStep u := by
  rcases h with ⟨h, rfl⟩ | ⟨rest, h, rfl⟩ <;> simp only [step, h, turnStep]

/-- Everything a step can be: the engine's, a host read, a host write, or a reset. -/
theorem step_cases (s : State) :
    (s.turns = [] ∧ step s = engineStep s) ∨
    (∃ rest, s.turns = .engine :: rest ∧ step s = engineStep { s with turns := rest }) ∨
    (∃ width o rest, s.turns = .hostRead width o :: rest ∧
      step s = .next (State.hostReadTurn { s with turns := rest } width o)) ∨
    (∃ width o data rest, s.turns = .hostWrite width o data :: rest ∧
      step s = .next (State.hostWrite { s with turns := rest } width o data)) ∨
    (∃ rest, s.turns = .reset :: rest ∧ step s = .next (State.resetEvent { s with turns := rest })) := by
  cases h : s.turns with
  | nil => exact .inl ⟨rfl, by simp only [step, h]⟩
  | cons t rest =>
    cases t with
    | engine => exact .inr (.inl ⟨rest, rfl, by simp only [step, h, turnStep]⟩)
    | hostRead width o => exact .inr (.inr (.inl ⟨width, o, rest, rfl, by simp only [step, h, turnStep]⟩))
    | hostWrite width o data =>
      exact .inr (.inr (.inr (.inl ⟨width, o, data, rest, rfl, by simp only [step, h, turnStep]⟩)))
    | reset => exact .inr (.inr (.inr (.inr ⟨rest, rfl, by simp only [step, h, turnStep]⟩)))

@[simp] theorem wordAt_setTurns (s : State) (rest : List Turn) (sp : Space) (i : Nat) :
    State.wordAt { s with turns := rest } sp i = s.wordAt sp i := by cases sp <;> rfl

@[simp] theorem fetched_setTurns (s : State) (rest : List Turn) : State.fetched { s with turns := rest } = s.fetched := rfl

/-! ## Executing one instruction -/

/-- The writes an instruction can make before its PC update; each instruction makes one of them. -/
inductive Writes (s : State) : State → Prop where
  | nothing : Writes s s
  | field (r : FReg) (x : Lanes Limbs) : Writes s (s.setF r x)
  | group (r : FReg) (xs : List (Lanes Limbs)) : Writes s (s.setGroup r xs)
  | scalar (r : SReg) (x : Lanes Scalar) : Writes s (s.setS r x)
  | digits (r : DReg) (k : Lanes Scalar) : Writes s (s.setD r (k.map recode))
  | counter (r : CReg) (v : Half) : Writes s (s.setC r v)
  | swap (fa fb : FReg) (sw b : Lanes Bool) (n : Nat) : Writes s ((s.swapGroups fa fb sw n).setSwp b)
  | store (ea : Nat) (ws : List Word) (h : ea + ws.length ≤ s.params.dmemWords) : Writes s (s.storeWords ea ws)

/-- A write has a frame. -/
theorem Writes.frame {s t : State} (h : Writes s t) : ∃ fp, Frame fp s t := by
  cases h with
  | nothing => exact ⟨{}, Frame.refl _ s⟩
  | field r x => exact ⟨_, frame_setF s r x⟩
  | group r xs => exact ⟨_, frame_setGroup s r xs⟩
  | scalar r x => exact ⟨_, frame_setS s r x⟩
  | digits r k => exact ⟨_, frame_setD s r _⟩
  | counter r v => exact ⟨_, frame_setC s r v⟩
  | swap fa fb sw b n => exact ⟨_, frame_swap s fa fb sw b n⟩
  | store ea ws h => exact ⟨_, frame_storeWords s ea rfl⟩

/-- No write of an instruction reaches IMEM (R73). -/
theorem Writes.imem {s t : State} (h : Writes s t) : t.imem = s.imem := by
  cases h with
  | group r xs => obtain ⟨v, e⟩ := setGroup_rest s r xs; rw [e]
  | swap fa fb sw b n => obtain ⟨v, e⟩ := swapGroups_rest s fa fb sw n; rw [e]; rfl
  | counter r v => unfold State.setC; split <;> rfl
  | _ => rfl

theorem Writes.control {s t : State} (h : Writes s t) : SameControl s t := h.frame.elim fun _ f => f.control

/-- No write of an instruction moves the PC; the PC update follows it. -/
theorem Writes.pc {s t : State} (h : Writes s t) : t.pc = s.pc := by
  cases h with
  | group r xs => obtain ⟨v, e⟩ := setGroup_rest s r xs; rw [e]
  | swap fa fb sw b n => obtain ⟨v, e⟩ := swapGroups_rest s fa fb sw n; rw [e]; rfl
  | counter r v => unfold State.setC; split <;> rfl
  | _ => rfl

/-- The causes an instruction itself can raise (R281). -/
abbrev InstructionCause (c : Cause) : Prop := c = .illegalOperand ∨ c = .indexRange ∨ c = .dmemRange

/-- What one instruction does: it enters a fault whole, or it is HALT, or it makes one write and moves the PC. -/
abbrev ExecCase (i : Instr) (s : State) : Prop :=
  (∃ c, InstructionCause c ∧ exec i s = .next (s.faultEntry c (encode i))) ∨
  (i = .halt ∧ exec i s = .next { s.advance with done := true, busy := false, abortReq := false }) ∨
  (i ≠ .halt ∧ ∃ t pc, Writes s t ∧ exec i s = .next (t.jump pc))

theorem execCase_raise {i : Instr} {s : State} {c : Cause} (hc : InstructionCause c) (h : exec i s = raise c i s) :
    ExecCase i s := .inl ⟨c, hc, h⟩

theorem execCase_retire {i : Instr} {s t : State} (hi : i ≠ .halt) (hw : Writes s t) (h : exec i s = retire t) :
    ExecCase i s := .inr (.inr ⟨hi, t, t.pc + 1, hw, h⟩)

/-- A load or store after its range check. -/
theorem execCase_access {i : Instr} {s t : State} {P : Prop} [Decidable P] (hi : i ≠ .halt) (hw : ¬ P → Writes s t)
    (h : exec i s = if P then raise .dmemRange i s else retire t) : ExecCase i s := by
  by_cases hp : P
  · exact execCase_raise (c := .dmemRange) (by decide) (by rw [h, if_pos hp])
  · exact execCase_retire hi (hw hp) (by rw [h, if_neg hp])

/-- An instruction after its operand check. -/
theorem execCase_checked {i : Instr} {s : State} {P : Prop} [Decidable P] {r : Result}
    (h : exec i s = if P then raise .illegalOperand i s else r) (hr : ¬ P → exec i s = r → ExecCase i s) :
    ExecCase i s := by
  by_cases hp : P
  · exact execCase_raise (c := .illegalOperand) (by decide) (by rw [h, if_pos hp])
  · exact hr hp (by rw [h, if_neg hp])

/-- Every instruction is one of the cases. -/
theorem exec_cases (i : Instr) (s : State) : ExecCase i s := by
  cases i with
  | nop => exact execCase_retire (by simp) .nothing rfl
  | halt => exact .inr (.inl ⟨rfl, rfl⟩)
  | jmp tgt => exact .inr (.inr ⟨by simp, s, tgt, .nothing, rfl⟩)
  | bnez ca tgt =>
    refine .inr (.inr ⟨by simp, s, if s.creg ca ≠ 0 then tgt else s.pc + 1, .nothing, ?_⟩)
    show execBnez ca tgt s = _
    unfold execBnez
    split <;> rfl
  | dbnz ca tgt =>
    refine .inr (.inr ⟨by simp, s.setC ca (s.creg ca - 1),
      if s.creg ca - 1 ≠ 0 then tgt else (s.setC ca (s.creg ca - 1)).pc + 1, .counter _ _, ?_⟩)
    show execDbnz ca tgt s = _
    unfold execDbnz
    simp only
    split <;> rfl
  | cseti cd imm => exact execCase_retire (by simp) (.counter _ _) rfl
  | caddi cd simm => exact execCase_retire (by simp) (.counter _ _) rfl
  | fld fd ca addr => exact execCase_access (by simp) (fun _ => .field _ _) rfl
  | fst fs ca addr =>
    exact execCase_access (by simp) (fun h => .store _ _ (by rw [length_words256]; exact Nat.le_of_not_lt h)) rfl
  | fldl fd ca addr => exact execCase_access (by simp) (fun _ => .field _ _) rfl
  | fstl fs ca addr =>
    exact execCase_access (by simp) (fun h => .store _ _ (by rw [length_wordsLimbs]; exact Nat.le_of_not_lt h)) rfl
  | sld sd ca addr =>
    exact execCase_checked rfl fun _ e => execCase_access (by simp) (fun _ => .scalar _ _) e
  | sst ss ca addr =>
    exact execCase_checked rfl fun _ e =>
      execCase_access (by simp) (fun h => .store _ _ (by rw [length_words256]; exact Nat.le_of_not_lt h)) e
  | fadd fd fa fb => exact execCase_retire (by simp) (.field _ _) rfl
  | fsub fd fa fb => exact execCase_retire (by simp) (.field _ _) rfl
  | fmul fd fa fb => exact execCase_retire (by simp) (.field _ _) rfl
  | fsqr fd fa => exact execCase_retire (by simp) (.field _ _) rfl
  | fmov fd fa => exact execCase_retire (by simp) (.field _ _) rfl
  | fnorm fd fa => exact execCase_retire (by simp) (.field _ _) rfl
  | finv fd fa => exact execCase_retire (by simp) (.field _ _) rfl
  | fmulc fd fa imm => exact execCase_retire (by simp) (.field _ _) rfl
  | fseti fd imm => exact execCase_retire (by simp) (.field _ _) rfl
  | clamp sd sa => exact execCase_checked rfl fun _ e => execCase_retire (by simp) (.scalar _ _) e
  | recode dd sa => exact execCase_checked rfl fun _ e => execCase_retire (by simp) (.digits _ _) e
  | cswap fa fb sa cc n =>
    refine execCase_checked rfl fun _ e => ?_
    by_cases h : bitIndexTooBig (s.creg cc)
    · exact execCase_raise (c := .indexRange) (by decide) (by rw [e, if_pos h])
    · exact execCase_retire (by simp) (.swap _ _ _ _ _) (by rw [e, if_neg h])
  | cswapf fa fb n => exact execCase_checked rfl fun _ e => execCase_retire (by simp) (.swap _ _ _ _ _) e
  | tblsel fd dd cc =>
    refine execCase_checked rfl fun _ e => ?_
    by_cases h : digitIndexTooBig (s.creg cc)
    · exact execCase_raise (c := .indexRange) (by decide) (by rw [e, if_pos h])
    · exact execCase_retire (by simp) (.group _ _) (by rw [e, if_neg h])
  | edinit fd => exact execCase_checked rfl fun _ e => execCase_retire (by simp) (.group _ _) e
  | edadd fd fa fb => exact execCase_checked rfl fun _ e => execCase_retire (by simp) (.group _ _) e
  | eddbl fd fa => exact execCase_checked rfl fun _ e => execCase_retire (by simp) (.group _ _) e
  | ladstep fd fa => exact execCase_checked rfl fun _ e => execCase_retire (by simp) (.group _ _) e
  | edfbmul fd sb => exact execCase_checked rfl fun _ e => execCase_retire (by simp) (.group _ _) e
  | monfb fd sb => exact execCase_checked rfl fun _ e => execCase_retire (by simp) (.group _ _) e
  | monvb fd fa sb => exact execCase_checked rfl fun _ e => execCase_retire (by simp) (.group _ _) e
  | keygen fd sb => exact execCase_checked rfl fun _ e => execCase_retire (by simp) (.field _ _) e
  | shsec fd fa sb => exact execCase_checked rfl fun _ e => execCase_retire (by simp) (.field _ _) e

end Sys2Proof.Machine
end

