-- ==== Sys2Proof/Machine/Assembler.lean ====
section
/-! DEFINITION. The assembler syntax (spec/30_encoding.md R131): one instruction per line, mnemonic first, operands
separated by commas, comments from `;` to the end of the line. There are no pseudo-instructions, and this assembler offers
no labels. It has no part in what the machine does (log entry 24). -/

namespace Sys2Proof.Machine

/-! ## Characters and numbers -/

/-- The text without its leading and trailing blanks. -/
def trimBlanks (cs : List Char) : List Char :=
  ((cs.dropWhile (·.isWhitespace)).reverse.dropWhile (·.isWhitespace)).reverse

/-- The pieces of the text between the separators. -/
def splitAtChar (sep : Char) : List Char → List (List Char)
  | [] => [[]]
  | c :: cs =>
    match splitAtChar sep cs with
    | [] => [[]]
    | piece :: pieces => if c = sep then [] :: piece :: pieces else (c :: piece) :: pieces

/-- The value of one digit in a base up to 16. -/
def digitValue (base : Nat) (c : Char) : Option Nat :=
  let v :=
    if '0' ≤ c ∧ c ≤ '9' then c.toNat - '0'.toNat
    else if 'a' ≤ c ∧ c ≤ 'f' then c.toNat - 'a'.toNat + 10
    else if 'A' ≤ c ∧ c ≤ 'F' then c.toNat - 'A'.toNat + 10
    else base
  if v < base then some v else none

/-- The number the digits spell, most significant first. -/
def digitsValue (base acc : Nat) : List Char → Option Nat
  | [] => some acc
  | c :: cs => (digitValue base c).bind fun v => digitsValue base (acc * base + v) cs

/-- An unsigned number, decimal or `0x` hexadecimal (R131). -/
def parseNat : List Char → Option Nat
  | '0' :: 'x' :: c :: cs => digitsValue 16 0 (c :: cs)
  | c :: cs => digitsValue 10 0 (c :: cs)
  | [] => none

/-- A number below `2^len`, as a bit vector. -/
def parseBits (len : Nat) (cs : List Char) : Option (BitVec len) :=
  (parseNat cs).bind fun v => if v < 2 ^ len then some (BitVec.ofNat len v) else none

/-- CADDI's immediate: -32768 .. 65535, encoded as its low 16 bits (R131). -/
def parseSimm : List Char → Option Half
  | '-' :: cs => (parseNat cs).bind fun v => if v ≤ 32768 then some (-(BitVec.ofNat 16 v)) else none
  | cs => parseBits 16 cs

/-- A register of the file `letter` with a number below `count` (R131). -/
def parseReg (letter : Char) (count len : Nat) : List Char → Option (BitVec len)
  | c :: cs => if c = letter then (parseNat cs).bind fun v => if v < count then some (BitVec.ofNat len v) else none else none
  | [] => none

/-- F0 .. F31. -/
def parseF : List Char → Option FReg := parseReg 'F' 32 5

/-- S0 .. S3 in a 5-bit field. -/
def parseS : List Char → Option RField := parseReg 'S' 4 5

/-- D0 .. D3 in a 5-bit field. -/
def parseD : List Char → Option RField := parseReg 'D' 4 5

/-- C0 .. C7. -/
def parseC : List Char → Option CReg := parseReg 'C' 8 3

/-- A memory operand `ADDR(Cn)`, or `ADDR` for `ADDR(C0)` (R131). -/
def parseMem (cs : List Char) : Option (CReg × Half) :=
  match splitAtChar '(' cs with
  | [a] => (parseBits 16 (trimBlanks a)).map fun v => (0, v)
  | [a, r] =>
    match (trimBlanks r).reverse with
    | ')' :: q => (parseC (trimBlanks q.reverse)).bind fun c => (parseBits 16 (trimBlanks a)).map fun v => (c, v)
    | _ => none
  | _ => none

/-- A swap group size n = 1 .. 4, encoded as N = n - 1 (R107). -/
def parseSize (cs : List Char) : Option (BitVec 2) :=
  (parseNat cs).bind fun v => if 1 ≤ v ∧ v ≤ 4 then some (BitVec.ofNat 2 (v - 1)) else none

/-! ## Instructions -/

/-- The instruction of a mnemonic and its operands in the order of R131. -/
def assembleOperands (mnemonic : String) (ops : List (List Char)) : Option Instr :=
  match ops with
  | [] =>
    if mnemonic = "NOP" then some .nop
    else if mnemonic = "HALT" then some .halt
    else none
  | [a] =>
    if mnemonic = "JMP" then (parseBits 16 a).map .jmp
    else if mnemonic = "EDINIT" then (parseF a).map .edinit
    else none
  | [a, b] =>
    if mnemonic = "BNEZ" then (parseC a).bind fun c => (parseBits 16 b).map (.bnez c)
    else if mnemonic = "DBNZ" then (parseC a).bind fun c => (parseBits 16 b).map (.dbnz c)
    else if mnemonic = "CSETI" then (parseC a).bind fun c => (parseBits 16 b).map (.cseti c)
    else if mnemonic = "CADDI" then (parseC a).bind fun c => (parseSimm b).map (.caddi c)
    else if mnemonic = "FLD" then (parseF a).bind fun f => (parseMem b).map fun m => .fld f m.1 m.2
    else if mnemonic = "FST" then (parseF a).bind fun f => (parseMem b).map fun m => .fst f m.1 m.2
    else if mnemonic = "FLDL" then (parseF a).bind fun f => (parseMem b).map fun m => .fldl f m.1 m.2
    else if mnemonic = "FSTL" then (parseF a).bind fun f => (parseMem b).map fun m => .fstl f m.1 m.2
    else if mnemonic = "SLD" then (parseS a).bind fun r => (parseMem b).map fun m => .sld r m.1 m.2
    else if mnemonic = "SST" then (parseS a).bind fun r => (parseMem b).map fun m => .sst r m.1 m.2
    else if mnemonic = "FSQR" then (parseF a).bind fun d => (parseF b).map (.fsqr d)
    else if mnemonic = "FMOV" then (parseF a).bind fun d => (parseF b).map (.fmov d)
    else if mnemonic = "FNORM" then (parseF a).bind fun d => (parseF b).map (.fnorm d)
    else if mnemonic = "FINV" then (parseF a).bind fun d => (parseF b).map (.finv d)
    else if mnemonic = "FSETI" then (parseF a).bind fun d => (parseBits 17 b).map (.fseti d)
    else if mnemonic = "CLAMP" then (parseS a).bind fun d => (parseS b).map (.clamp d)
    else if mnemonic = "RECODE" then (parseD a).bind fun d => (parseS b).map (.recode d)
    else if mnemonic = "EDDBL" then (parseF a).bind fun d => (parseF b).map (.eddbl d)
    else if mnemonic = "LADSTEP" then (parseF a).bind fun d => (parseF b).map (.ladstep d)
    else if mnemonic = "EDFBMUL" then (parseF a).bind fun d => (parseS b).map (.edfbmul d)
    else if mnemonic = "MONFB" then (parseF a).bind fun d => (parseS b).map (.monfb d)
    else if mnemonic = "KEYGEN" then (parseF a).bind fun d => (parseS b).map (.keygen d)
    else none
  | [a, b, c] =>
    if mnemonic = "FADD" then (parseF a).bind fun d => (parseF b).bind fun x => (parseF c).map (.fadd d x)
    else if mnemonic = "FSUB" then (parseF a).bind fun d => (parseF b).bind fun x => (parseF c).map (.fsub d x)
    else if mnemonic = "FMUL" then (parseF a).bind fun d => (parseF b).bind fun x => (parseF c).map (.fmul d x)
    else if mnemonic = "FMULC" then (parseF a).bind fun d => (parseF b).bind fun x => (parseBits 17 c).map (.fmulc d x)
    else if mnemonic = "CSWAPF" then (parseF a).bind fun x => (parseF b).bind fun y => (parseSize c).map (.cswapf x y)
    else if mnemonic = "TBLSEL" then
      (parseF a).bind fun d => (parseReg 'D' 4 2 b).bind fun x => (parseC c).map (.tblsel d x)
    else if mnemonic = "EDADD" then (parseF a).bind fun d => (parseF b).bind fun x => (parseF c).map (.edadd d x)
    else if mnemonic = "MONVB" then (parseF a).bind fun d => (parseF b).bind fun x => (parseS c).map (.monvb d x)
    else if mnemonic = "SHSEC" then (parseF a).bind fun d => (parseF b).bind fun x => (parseS c).map (.shsec d x)
    else none
  | [a, b, c, d, e] =>
    if mnemonic = "CSWAP" then
      (parseF a).bind fun x => (parseF b).bind fun y => (parseSize c).bind fun n =>
        (parseReg 'S' 4 2 d).bind fun r => (parseC e).map fun k => .cswap x y r k n
    else none
  | _ => none

/-- What one line of source says. -/
inductive AsmLine where
  /-- Nothing but blanks and a comment. -/
  | blank
  /-- One instruction. -/
  | instr (i : Instr)
  /-- Text that is no instruction of R131. -/
  | wrong
deriving DecidableEq, Repr

/-- Assemble one line: the comment is dropped, the mnemonic ends at the first blank (R131). -/
def assembleLine (line : List Char) : AsmLine :=
  let text := trimBlanks (line.takeWhile (· ≠ ';'))
  let mnemonic := text.takeWhile (fun c => !c.isWhitespace)
  let operands := trimBlanks (text.dropWhile (fun c => !c.isWhitespace))
  if text = [] then .blank
  else
    match assembleOperands (String.ofList mnemonic) (if operands = [] then [] else (splitAtChar ',' operands).map trimBlanks) with
    | some i => .instr i
    | none => .wrong

/-- The instructions of the lines, none where a line is wrong. -/
def assembleLines : List (List Char) → Option (List Instr)
  | [] => some []
  | l :: ls =>
    match assembleLine l with
    | .blank => assembleLines ls
    | .instr i => (assembleLines ls).map (i :: ·)
    | .wrong => none

/-- Assemble a program text into the words a host writes to IMEM from word 0 on, none where a line is wrong (R131). -/
def assemble (source : String) : Option (List Word) :=
  (assembleLines (splitAtChar '\n' source.toList)).map fun is => is.map encode

end Sys2Proof.Machine
end

