-- ==== Sys2Proof/Tests/Slice0.lean ====
section
/-! SUPPORT. The model's own tests. Expected values come from the spec: the encodings of spec/30_encoding.md, and the worked
vectors of spec/95_test_vectors.md, whose names (C1, M2, …) stand in the comments. The witness theorems show, for each
statement that has hypotheses, a state and operands that meet them. -/

namespace Sys2Proof.Tests

-- The tests are checked one after another: each asks the kernel to run the machine.
set_option Elab.async false

open Sys2Proof.Machine Sys2Proof.Config

/-! ## Well-formedness: for each check one term that it refuses, and its neighbour that it takes (R114) -/

theorem test_wellFormed_scalar_fields :
    (Instr.sld 4 0 0).wellFormed = false ∧ (Instr.sst 31 0 0).wellFormed = false ∧
    (Instr.clamp 4 0).wellFormed = false ∧ (Instr.clamp 0 4).wellFormed = false ∧
    (Instr.recode 4 0).wellFormed = false ∧ (Instr.recode 0 4).wellFormed = false ∧
    (Instr.edfbmul 0 4).wellFormed = false ∧ (Instr.monfb 0 4).wellFormed = false ∧
    (Instr.monvb 0 0 4).wellFormed = false ∧ (Instr.keygen 0 4).wellFormed = false ∧
    (Instr.shsec 0 0 4).wellFormed = false ∧
    (Instr.sld 3 0 0).wellFormed = true ∧ (Instr.shsec 31 31 3).wellFormed = true := by decide

theorem test_wellFormed_groups :
    (Instr.tblsel 30 0 0).wellFormed = false ∧ (Instr.edinit 28).wellFormed = false ∧
    (Instr.edadd 28 0 0).wellFormed = false ∧ (Instr.edadd 0 28 0).wellFormed = false ∧
    (Instr.edadd 0 0 30).wellFormed = false ∧ (Instr.eddbl 28 0).wellFormed = false ∧
    (Instr.eddbl 0 28).wellFormed = false ∧ (Instr.ladstep 29 0).wellFormed = false ∧
    (Instr.edfbmul 31 0).wellFormed = false ∧ (Instr.monfb 31 0).wellFormed = false ∧
    (Instr.monvb 31 0 0).wellFormed = false ∧
    (Instr.tblsel 29 3 7).wellFormed = true ∧ (Instr.edadd 27 27 29).wellFormed = true ∧
    (Instr.ladstep 28 31).wellFormed = true ∧ (Instr.monvb 30 31 3).wellFormed = true := by decide

theorem test_wellFormed_swap_groups :
    (Instr.cswap 29 0 0 0 3).wellFormed = false ∧ (Instr.cswap 0 29 0 0 3).wellFormed = false ∧
    (Instr.cswap 2 3 0 0 1).wellFormed = false ∧ (Instr.cswap 5 5 0 0 0).wellFormed = false ∧
    (Instr.cswapf 30 0 2).wellFormed = false ∧ (Instr.cswapf 3 2 1).wellFormed = false ∧
    (Instr.cswap 28 24 3 7 3).wellFormed = true ∧ (Instr.cswapf 0 1 0).wellFormed = true := by decide

/-! ## Decoding: a word of every row of R110, as spec/95 lists it, and words of every format written out field by field -/

theorem test_decode_sequencer :
    decode 0x00000001 = .ok .nop ∧ decode 0x00000002 = .ok .halt ∧ decode 0x08000123 = .ok (.jmp 0x123) ∧
    decode 0x13000045 = .ok (.bnez 3 0x45) ∧ decode 0x1A000009 = .ok (.dbnz 2 9) ∧
    decode 0x210000FE = .ok (.cseti 1 254) ∧ decode 0x2900FFFF = .ok (.caddi 1 0xFFFF) := by decide +kernel

theorem test_decode_memory :
    decode 0x30480020 = .ok (.fld 1 1 0x20) ∧ decode 0x38400040 = .ok (.fst 1 0 0x40) ∧
    decode 0x40C00200 = .ok (.fldl 3 0 0x200) ∧ decode 0x48C00300 = .ok (.fstl 3 0 0x300) ∧
    decode 0x50800000 = .ok (.sld 2 0 0) ∧ decode 0x58800080 = .ok (.sst 2 0 0x80) := by decide +kernel

theorem test_decode_field :
    decode 0x60C22000 = .ok (.fadd 3 1 2) ∧ decode 0x60C22001 = .ok (.fsub 3 1 2) ∧
    decode 0x60C22002 = .ok (.fmul 3 1 2) ∧ decode 0x60C20003 = .ok (.fsqr 3 1) ∧
    decode 0x60C20004 = .ok (.fmov 3 1) ∧ decode 0x60C20005 = .ok (.fnorm 3 1) ∧
    decode 0x60C20006 = .ok (.finv 3 1) ∧ decode 0x68C3FFFF = .ok (.fmulc 3 1 131071) ∧
    decode 0x70C1FFFF = .ok (.fseti 3 131071) := by decide +kernel

theorem test_decode_scalar_swap_table :
    decode 0x78400000 = .ok (.clamp 1 0) ∧ decode 0x78020001 = .ok (.recode 0 1) ∧
    decode 0x80889400 = .ok (.cswap 2 4 1 1 1) ∧ decode 0x80880401 = .ok (.cswapf 2 4 1) ∧
    decode 0x8C020000 = .ok (.tblsel 16 0 1) := by decide +kernel

theorem test_decode_points_macros :
    decode 0x92000000 = .ok (.edinit 8) ∧ decode 0x92110001 = .ok (.edadd 8 8 16) ∧
    decode 0x92100002 = .ok (.eddbl 8 8) ∧ decode 0x98820000 = .ok (.ladstep 2 1) ∧
    decode 0xA2400000 = .ok (.edfbmul 9 0) ∧ decode 0xA0000001 = .ok (.monfb 0 0) ∧
    decode 0xA0820002 = .ok (.monvb 2 1 0) ∧ decode 0xA0000003 = .ok (.keygen 0 0) ∧
    decode 0xA0020004 = .ok (.shsec 0 1 0) := by decide +kernel

/-- The fields of R102 to R108 in their order, highest first. -/
theorem test_decode_words_written_bit_by_bit :
    decode 0b00000_00000_00000_00000_0000000_00001 = .ok .nop ∧
    decode 0b00011_110_00000000_1000000000000001 = .ok (.dbnz 6 0x8001) ∧
    decode 0b00100_101_00000000_0000000000000111 = .ok (.cseti 5 7) ∧
    decode 0b01001_10101_011_000_0100000000000010 = .ok (.fstl 21 3 0x4002) ∧
    decode 0b01100_10001_01010_00101_0000000_00000 = .ok (.fadd 17 10 5) ∧
    decode 0b01110_10011_00000_10000000000000001 = .ok (.fseti 19 0x10001) ∧
    decode 0b01111_00010_00011_00000_0000000_00001 = .ok (.recode 2 3) ∧
    decode 0b10000_10010_01101_10_101_11_00000_00000 = .ok (.cswap 18 13 2 5 3) ∧
    decode 0b10001_01011_10_110_00000000000000000 = .ok (.tblsel 11 2 6) ∧
    decode 0b10010_00110_01100_00000_0000000_00010 = .ok (.eddbl 6 12) ∧
    decode 0b10011_10100_01011_00000_0000000_00000 = .ok (.ladstep 20 11) ∧
    decode 0b10100_01110_11001_00011_0000000_00010 = .ok (.monvb 14 25 3) := by decide +kernel

/-- X1 to X4, F12, F13, and a nonzero zero field in each other format (R112). -/
theorem test_decode_illegal_words :
    decode 0x00000000 = .error .unlistedFunction ∧ decode 0x00000021 = .error .nonzeroField ∧
    decode 0xA8000000 = .error .reservedOpcode ∧ decode 0xFFFFFFFF = .error .reservedOpcode ∧
    decode 0x60C21003 = .error .nonzeroField ∧ decode 0x70C20001 = .error .nonzeroField ∧
    decode 0x09000123 = .error .nonzeroField ∧ decode 0x30410020 = .error .nonzeroField ∧
    decode 0x20010000 = .error .nonzeroField ∧ decode 0x80889420 = .error .nonzeroField ∧
    decode 0x80889401 = .error .nonzeroField ∧ decode 0x8C020001 = .error .nonzeroField ∧
    decode 0x60C22007 = .error .unlistedFunction ∧ decode 0xA0000005 = .error .unlistedFunction := by decide +kernel

/-- The bytes of a word as memory holds them, byte 0 first (R77), and the host's view of the decoder. -/
theorem test_decode_bytes :
    decodeBytes 0x00 0x20 0xC2 0x60 = .ok (.fadd 3 1 2) ∧ decodeTableWord 32 0x60C22000 = some (.fadd 3 1 2) ∧
    decodeTableWord 32 0x60C21003 = none := by decide +kernel

/-! ## One step -/

/-- Four lanes of a field register, loaded unreduced as by FLD. -/
def withF (s : State) (r : FReg) (a b c d : Nat) : State := s.setF r #v[limbs a, limbs b, limbs c, limbs d]

/-- Four lanes of a scalar register. -/
def withS (s : State) (r : SReg) (a b c d : Nat) : State :=
  s.setS r #v[BitVec.ofNat 256 a, BitVec.ofNat 256 b, BitVec.ofNat 256 c, BitVec.ofNat 256 d]

/-- Four lanes of D0 that hold one digit each at index `i`. -/
def withDigit (s : State) (i : Nat) (a b c d : Int) : State :=
  let lane (v : Int) : Digits := Vector.ofFn fun j => if j.val = i then v else 0
  s.setD 0 #v[lane a, lane b, lane c, lane d]

/-- The four lanes as integers. -/
def fVals (s : State) (r : FReg) : List Nat := (s.freg r).toList.map val

/-- The limbs of one lane as integers. -/
def fLimbs (s : State) (r : FReg) (l : Lane) : List Nat := ((s.freg r).get l).toList.map BitVec.toNat

/-- The four scalars as integers. -/
def sVals (s : State) (r : SReg) : List Nat := (s.sreg r).toList.map BitVec.toNat

/-- The words of DMEM from word `i` on, as integers. -/
def words (s : State) (i n : Nat) : List Nat := (List.range n).map fun k => (s.wordAt .dmem (i + k)).toNat

/-- The state one step leaves. -/
def stepped (s : State) : State :=
  match step s with
  | .next t => t
  | _ => s

/-- The step that fetches the word `w` at the PC and runs it. -/
def run (s : State) (w : Nat) : State := stepped (s.withFetchWord 32 w)

/-- What a fault leaves: FAULT, BUSY, CAUSE, FAULT_PC, FAULT_INSN and PC. -/
def endOf (s : State) : List Nat :=
  [s.fault.toNat, s.busy.toNat, causeCode s.cause, s.faultPc.toNat, s.faultInsn.toNat, s.pc.toNat]

/-- C1 to C4. -/
theorem test_nop_halt_jmp :
    (run { State.reset with startPc := 5 } 0x00000001).pc = 6 ∧
    (let t := run { State.reset with startPc := 3 } 0x00000002;
      (t.done, t.busy, t.fault, t.pc) = (true, false, false, 4)) ∧
    (run State.reset 0x08000123).pc = 0x123 := by decide +kernel

theorem test_bnez :
    (run (State.reset.setC 3 1) 0x13000045).pc = 0x45 ∧ (run (State.reset.setC 3 0) 0x13000045).pc = 1 ∧
    (run State.reset 0x10000045).pc = 1 := by decide +kernel

/-- C5, C6. -/
theorem test_dbnz :
    (let t := run (State.reset.setC 2 255) 0x1A000009; (t.creg 2, t.pc) = (254, 9)) ∧
    (let t := run (State.reset.setC 2 1) 0x1A000009; (t.creg 2, t.pc) = (0, 1)) ∧
    (let t := run (State.reset.setC 2 0) 0x1A000009; (t.creg 2, t.pc) = (0xFFFF, 9)) ∧
    (let t := run State.reset 0x18000009; (t.creg 0, t.pc) = (0, 9)) := by decide +kernel

/-- C7, C8. -/
theorem test_cseti_caddi :
    (let t := run State.reset 0x20000005; (t.creg 0, t.pc) = (0, 1)) ∧
    (run State.reset 0x210000FE).creg 1 = 254 ∧
    (run (State.reset.setC 1 0xFE) 0x2900FFFF).creg 1 = 0xFD ∧ (run (State.reset.setC 1 0) 0x2900FFFF).creg 1 = 0xFFFF ∧
    (run (State.reset.setC 1 0xFFFF) 0x29000001).creg 1 = 0 ∧
    (run (State.reset.setC 1 5) 0x29008000).creg 1 = 0x8005 := by decide +kernel

/-- The memory of M1 and M2, four 256-bit values at 0x020. -/
def memM : State :=
  State.reset.storeWords 0x20 (words256 #v[scalarOf (2 ^ 256 - 1), scalarOf p, scalarOf (2 ^ 255 - 1), scalarOf 9])

/-- M1a, M1b. -/
theorem test_fld :
    (let t := run memM 0x30400020;
      fVals t 1 = [2 ^ 256 - 1, p, 2 ^ 255 - 1, 9] ∧ (fLimbs t 1 0).getD 8 0 = 0xFFFFFF ∧
      (fLimbs t 1 1).getD 0 0 = 0x1FFFFFED ∧ (fLimbs t 1 2).getD 8 0 = 0x7FFFFF) ∧
    (let t := run { memM with msbmask := true } 0x30400020;
      fVals t 1 = [2 ^ 255 - 1, p, 2 ^ 255 - 1, 9] ∧ (fLimbs t 1 0).getD 8 0 = 0x7FFFFF) := by decide +kernel

/-- M2a, and M3's counter offset. -/
theorem test_fst :
    (let t := run (withF State.reset 1 (2 ^ 256 - 1) p (2 ^ 255 - 1) 9) 0x38400040;
      words t 0x40 8 = [37, 0, 18, 9, 0, 0, 0, 0]) ∧
    fVals (run ((State.reset.setC 1 0x20).storeWords 0x40 (words256 #v[1, 2, 3, 4])) 0x30480020) 1 = [1, 2, 3, 4] := by
  decide +kernel

/-- M4b, M5b, M6, M7, and M4a, M5a as the edges that are legal: nothing faults. -/
theorem test_load_store_range :
    endOf (run State.reset 0x30400FE1) = [1, 0, 3, 0, 0x30400FE1, 0] ∧
    endOf (run State.reset 0x40400FB9) = [1, 0, 3, 0, 0x40400FB9, 0] ∧
    endOf (run (State.reset.setC 1 0xFFFF) 0x3048FFFF) = [1, 0, 3, 0, 0x3048FFFF, 0] ∧
    endOf (run State.reset 0x5100FFF0) = [1, 0, 2, 0, 0x5100FFF0, 0] ∧
    endOf (run State.reset 0x30400FE0) = [0, 1, 0, 0, 0, 1] ∧
    endOf (run State.reset 0x40400FB8) = [0, 1, 0, 0, 0, 1] := by decide +kernel

/-- M8. -/
theorem test_sld_sst :
    (let s := State.reset.storeWords 0 (words256 #v[1, scalarOf (2 ^ 256 - 1), 0, 5]);
      sVals (run s 0x50800000) 2 = [1, 2 ^ 256 - 1, 0, 5]) ∧
    (let t := run (withS State.reset 2 1 (2 ^ 256 - 1) 0 5) 0x58800080;
      words t 0x80 8 = [1, 0xFFFFFFFF, 0, 5, 0, 0xFFFFFFFF, 0, 0] ∧
      words t 0x9C 4 = [0, 0xFFFFFFFF, 0, 0]) := by decide +kernel

/-- M9a, and the raw limbs of P5's FSTL. -/
theorem test_fldl_fstl :
    (let t := run (State.reset.storeWords 0x200 (List.replicate 72 0xFFFFFFFF)) 0x40C00200;
      fVals t 3 = List.replicate 4
        0x1000000080000003f000001f800000fc000007e000003f000001f800000fbffffffdfffffff) ∧
    (let t := run (withF State.reset 1 p (p + 5) (2 ^ 256 - 1) 3) 0x48400100;
      words t 0x100 8 = [0x1FFFFFED, 0, 0x1FFFFFF2, 0, 0x1FFFFFFF, 0, 0x3, 0]) := by decide +kernel

/-- P1's DMEM words: the layout of four scalars. -/
theorem test_scalar_layout :
    (let k := #v[scalarOf 0x2A2CB91DA5FB77B12A99C0EB872F4CDF4566B25172C1163C7DA518730A6D0777, scalarOf 0, 0,
        scalarOf (2 ^ 256 - 1)];
      words (State.reset.storeWords 0 (words256 k)) 0 5 = [0x0A6D0777, 0, 0, 0xFFFFFFFF, 0x7DA51873]) := by
  decide +kernel

/-- F1 and F11. -/
theorem test_fadd :
    fVals (run (withF (withF State.reset 1 (p - 1) (p + 1) (2 ^ 256 - 1) 0) 2 1 0 0 0) 0x60C22000) 3 = [0, 1, 0x25, 0] ∧
    fVals (run (withF State.reset 1 3 (p - 1) (2 ^ 255) 7) 0x60421000) 1 = [6, p - 2, 0x26, 0xE] := by decide +kernel

/-- F2. -/
theorem test_fsub :
    fVals (run (withF (withF State.reset 1 0 5 p 7) 2 1 5 0 9) 0x60C22001) 3 = [p - 1, 0, 0, p - 2] := by decide +kernel

/-- F3. -/
theorem test_fmul :
    fVals (run (withF (withF State.reset 1 (p - 1) (2 ^ 255) 0 (2 ^ 128)) 2 (p - 1) 2 123 (2 ^ 128)) 0x60C22002) 3 =
      [1, 0x26, 0, 0x26] := by decide +kernel

/-- F4. -/
theorem test_fsqr :
    fVals (run (withF State.reset 1 (p - 1) (2 ^ 128) 19 p) 0x60C20003) 3 = [1, 0x26, 0x169, 0] := by decide +kernel

/-- F5, F6. -/
theorem test_fmulc :
    fVals (run (withF State.reset 1 5 6 7 8) 0x68C20000) 3 = [0, 0, 0, 0] ∧
    fVals (run (withF State.reset 1 (p - 1) 1 2 0) 0x68C3FFFF) 3 = [p - 131071, 0x1FFFF, 0x3FFFE, 0] := by decide +kernel

/-- F7, M9b. -/
theorem test_fnorm :
    fVals (run (withF State.reset 1 p (p + 1) (2 ^ 255 - 1) (2 ^ 256 - 1)) 0x60C20005) 3 = [0, 1, 0x12, 0x25] ∧
    fLimbs (run (State.reset.setF 3 (Vector.replicate 4 (Vector.replicate 9 (BitVec.allOnes 64)))) 0x61060005) 4 2 =
      [0x12FFF, 0x12FFF, 0x3F, 0x3F, 0x3F, 0x3F, 0x3F, 0x3F, 0x3F] := by decide +kernel

/-- F8a, F8b. -/
theorem test_finv :
    fVals (run (withF State.reset 1 0 1 2 (p - 1)) 0x60C20006) 3 = [0, 1, (p + 1) / 2, p - 1] ∧
    fVals (run (withF State.reset 1 3 121666 p (2 ^ 255 - 1)) 0x60C20006) 3 =
      [0x5555555555555555555555555555555555555555555555555555555555555549,
       0x52036cee2b6ffe738cc740797779e89800700a4d4141d8ab75eb4dca135978a4, 0,
       0x238e38e38e38e38e38e38e38e38e38e38e38e38e38e38e38e38e38e38e38e389] := by decide +kernel

/-- F9, F10. -/
theorem test_fmov_fseti :
    fLimbs (run (withF State.reset 1 p 0 0 0) 0x60C20004) 3 0 =
      [0x1FFFFFED, 0x1FFFFFFF, 0x1FFFFFFF, 0x1FFFFFFF, 0x1FFFFFFF, 0x1FFFFFFF, 0x1FFFFFFF, 0x1FFFFFFF, 0x7FFFFF] ∧
    fVals (run State.reset 0x70C1FFFF) 3 = [0x1FFFF, 0x1FFFF, 0x1FFFF, 0x1FFFF] := by decide +kernel

/-- T1 (lanes 0 and 2), with neg T(0, 0) as the spec lists it. -/
theorem test_tblsel_signs :
    (let t := run (withDigit (State.reset.setC 1 1) 1 0 1 (-1) 8) 0x8C020000;
      (fVals t 16).getD 0 0 = (p + 1) / 2 ∧ (fVals t 17).getD 0 0 = (p + 1) / 2 ∧ (fVals t 18).getD 0 1 = 0 ∧
      (fVals t 16).getD 2 0 = 0x227e97c94c7c0933d2e0c21a3447c504fe9ccf82e8a05f59ce881c82eba0489f ∧
      (fVals t 17).getD 2 0 = 0x43e7ce9d19ea5d329385a44c321ea16167c996e37dc6070c97de49e37ac61db9 ∧
      (fVals t 18).getD 2 0 = 0x4877424bb079cd2bd2f2411a115e5339ec930bee19aa9db0aa1b76fd3c42aab9) := by decide +kernel

/-- T2 (lanes 0, 1 and 3) and T4, T5. -/
theorem test_tblsel_window_and_faults :
    (let t := run (withDigit (State.reset.setC 1 2) 2 9 16 (-8) 2) 0x8C020000;
      (fVals t 16).take 2 = [(p + 1) / 2, (p + 1) / 2] ∧
      (fVals t 16).getD 3 0 = 0x41dfcdd7aa840377ba3269d31d88f6ee351ea571bd1021238653155041ac63f9 ∧
      (fVals t 18).getD 3 0 = 0x2b36bc31a2c37116505b1ef6e609347ab7ac39f65a2cba3f1f89f094662c3302) ∧
    endOf (run (State.reset.setC 1 64) 0x8C020000) = [1, 0, 5, 0, 0x8C020000, 0] ∧
    endOf (run (State.reset.setC 1 64) 0x8F820000) = [1, 0, 2, 0, 0x8F820000, 0] := by decide +kernel

/-- The five coordinates that a lane of F8 .. F12 holds. -/
def point8 (s : State) (l : Lane) : List Nat := [8, 9, 10, 11, 12].map fun r => val ((s.freg r).get l)

/-- The identity in F8 .. F12, and the entry T(0, 0) in F16 .. F18. -/
def pointState : State :=
  let e := (defaultTable.get 0).get 0
  ((State.reset.setGroup 8 (extLimbs (Vector.replicate 4 identityPoint))).setGroup 16
    [Vector.replicate 4 (canon e.yp), Vector.replicate 4 (canon e.ym), Vector.replicate 4 (canon e.t2)])

/-- E1, E6. -/
theorem test_edinit :
    point8 (run State.reset 0x92000000) 3 = [0, 1, 1, 0, 1] ∧
    endOf (run State.reset 0x97110001) = [1, 0, 2, 0, 0x97110001, 0] := by decide +kernel

/-- E2. -/
theorem test_edadd : point8 (run pointState 0x92110001) 1 = [baseX, baseY, 1, baseX, baseY] := by decide +kernel

/-- E5: the neutral, on coordinates that are no point. -/
theorem test_edadd_neutral :
    (let s := (State.reset.setGroup 8 (extLimbs (Vector.replicate 4 ⟨3, 5, 7, 11, 13⟩))).setGroup 16
        [Vector.replicate 4 (canon ((p + 1) / 2)), Vector.replicate 4 (canon ((p + 1) / 2)), Vector.replicate 4 (canon 0)];
      point8 (run s 0x92110001) 2 = [21, 35, 49, 3, 5]) := by decide +kernel

/-- E3. -/
theorem test_eddbl : point8 (run pointState 0x92100002) 0 = [0, p - 1, p - 1, 0, p - 1] := by decide +kernel

/-- E7, E8. -/
theorem test_clamp :
    sVals (run (withS State.reset 0 0 (2 ^ 256 - 1) 7 (2 ^ 255 + 2 ^ 254)) 0x78400000) 1 =
      [2 ^ 254, 2 ^ 255 - 8, 2 ^ 254, 2 ^ 254] ∧
    endOf (run State.reset 0x79000000) = [1, 0, 2, 0, 0x79000000, 0] := by decide +kernel

/-- E9b, E9d, E9e. -/
theorem test_recode :
    (let t := run (withS State.reset 1 (2 ^ 256 - 1) (2 ^ 255 - 8) 0x0123456789abcdef 0) 0x78020001;
      ((t.dreg 0).get 0).toList = (-1) :: (List.replicate 62 0 ++ [16]) ∧
      ((t.dreg 0).get 1).toList = (-8) :: (List.replicate 62 0 ++ [8]) ∧
      ((t.dreg 0).get 2).toList.take 6 = [-1, -1, -2, -3, -4, -5]) := by decide +kernel

/-- E10, lanes 0 and 2. -/
theorem test_edfbmul :
    (let t := run (withS State.reset 0 0 1 8 (2 ^ 256 - 1)) 0xA2400000;
      fVals t 9 = [0x4c65e240e3e8dc0efb7c6d96a595989586947c61155b2b6dd5b63c3fea15f5f2,
        0x4c65e240e3e8dc0efb7c6d96a595989586947c61155b2b6dd5b63c3fea15f5f2,
        0x28f807af56e042ec7cc8eae3b7ea174b209ed3d0ccddd1f56b64fb111bf15ba0,
        0x7bcacf43ab971e6c2479ad4f3dc05fc3222d1b0ca7d3d1e045832727821c504d] ∧
      (fVals t 10).getD 3 0 = 0x37196c0a32378d393f7786822b3afd88ddc2c616e7bbccbd343179385df73913) := by decide +kernel

/-- L1a and L2. -/
theorem test_ladstep :
    (let t := run (withF (withF (withF (withF (withF State.reset 1 9 0 9 0) 2 1 1 1 1) 3 0 0 0 0) 4 9 0 9 0) 5 1 1 1 1)
        0x98820000;
      [2, 3, 4, 5].map (fVals t) = [[1, 1, 1, 1], [0, 0, 0, 0], [0x144, 0, 0x144, 0], [0x24, 0, 0x24, 0]]) := by
  decide +kernel

/-- The registers of L3 and L4. -/
def swapState (swp : Lanes Bool) : State :=
  { withF (withF (withF (withF (withS (State.reset.setC 1 254) 1 (2 ^ 254) (2 ^ 254) 0 0) 2 10 11 12 13) 3 20 21 22 23)
      4 30 31 32 33) 5 40 41 42 43 with swp := swp }

/-- L3. -/
theorem test_cswap :
    (let t := run (swapState #v[false, true, true, false]) 0x80889400;
      [2, 3, 4, 5].map (fVals t) = [[30, 11, 32, 13], [40, 21, 42, 23], [10, 31, 12, 33], [20, 41, 22, 43]] ∧
      t.swp.toList = [true, true, false, false]) := by decide +kernel

/-- L4's exchange on SWP, from the registers before L3, and L5 to L7. -/
theorem test_cswapf_and_swap_faults :
    (let t := run (swapState #v[true, false, true, false]) 0x80880401;
      [2, 3, 4, 5].map (fVals t) = [[30, 11, 32, 13], [40, 21, 42, 23], [10, 31, 12, 33], [20, 41, 22, 43]] ∧
      t.swp.toList = [false, false, false, false]) ∧
    endOf (run (State.reset.setC 1 256) 0x80889400) = [1, 0, 5, 0, 0x80889400, 0] ∧
    endOf (run (State.reset.setC 1 300) 0x80869400) = [1, 0, 2, 0, 0x80869400, 0] ∧
    endOf (run State.reset 0x87800801) = [1, 0, 2, 0, 0x87800801, 0] := by decide +kernel

/-- L8 (lane 0) and L9. -/
theorem test_monvb :
    (let t := run (withF State.reset 1 9 (p + 9) 9 0) 0xA0820002;
      fVals t 2 = [0x76b89ae292d293790a1e9aba6b40a3045cea14ae017856bc821ef4269ee6fd6f,
        0x76b89ae292d293790a1e9aba6b40a3045cea14ae017856bc821ef4269ee6fd6f,
        0x76b89ae292d293790a1e9aba6b40a3045cea14ae017856bc821ef4269ee6fd6f, 0] ∧
      (fVals t 3).getD 1 0 = 0x2c6f08ea6319f2d8e3b432f86da0a8446074fa839afdb1b94efee4053aecbbcd) := by decide +kernel

/-- L10. -/
theorem test_monfb :
    (let t := run State.reset 0xA0000001;
      (fVals t 0).getD 0 0 = 0x388c44983304795ed7d1a1b9cefe6d43a5065f39d8eb2fa848741726e2f3509f ∧
      (fVals t 1).getD 0 0 = 0x1fc080166b32c140e0d8c68c83d33c1897dd6677ae34d8cc9d079ea70ec764a8) := by decide +kernel

/-- K5, lanes 0, 1 and 3. -/
theorem test_keygen :
    fVals (run (withS State.reset 0 0 7 0 (2 ^ 256 - 1)) 0xA0000003) 0 =
      [0x743bcb585f9990edc2cfc4af84f6ff300729bb5facda28154362cd47a37de52f,
       0x743bcb585f9990edc2cfc4af84f6ff300729bb5facda28154362cd47a37de52f,
       0x743bcb585f9990edc2cfc4af84f6ff300729bb5facda28154362cd47a37de52f,
       0x225aaaae538c4d6a3a9d60d113760f5a73a387519560e665f33452372c0d7c84] := by decide +kernel

/-- K7, and K6's p - 1. -/
theorem test_shsec :
    fVals (run (withF State.reset 1 9 (p + 9) (2 ^ 255 + 9) (p - 1)) 0xA0020004) 0 =
      [0x743bcb585f9990edc2cfc4af84f6ff300729bb5facda28154362cd47a37de52f,
       0x743bcb585f9990edc2cfc4af84f6ff300729bb5facda28154362cd47a37de52f,
       0x0ef40afe31fe6e4557e3217969188ddc513bcef848fd5aeb74fbc7b877f94beb, 0] := by decide +kernel

/-! ## Faults, host and reset -/

/-- C9, X1, X2, and X6 at the boundary after the instruction at PC 7. -/
theorem test_engine_faults :
    endOf (stepped { State.reset with busy := true, pc := 0x400 }) = [1, 0, 4, 0x400, 0, 0x400] ∧
    endOf (run State.reset 0x00000000) = [1, 0, 1, 0, 0, 0] ∧
    endOf (run State.reset 0x00000021) = [1, 0, 1, 0, 0x21, 0] ∧
    endOf (stepped { State.reset with busy := true, pc := 8, abortReq := true }) = [1, 0, 6, 8, 0, 8] := by
  decide +kernel

/-- X7 to X10. -/
theorem test_host_while_busy_and_irq :
    (let t := ({ State.reset with busy := true, abortReq := true } : State).after .halt;
      (t.done, t.abortReq, t.cause) = (true, false, Cause.none)) ∧
    (({ State.reset with busy := true } : State).hostWrite .word 8 1 =
      { State.reset with busy := true, hberr := true }) ∧
    (({ State.reset with busy := true } : State).hostRead .word 0x8000 =
      (0, { State.reset with busy := true, hberr := true })) ∧
    (({ State.reset with ie := true, done := true } : State).irq = true) ∧
    ((({ State.reset with ie := true, done := true } : State).hostWrite .word 0xC 2).irq = false) := by decide +kernel

/-- X11. -/
theorem test_reset_registers :
    [0x00, 0x04, 0x08, 0x0C, 0x14, 0x18, 0x24].map (fun o => (State.reset.hostRead .word o).1) =
      [0x45433235, 1, 0, 0, 0, 0, 0x00000C0A] ∧ State.reset.irq = false := by decide +kernel

/-- A host turn writes a program word and a later turn starts the run (R326); the word read back is the word written. -/
theorem test_host_turns :
    (let t := stepped { State.reset with turns := [.hostWrite .word 0x4000 0x00000002, .hostWrite .word 8 1] };
      t.imem = [(0, 2), (1, 0), (2, 0), (3, 0)] ∧ t.turns = [.hostWrite .word 8 1] ∧
      (stepped t).busy = true ∧ (stepped (stepped t)).done = true) ∧
    (stepped { State.reset with turns := [.hostRead .word 0] }).hostRdata = 0x45433235 := by decide +kernel

/-! ## The assembler (R131) -/

/-- The first lines of P3 and P6, with their listed words. -/
theorem test_assemble :
    assemble "  SLD S0, 0x000 ; scalar\n FLD F1, 0x000(C1)\n\nCSETI C1, 254\nCSWAP F2, F4, 2, S1, C1\nCADDI C1, -1\nHALT" =
      some [0x50000000, 0x30480000, 0x210000FE, 0x80889400, 0x2900FFFF, 0x00000002] ∧
    assemble "FLD F32, 0" = none ∧ assemble "CSWAP F2, F4, 5, S1, C1" = none := by decide +kernel

/-! ## Witnesses: a state and operands that meet the hypotheses of each statement that has any -/

/-- An idle engine started at the last word of IMEM, which holds `w`. -/
def busyAt (pc : Half) (w : Word) : State :=
  { State.reset with busy := true, pc := pc, imem := Memory.putWords [] pc.toNat [w] }

/-- AWordEncodesTheInstructionOfItsOneRow: words that lie in the first and in the last row. -/
theorem test_witness_word_in_row :
    (∃ j : Fin rows.length, (0x00000001 : Word) &&& (rows.get j).mask = (rows.get j).value) ∧
    (∃ j : Fin rows.length, (0xA7FFF004 : Word) &&& (rows.get j).mask = (rows.get j).value) := by decide +kernel

/-- AWordInNoRowIsIllegal: words in no row, at the lowest value of each class. -/
theorem test_witness_word_in_no_row :
    [0, 3, 0x60000007, 0x78000002, 0x80000002, 0x90000003, 0x98000001, 0xA0000005, 0xA8000000].all
      (fun w => rows.all fun r => !r.covers w) = true ∧
    (bits 0xA8000000 27 5).toNat = 0x15 ∧ bits 3 27 5 = 0 ∧ bits 3 0 5 ≠ 1 ∧ bits 3 0 5 ≠ 2 ∧
    bits 0x60000007 27 5 = 0x0C ∧ (bits 0x60000007 0 5).toNat = 7 ∧
    bits 0x78000002 27 5 = 0x0F ∧ (bits 0x78000002 0 5).toNat = 2 ∧
    bits 0x80000002 27 5 = 0x10 ∧ (bits 0x80000002 0 5).toNat = 2 ∧
    bits 0x90000003 27 5 = 0x12 ∧ (bits 0x90000003 0 5).toNat = 3 ∧
    bits 0x98000001 27 5 = 0x13 ∧ (bits 0x98000001 0 5).toNat = 1 ∧
    bits 0xA0000005 27 5 = 0x14 ∧ (bits 0xA0000005 0 5).toNat = 5 := by decide +kernel

/-- AStepRunsTheDecodedInstruction: the last word of IMEM, with no turn listed and with the engine's turn listed. -/
theorem test_witness_step_runs :
    (let s := busyAt 0x3FF 0x00000002;
      s.turns = [] ∧ s.busy = true ∧ s.abortReq = false ∧ s.pc.toNat < s.params.imemWords ∧
      decode (s.wordAt .imem s.pc.toNat) = .ok .halt) ∧
    (let s := { busyAt 0x3FF 0x00000002 with turns := [.engine, .reset] };
      s.turns = .engine :: [.reset] ∧ decode (s.wordAt .imem s.pc.toNat) = .ok .halt) := by decide +kernel

/-- TheEngineStepTestsAbortThenFetchThenWord: one state for each case. -/
theorem test_witness_step_order :
    State.reset.busy = false ∧ State.reset.turns = [] ∧
    (let s := { busyAt 0x400 0 with abortReq := true }; s.busy = true ∧ s.abortReq = true ∧ s.turns = []) ∧
    (let s := busyAt 0x400 0; s.busy = true ∧ s.abortReq = false ∧ s.params.imemWords ≤ s.pc.toNat) ∧
    (let s := busyAt 0x3FF 0xFFFFFFFF; s.pc.toNat < s.params.imemWords ∧
      decode (s.wordAt .imem s.pc.toNat) = .error .reservedOpcode) ∧
    (let s := busyAt 0x3FF 1; decode (s.wordAt .imem s.pc.toNat) = .ok .nop) := by decide +kernel

/-- AnInstructionEitherFaultsWholeOrLeavesTheFaultRegisters and EachInstructionFaultsExactlyWhenTheTablesSay: a busy state,
with a counter at 255, 256, 63 and 64 and an address at the last legal word and past it. -/
theorem test_witness_faults :
    (let s := ((busyAt 0 0).setC 1 256).setC 2 64; s.busy = true ∧
      (s.after (.cswap 0 4 0 1 3)).cause = .indexRange ∧ (s.after (.tblsel 0 0 2)).cause = .indexRange ∧
      (s.after (.sst 3 0 4065)).cause = .dmemRange ∧ (s.after (.fstl 31 0 4025)).cause = .dmemRange ∧
      (s.after (.cswap 0 3 0 1 3)).cause = .illegalOperand) ∧
    (let s := ((busyAt 0 0).setC 1 255).setC 2 63; s.busy = true ∧
      (s.after (.cswap 0 4 0 1 3)).fault = false ∧ (s.after (.tblsel 0 0 2)).fault = false ∧
      (s.after (.sst 3 0 4064)).fault = false ∧ (s.after (.fstl 31 0 4024)).fault = false) := by decide +kernel

/-- EachKindOfStateIsWrittenOnlyByItsWriters: an instruction that changes each kind of state. -/
theorem test_witness_writers :
    (State.reset.after (.cseti 7 5)).creg 7 ≠ State.reset.creg 7 ∧
    (State.reset.after (.clamp 3 0)).sreg 3 ≠ State.reset.sreg 3 ∧
    (let s := withS State.reset 1 1 2 3 4; (s.after (.recode 3 1)).dreg 3 ≠ s.dreg 3 ∧
      (s.after (.cswap 0 1 1 0 0)).swp ≠ s.swp) ∧
    (State.reset.after (.fst 0 0 0)).dmem ≠ State.reset.dmem ∧
    (State.reset.after (.fseti 31 1)).freg 31 ≠ State.reset.freg 31 ∧ writesField (.fseti 31 1) = true := by decide +kernel

/-- FldLoadsUnreducedLimbs, FstStoresTheReducedValue, FldlAndFstlMoveRawLimbs and SldLoadsAndSstStoresWholeScalars: the last
legal address, and both values of MSBMASK. -/
theorem test_witness_addresses :
    (let s := State.reset.setC 7 0xFC0; s.msbmask = false ∧ (s.creg 7).toNat + (0x20 : Half).toNat + 32 = s.params.dmemWords ∧
      s.effectiveAddress 0 4064 + 32 = s.params.dmemWords ∧ s.effectiveAddress 0 4024 + 72 = s.params.dmemWords) ∧
    ({ State.reset with msbmask := true } : State).effectiveAddress 0 0 + 32 ≤ State.reset.params.dmemWords ∧
    (3 : RField).toNat ≤ 3 := by decide +kernel

/-- LoadThenStoreRoundTrips: four values below p, and MSBMASK set. -/
theorem test_witness_round_trip :
    (let s := State.reset.storeWords 4064 (words256 (Vector.replicate 4 (scalarOf (p - 1))));
      s.effectiveAddress 0 4064 + 32 ≤ s.params.dmemWords ∧ ∀ l, s.load256 4064 l < p) ∧
    (let s := { memM with msbmask := true }; s.effectiveAddress 0 0x20 + 32 ≤ s.params.dmemWords ∧
      ¬ s.load256 0x20 0 < p) := by decide +kernel

/-- CanonicalLimbsSplitTheResidue and FinvInvertsAndMapsZeroToZero: the largest k, a value that is 0 mod p without being 0,
and one that is not. -/
theorem test_witness_values :
    2 ^ 256 - 1 < 2 ^ 256 ∧
    (let s := withF State.reset 1 p (p + 1) 0 (2 ^ 256 - 1);
      val ((s.freg 1).get 0) % p = 0 ∧ val ((s.freg 1).get 1) % p ≠ 0 ∧ val ((s.freg 1).get 3) % p ≠ 0) := by decide +kernel

/-- FieldInstructionsObeyTheAlgebraicLaws: temporaries that clobber no operand, the operands one register. -/
theorem test_witness_temporaries :
    (let a : FReg := 1; let b : FReg := 1; let c : FReg := 1; let x : FReg := 30; let y : FReg := 30; let z : FReg := 31;
      x ≠ a ∧ x ≠ c ∧ y ≠ a ∧ y ≠ c ∧ z ≠ a ∧ z ≠ b ∧ z ≠ y) := by decide

/-- ClampAndRecodeWriteTheirRegister, EdfbmulMonfbAndKeygenWriteTheCombsPoint and
MonvbWritesTheLaddersPairAndShsecItsQuotient: the last register of a file and the last base of a pair. -/
theorem test_witness_registers :
    (3 : RField).toNat ≤ 3 ∧ (0 : RField).toNat ≤ 3 ∧ (30 : FReg).toNat ≤ 30 ∧ (0 : FReg).toNat ≤ 30 := by decide

/-- CswapAndCswapfExchangeTheirGroups: adjacent groups of four that end at F31, the last bit of the scalar. -/
theorem test_witness_swap :
    (Instr.cswap 28 24 3 7 3).wellFormed = true ∧ ((State.reset.setC 7 255).creg 7).toNat ≤ 255 ∧
    (Instr.cswapf 24 28 3).wellFormed = true := by decide +kernel

/-- TblselWritesTheSelectedTriple, and TheCombIsItsTwoPasses: the last base and index, and digits at the table's edges. -/
theorem test_witness_tblsel :
    (29 : FReg).toNat ≤ 29 ∧ ((State.reset.setC 7 63).creg 7).toNat ≤ 63 ∧
    (∀ v ∈ ([1, 8, -1, -8] : List Int), 1 ≤ v.natAbs ∧ v.natAbs ≤ 8) ∧
    (∀ v ∈ ([0, 9, 16, -9] : List Int), v = 0 ∨ 8 < v.natAbs) ∧
    (8 : Int) = ((7 : Fin 8).val : Int) + 1 ∧ (-8 : Int) = -(((7 : Fin 8).val : Int) + 1) := by decide +kernel

/-- EdinitWritesTheIdentity, EdaddAddsATablePoint, EddblDoublesAPoint and LadstepStepsTheLadder: the last legal bases. -/
theorem test_witness_groups :
    (27 : FReg).toNat ≤ 27 ∧ (29 : FReg).toNat ≤ 29 ∧ (28 : FReg).toNat ≤ 28 := by decide

/-- EdwardsAdditionAndDoublingObeyTheGroupLaws: the base point, in the extended form and scaled by 2. -/
theorem test_witness_base_point :
    basePoint.OnCurve ∧ basePoint.x < p ∧ basePoint.y < p ∧ basePoint.ext.Consistent ∧ basePoint.ext.Z % p ≠ 0 ∧
    (let P : ExtPoint := ⟨2 * baseX, 2 * baseY, 2, 2 * baseX, baseY⟩;
      P.Consistent ∧ P.Z % p ≠ 0 ∧ (P.X : Int) % p = (basePoint.x * P.Z : Int) % p ∧
      (P.Y : Int) % p = (basePoint.y * P.Z : Int) % p) := by decide +kernel

/-- EdwardsAdditionAndDoublingObeyTheGroupLaws: the base point in a scaling by 2. -/
theorem test_witness_holds : (⟨2 * baseX, 2 * baseY, 2, 2 * baseX, baseY⟩ : ExtPoint).Holds basePoint :=
  ⟨test_witness_base_point.2.2.2.2.2.2.1, test_witness_base_point.2.2.2.2.2.2.2.1,
    test_witness_base_point.2.2.2.2.2.2.2.2, test_witness_base_point.2.2.2.2.2.1⟩

/-- R221: a point whose Z is 0 is equal to no point in affine terms, though its cross products vanish. -/
theorem test_same_affine_needs_z :
    (let O : ExtPoint := ⟨0, 0, 0, 0, 0⟩; O.CrossEqual basePoint.ext ∧ ¬ O.SameAffine basePoint.ext) ∧
    identityPoint.SameAffine ⟨0, 7, 7, 0, 7⟩ := by decide +kernel

/-- AStepServesTheNextTurn: a turn of each agent besides the engine. -/
theorem test_witness_turns :
    (let s : State := { busyAt 0 0 with turns := [.hostRead .word 0x000C, .engine] };
      s.turns = .hostRead .word 0x000C :: [.engine] ∧ stepped s = { s with turns := [.engine], hostRdata := 1 }) ∧
    (let s : State := { State.reset with turns := [.hostWrite .word 0x0010 5, .reset] };
      s.turns = .hostWrite .word 0x0010 5 :: [.reset] ∧ stepped s = { s with turns := [.reset], startPc := 5 }) ∧
    (let s : State := { State.reset with startPc := 5, turns := [.reset] };
      s.turns = .reset :: [] ∧ stepped s = { State.reset with memEpoch := 1 }) := by decide +kernel

/-- TblselThenEdaddIsOneCombStep: the table point's group next to the accumulator's, ending at F31. -/
theorem test_witness_comb_step :
    (24 : FReg).toNat ≤ 27 ∧ (29 : FReg).toNat ≤ 29 ∧ (∀ r ∈ groupList 29 3, r ∉ groupList 24 5) ∧
    ((State.reset.setC 7 63).creg 7).toNat ≤ 63 := by decide +kernel

/-- CswapThenLadstepIsOneLadderIteration: the last group, with x1 before it. -/
theorem test_witness_ladder_iteration :
    (28 : FReg).toNat ≤ 28 ∧ (27 : FReg) ∉ groupList 28 4 ∧ ((State.reset.setC 1 255).creg 1).toNat ≤ 255 := by
  decide +kernel

/-- SmallOrderPeersGiveZero: peers that hold 0 as p, 1 as p + 1, and p - 1. -/
theorem test_witness_small_order :
    (let s := withF State.reset 1 p (p + 1) (p - 1) 0;
      val ((s.freg 1).get 0) % p = 0 ∧ val ((s.freg 1).get 1) % p = 1 ∧ val ((s.freg 1).get 2) % p = p - 1) ∧
    (3 : RField).toNat ≤ 3 ∧ (30 : FReg).toNat ≤ 30 := by decide +kernel

/-- AWriteOfCtrlStartsAbortsAndConfigures, StartSetsThePcAndClearsTheLastRun and RegisterWritesClearStatusAndSetStartPc:
idle and busy, with words that do and do not set START. -/
theorem test_witness_ctrl :
    State.reset.busy = false ∧ (busyAt 0 0).busy = true ∧ (1 : Word).getLsbD 0 = true ∧ (8 : Word).getLsbD 0 = false ∧
    (1 : Word).getLsbD 1 = State.reset.ie ∧ (1 : Word).getLsbD 2 = State.reset.msbmask ∧ (1 : Word).getLsbD 3 = false := by
  decide +kernel

/-- RegisterReadsReturnTheirFields: the default parameters are legal. -/
theorem test_witness_legal_parameters : State.reset.params.Legal := by decide +kernel

/-- HostAccessErrorsOnlySetHberr: the first and last offset of each hole of the window. -/
theorem test_witness_host_errors :
    State.reset.params.Legal ∧ HostWidth.half ≠ .word ∧ (0x4002 : Half).toNat % 4 ≠ 0 ∧
    (0x28 ≤ (0x28 : Half).toNat ∧ (0x3FFC : Half).toNat < 0x4000) ∧
    (0x4000 + 4 * State.reset.params.imemWords ≤ (0x5000 : Half).toNat ∧ (0x7FFC : Half).toNat < 0x8000) ∧
    0x8000 + 4 * State.reset.params.dmemWords ≤ (0xC000 : Half).toNat ∧
    ((busyAt 0 0).busy = true ∧ 0x4000 ≤ (0x4000 : Half).toNat) := by decide +kernel

/-- HostWritesAndReadsMemoryWhileIdle: the first and the last word of each memory. -/
theorem test_witness_host_memory :
    State.reset.busy = false ∧
    (0 < State.reset.params.imemWords ∧ (0x4000 : Half).toNat = 0x4000 + 4 * 0) ∧
    (1023 < State.reset.params.imemWords ∧ (0x4FFC : Half).toNat = 0x4000 + 4 * 1023) ∧
    (0 < State.reset.params.dmemWords ∧ (0x8000 : Half).toNat = 0x8000 + 4 * 0) ∧
    (4095 < State.reset.params.dmemWords ∧ (0xBFFC : Half).toNat = 0x8000 + 4 * 4095) := by decide +kernel

/-- IrqIsTheEnabledEndOfARun: a state whose IRQ is 1, and data words that clear its cause or the enable. -/
theorem test_witness_irq :
    (let s := { State.reset with ie := true, fault := true, cause := .aborted };
      s.irq = true ∧ s.busy = false ∧ (4 : Word).getLsbD 2 = true ∧ (0 : Word).getLsbD 1 = false) := by decide +kernel

/-- EveryStepKeepsTheInvariant and ARunEndsDoneOrFaulted: a running engine about to execute a NOP, a HALT, or an illegal
word, and what its step leaves. -/
theorem test_witness_inv (w : Word) : Inv (busyAt 0 w) where
  params := by
    have h : (busyAt 0 w).params = defaultParams := rfl
    rw [h]; decide +kernel
  imemWf := by simp [busyAt, Memory.putWords, Memory.putBytes, bytesOfWords, bytesOfWord, cellsFrom, Memory.wf]
  dmemWf := List.Pairwise.nil
  imemIn := by
    have h : State.reset.params.imemWords = 1024 := rfl
    simp [h, busyAt, Memory.putWords, Memory.putBytes, bytesOfWords, bytesOfWord, cellsFrom]
  dmemIn := by intro c h; cases h
  digits := by
    intro r l i
    have h : (((busyAt 0 w).dreg r).get l).get i = 0 := by simp [busyAt, State.dreg, State.reset, Vector.get]
    rw [h]; decide
  oneEnd := by intro h; cases h.1
  running := fun _ => ⟨rfl, rfl, rfl, rfl, rfl⟩
  abort := by intro h; cases h
  endedDone := by intro h; cases h
  endedBad := by intro h; cases h
  noWord := fun _ => rfl

theorem test_witness_run_ends :
    (stepped (busyAt 0 1)).busy = true ∧ (stepped (busyAt 0 2)).done = true ∧ (stepped (busyAt 0 0)).fault = true := by
  decide +kernel

/-- Two states that differ in F, S, D, SWP and DMEM outside lane 2. -/
def otherLanes (s : State) : State :=
  { withDigit (withS (withF s 1 5 6 0 7) 2 1 1 0 1) 0 4 4 0 4 with
      swp := #v[true, true, false, true], dmem := Memory.putWords [] 0 [7], hostRdata := 9 }

/-- ControlAndAddressesDoNotDependOnData: two states that differ in everything secret. -/
theorem test_witness_public : PublicEq (busyAt 0 0x38400040) (otherLanes (busyAt 0 0x38400040)) ∧
    (otherLanes (busyAt 0 0x38400040)).freg 1 ≠ (busyAt 0 0x38400040).freg 1 ∧
    (otherLanes (busyAt 0 0x38400040)).sreg 2 ≠ (busyAt 0 0x38400040).sreg 2 ∧
    (otherLanes (busyAt 0 0x38400040)).dreg 0 ≠ (busyAt 0 0x38400040).dreg 0 ∧
    (otherLanes (busyAt 0 0x38400040)).dmem ≠ (busyAt 0 0x38400040).dmem :=
  ⟨⟨rfl, fun _ => rfl, rfl, rfl, rfl, rfl, rfl, rfl, rfl, rfl, rfl, rfl, rfl, rfl, rfl, rfl, rfl⟩, by decide +kernel⟩

/-- NoLaneDependsOnAnotherLane: two states that agree on lane 2 and on memory, and differ in the other lanes. -/
theorem test_witness_lane :
    (let s := busyAt 0 0x38400040;
     let s' := { otherLanes s with dmem := s.dmem };
      PublicEq s s' ∧ LaneEq 2 s s' ∧ (∀ a, s'.byteAt .dmem a = s.byteAt .dmem a) ∧ s'.freg 1 ≠ s.freg 1) :=
  ⟨⟨rfl, fun _ => rfl, rfl, rfl, rfl, rfl, rfl, rfl, rfl, rfl, rfl, rfl, rfl, rfl, rfl, rfl, rfl⟩,
    ⟨by decide +kernel, by decide +kernel, by decide +kernel, rfl⟩, fun _ => rfl, by decide +kernel⟩

end Sys2Proof.Tests
end

section
/-! PROOFS. No lane's result depends on another lane (spec/00_scope.md R4, spec/42_field.md R195). Two runs of one
instruction are compared: each operation of the state keeps the agreement on a lane when the values written agree on that
lane, each operand read from the lane is the same in both runs, and both runs take the same branch of a check, since the
checks see only the shared state. -/

namespace Sys2Proof.Machine

open Sys2Proof.Config

section

variable {l : Lane} {s s' : State}

/-! ## What the two runs read -/

theorem PublicEq.effectiveAddress (hp : PublicEq s s') (ca : CReg) (addr : Half) :
    s'.effectiveAddress ca addr = s.effectiveAddress ca addr := by
  unfold State.effectiveAddress
  rw [hp.cregs]

theorem PublicEq.outOfRange_iff (hp : PublicEq s s') (ca : CReg) (addr : Half) (n : Nat) :
    s'.outOfRange (s'.effectiveAddress ca addr) n ↔ s.outOfRange (s.effectiveAddress ca addr) n := by
  rw [hp.effectiveAddress, State.outOfRange, State.outOfRange, hp.params]

theorem PublicEq.maskMsb (hp : PublicEq s s') (k : Nat) : s'.maskMsb k = s.maskMsb k := by
  unfold State.maskMsb
  rw [hp.msbmask]

theorem LaneEq.intAt (h : LaneEq l s s') (r : FReg) : s'.intAt r l = s.intAt r l := by
  unfold State.intAt
  rw [h.fregs]

theorem LaneEq.fieldAt (h : LaneEq l s s') (r : FReg) : s'.fieldAt r l = s.fieldAt r l := by
  unfold State.fieldAt
  rw [h.fregs]

theorem LaneEq.extAt (h : LaneEq l s s') (r : FReg) : s'.extAt r l = s.extAt r l := by
  simp only [State.extAt, h.fieldAt]

theorem LaneEq.duifAt (h : LaneEq l s s') (r : FReg) : s'.duifAt r l = s.duifAt r l := by
  simp only [State.duifAt, h.fieldAt]

theorem LaneEq.ladderAt (h : LaneEq l s s') (r : FReg) : s'.ladderAt r l = s.ladderAt r l := by
  simp only [State.ladderAt, h.fieldAt]

theorem LaneEq.combLanes (h : LaneEq l s s') (hp : PublicEq s s') (sb : RField) :
    (s'.combLanes sb).get l = (s.combLanes sb).get l := by
  unfold State.combLanes
  rw [vector_get_map, vector_get_map, h.sregs, hp.params]

theorem load256_eq_of_byteAt_eq (hm : ∀ a, s'.byteAt .dmem a = s.byteAt .dmem a) (ea : Nat) (l : Lane) :
    s'.load256 ea l = s.load256 ea l := by
  simp only [State.load256, wordAt_eq_of_byteAt_eq hm]

theorem loadLimb_eq_of_byteAt_eq (hm : ∀ a, s'.byteAt .dmem a = s.byteAt .dmem a) (ea : Nat) (l : Lane) (i : Nat) :
    s'.loadLimb ea l i = s.loadLimb ea l i := by
  simp only [State.loadLimb, wordAt_eq_of_byteAt_eq hm]

/-! ## What the two runs write -/

theorem LaneEq.setF (h : LaneEq l s s') (r : FReg) {x x' : Lanes Limbs} (hx : x'.get l = x.get l) :
    LaneEq l (s.setF r x) (s'.setF r x') where
  fregs q := by
    rw [State.freg_setF, State.freg_setF]
    split
    · exact hx
    · exact h.fregs q
  sregs := h.sregs
  dregs := h.dregs
  swp := h.swp

theorem LaneEq.setS (h : LaneEq l s s') (r : SReg) {x x' : Lanes Scalar} (hx : x'.get l = x.get l) :
    LaneEq l (s.setS r x) (s'.setS r x') where
  fregs := h.fregs
  sregs q := by
    rw [State.sreg_setS, State.sreg_setS]
    split
    · exact hx
    · exact h.sregs q
  dregs := h.dregs
  swp := h.swp

theorem LaneEq.setD (h : LaneEq l s s') (r : DReg) {x x' : Lanes Digits} (hx : x'.get l = x.get l) :
    LaneEq l (s.setD r x) (s'.setD r x') where
  fregs := h.fregs
  sregs := h.sregs
  dregs q := by
    rw [State.dreg_setD, State.dreg_setD]
    split
    · exact hx
    · exact h.dregs q
  swp := h.swp

theorem LaneEq.setSwp (h : LaneEq l s s') {b b' : Lanes Bool} (hb : b'.get l = b.get l) :
    LaneEq l (s.setSwp b) (s'.setSwp b') := ⟨h.fregs, h.sregs, h.dregs, hb⟩

theorem LaneEq.setC (h : LaneEq l s s') (r : CReg) (v v' : Half) : LaneEq l (s.setC r v) (s'.setC r v') := by
  unfold State.setC
  split
  · exact h
  · exact ⟨h.fregs, h.sregs, h.dregs, h.swp⟩

theorem LaneEq.jump (h : LaneEq l s s') (target target' : Half) : LaneEq l (s.jump target) (s'.jump target') :=
  ⟨h.fregs, h.sregs, h.dregs, h.swp⟩

theorem LaneEq.advance (h : LaneEq l s s') : LaneEq l s.advance s'.advance := h.jump _ _

theorem LaneEq.faultEntry (h : LaneEq l s s') (c : Cause) (w : Word) : LaneEq l (s.faultEntry c w) (s'.faultEntry c w) :=
  ⟨h.fregs, h.sregs, h.dregs, h.swp⟩

theorem LaneEq.storeWords (h : LaneEq l s s') (ea ea' : Nat) (ws ws' : List Word) :
    LaneEq l (s.storeWords ea ws) (s'.storeWords ea' ws') := ⟨h.fregs, h.sregs, h.dregs, h.swp⟩

/-- A group written with values that agree on the lane, whatever the other lanes of the values hold. -/
theorem LaneEq.setGroup {xs xs' : List (Lanes Limbs)} (h : LaneEq l s s') (r : FReg)
    (hx : xs'.map (·.get l) = xs.map (·.get l)) : LaneEq l (s.setGroup r xs) (s'.setGroup r xs') := by
  induction xs generalizing s s' r xs' with
  | nil =>
    obtain rfl : xs' = [] := List.map_eq_nil_iff.1 hx
    exact h
  | cons x xs ih =>
    obtain ⟨x', ys, rfl, hhead, htail⟩ := List.map_eq_cons_iff.1 hx
    exact ih (h.setF r hhead) (groupReg r 1) htail

/-- A swap decides for each lane by that lane's own bit (R252). -/
theorem LaneEq.swapGroups (h : LaneEq l s s') (fa fb : FReg) {sw sw' : Lanes Bool} (hsw : sw'.get l = sw.get l) (n : Nat) :
    LaneEq l (s.swapGroups fa fb sw n) (s'.swapGroups fa fb sw' n) := by
  induction n with
  | zero => exact h
  | succ c ih =>
    have hblend : ∀ q r, (blend sw' ((s'.swapGroups fa fb sw' c).freg q) ((s'.swapGroups fa fb sw' c).freg r)).get l =
        (blend sw ((s.swapGroups fa fb sw c).freg q) ((s.swapGroups fa fb sw c).freg r)).get l := fun q r => by
      rw [blend_get, blend_get, hsw, ih.fregs, ih.fregs]
    exact (ih.setF _ (hblend _ _)).setF _ (hblend _ _)

end

/-! ## Two runs of one instruction -/

/-- Both results are next states, and `R` relates them. -/
def BothNext (R : State → State → Prop) (r r' : Result) : Prop := ∃ t t', r = .next t ∧ r' = .next t' ∧ R t t'

section

variable {R : State → State → Prop} {s s' t t' : State} {r r' : Result}

theorem BothNext.next (h : R t t') : BothNext R (.next t) (.next t') := ⟨t, t', rfl, rfl, h⟩

theorem BothNext.retire (h : R t.advance t'.advance) : BothNext R (retire t) (retire t') := .next h

theorem BothNext.rel (h : BothNext R r r') (ht : r = .next t) (ht' : r' = .next t') : R t t' := by
  obtain ⟨u, u', rfl, rfl, hu⟩ := h
  cases ht
  cases ht'
  exact hu

/-- Two runs that branch on equivalent conditions. -/
theorem BothNext.branch {P P' : Prop} [Decidable P] [Decidable P'] {a a' b b' : Result} (hP : P' ↔ P)
    (ha : BothNext R a a') (hb : BothNext R b b') : BothNext R (if P then a else b) (if P' then a' else b') := by
  by_cases h : P
  · rwa [if_pos h, if_pos (hP.2 h)]
  · rwa [if_neg h, if_neg (mt hP.1 h)]

/-- Two runs of an instruction with a check: both fault, or both go on. -/
theorem BothNext.checked {P P' : Prop} [Decidable P] [Decidable P'] {c : Cause} {i : Instr} (hP : P' ↔ P)
    (hf : R (s.faultEntry c (encode i)) (s'.faultEntry c (encode i))) (h : BothNext R r r') :
    BothNext R (if P then raise c i s else r) (if P' then raise c i s' else r') := .branch hP (.next hf) h

end

section

variable {l : Lane} {s s' : State}

/-- A field instruction whose integer for the lane is the same in both runs (R180). -/
theorem LaneEq.fieldOp (h : LaneEq l s s') (fd : FReg) {r r' : Lane → Int} (hr : r' l = r l) :
    BothNext (LaneEq l) (fieldOp fd r s) (fieldOp fd r' s') :=
  .retire (h.setF fd (by rw [forEachLane_get, forEachLane_get, hr])).advance

/-- An instruction that writes a group after its operand check, with values that agree on the lane. -/
theorem LaneEq.checkedGroup {P : Prop} [Decidable P] {i : Instr} {xs xs' : List (Lanes Limbs)} (h : LaneEq l s s')
    (fd : FReg) (hx : xs'.map (·.get l) = xs.map (·.get l)) :
    BothNext (LaneEq l) (if P then raise .illegalOperand i s else retire (s.setGroup fd xs))
      (if P then raise .illegalOperand i s' else retire (s'.setGroup fd xs')) :=
  .checked .rfl (h.faultEntry _ _) (.retire (h.setGroup fd hx).advance)

/-- No register's lane depends on another lane, whatever the instruction (R4, R195). -/
theorem exec_laneEq (i : Instr) (hp : PublicEq s s') (hl : LaneEq l s s')
    (hm : ∀ a, s'.byteAt .dmem a = s.byteAt .dmem a) : BothNext (LaneEq l) (exec i s) (exec i s') := by
  have fault := hl.faultEntry
  cases i with
  | nop => exact .retire hl.advance
  | halt => exact .next ⟨hl.fregs, hl.sregs, hl.dregs, hl.swp⟩
  | jmp tgt => exact .next (hl.jump _ _)
  | bnez ca tgt => exact .branch (by rw [hp.cregs]) (.next (hl.jump _ _)) (.retire hl.advance)
  | dbnz ca tgt => exact .branch (by rw [hp.cregs]) (.next ((hl.setC _ _ _).jump _ _)) (.retire (hl.setC _ _ _).advance)
  | cseti cd imm => exact .retire (hl.setC _ _ _).advance
  | caddi cd simm => exact .retire (hl.setC _ _ _).advance
  | fld fd ca addr =>
    refine .checked (hp.outOfRange_iff ca addr _) (fault _ _) (.retire (hl.setF fd ?_).advance)
    simp [hp.effectiveAddress, hp.maskMsb, load256_eq_of_byteAt_eq hm]
  | fst fs ca addr =>
    exact .checked (hp.outOfRange_iff ca addr _) (fault _ _) (.retire (hl.storeWords _ _ _ _).advance)
  | fldl fd ca addr =>
    refine .checked (hp.outOfRange_iff ca addr _) (fault _ _) (.retire (hl.setF fd ?_).advance)
    simp [hp.effectiveAddress, loadLimb_eq_of_byteAt_eq hm]
  | fstl fs ca addr =>
    exact .checked (hp.outOfRange_iff ca addr _) (fault _ _) (.retire (hl.storeWords _ _ _ _).advance)
  | sld sd ca addr =>
    refine .checked .rfl (fault _ _) (.checked (hp.outOfRange_iff ca addr _) (fault _ _) (.retire (hl.setS _ ?_).advance))
    simp [hp.effectiveAddress, load256_eq_of_byteAt_eq hm]
  | sst ss ca addr =>
    exact .checked .rfl (fault _ _)
      (.checked (hp.outOfRange_iff ca addr _) (fault _ _) (.retire (hl.storeWords _ _ _ _).advance))
  | fadd fd fa fb => exact hl.fieldOp fd (by rw [hl.intAt, hl.intAt])
  | fsub fd fa fb => exact hl.fieldOp fd (by rw [hl.intAt, hl.intAt])
  | fmul fd fa fb => exact hl.fieldOp fd (by rw [hl.intAt, hl.intAt])
  | fsqr fd fa => exact hl.fieldOp fd (by rw [hl.intAt])
  | fmov fd fa => exact .retire (hl.setF fd (hl.fregs fa)).advance
  | fnorm fd fa => exact hl.fieldOp fd (hl.intAt fa)
  | finv fd fa => exact hl.fieldOp fd (by rw [hl.fieldAt])
  | fmulc fd fa imm => exact hl.fieldOp fd (by rw [hl.intAt])
  | fseti fd imm => exact hl.fieldOp fd rfl
  | clamp sd sa => exact .checked .rfl (fault _ _) (.retire (hl.setS _ (by simp [hl.sregs])).advance)
  | recode dd sa => exact .checked .rfl (fault _ _) (.retire (hl.setD _ (by simp [hl.sregs])).advance)
  | cswap fa fb sa cc n =>
    refine .checked .rfl (fault _ _) (.checked (by rw [hp.cregs]) (fault _ _)
      (.retire ((hl.swapGroups fa fb ?_ _).setSwp ?_).advance))
    · simp [hl.swp, hl.sregs, hp.cregs]
    · simp [hl.sregs, hp.cregs]
  | cswapf fa fb n => exact .checked .rfl (fault _ _) (.retire ((hl.swapGroups fa fb hl.swp _).setSwp rfl).advance)
  | tblsel fd dd cc =>
    refine .checked .rfl (fault _ _) (.checked (by rw [hp.cregs]) (fault _ _) (.retire (hl.setGroup fd ?_).advance))
    simp [hl.dregs, hp.cregs, hp.params]
  | edinit fd => exact hl.checkedGroup fd rfl
  | edadd fd fa fb => exact hl.checkedGroup fd (by simp [extLimbs, hl.extAt, hl.duifAt])
  | eddbl fd fa => exact hl.checkedGroup fd (by simp [extLimbs, hl.extAt])
  | ladstep fd fa => exact hl.checkedGroup fd (by simp [hl.fieldAt, hl.ladderAt])
  | edfbmul fd sb => exact hl.checkedGroup fd (by simp [hl.combLanes hp])
  | monfb fd sb => exact hl.checkedGroup fd (by simp [hl.combLanes hp])
  | monvb fd fa sb => exact hl.checkedGroup fd (by simp [hl.fregs, hl.sregs])
  | keygen fd sb =>
    exact .checked .rfl (fault _ _) (.retire (hl.setF fd (by simp only [vector_get_map, hl.combLanes hp])).advance)
  | shsec fd fa sb =>
    exact .checked .rfl (fault _ _) (.retire (hl.setF fd (by simp only [forEachLane_get, hl.fregs, hl.sregs])).advance)

/-! ## The words of a lane after a store -/

/-- The two states agree on a word of DMEM. -/
def DmemWordEq (a : Nat) (s t : State) : Prop := t.wordAt .dmem a = s.wordAt .dmem a

theorem DmemWordEq.advance {a : Nat} (h : DmemWordEq a s s') : DmemWordEq a s.advance s'.advance := h

theorem dmemWordEq_faultEntry (hm : ∀ a, s'.byteAt .dmem a = s.byteAt .dmem a) (a : Nat) (c : Cause) (w : Word) :
    DmemWordEq a (s.faultEntry c w) (s'.faultEntry c w) := wordAt_eq_of_byteAt_eq hm a

theorem dmemWordEq_storeWords_words256 {k k' : Lanes Scalar} (hk : k'.get l = k.get l) (ea : Nat) {j : Nat} (hj : j < 8) :
    DmemWordEq (ea + 4 * j + l.val) (s.storeWords ea (words256 k)) (s'.storeWords ea (words256 k')) := by
  unfold DmemWordEq
  rw [wordAt_storeWords_words256 s ea k l hj, wordAt_storeWords_words256 s' ea k' l hj, hk]

theorem dmemWordEq_storeWords_wordsLimbs {x x' : Lanes Limbs} (hx : x'.get l = x.get l) (ea : Nat) {k half : Nat}
    (hk : k < 9) (hh : half < 2) :
    DmemWordEq (ea + 2 * (4 * k + l.val) + half) (s.storeWords ea (wordsLimbs x)) (s'.storeWords ea (wordsLimbs x')) := by
  obtain rfl | rfl : half = 0 ∨ half = 1 := by omega
  · have low := fun (u : State) y => wordAt_storeWords_wordsLimbs_low u ea y ⟨k, hk⟩ l
    exact (low s' x').trans (by rw [hx]; exact (low s x).symm)
  · have high := fun (u : State) y => wordAt_storeWords_wordsLimbs_high u ea y ⟨k, hk⟩ l
    exact (high s' x').trans (by rw [hx]; exact (high s x).symm)

variable {ca : CReg} {addr : Half}

theorem exec_fst_dmemWordEq (hp : PublicEq s s') (hl : LaneEq l s s') (hm : ∀ a, s'.byteAt .dmem a = s.byteAt .dmem a)
    (r : FReg) {j : Nat} (hj : j < 8) :
    BothNext (DmemWordEq (s.effectiveAddress ca addr + 4 * j + l.val)) (exec (.fst r ca addr) s) (exec (.fst r ca addr) s') := by
  refine .checked (hp.outOfRange_iff ca addr _) (dmemWordEq_faultEntry hm ..) (.retire (.advance ?_))
  rw [hp.effectiveAddress]
  exact dmemWordEq_storeWords_words256 (by simp [hl.fieldAt]) _ hj

theorem exec_sst_dmemWordEq (hp : PublicEq s s') (hl : LaneEq l s s') (hm : ∀ a, s'.byteAt .dmem a = s.byteAt .dmem a)
    (r : RField) {j : Nat} (hj : j < 8) :
    BothNext (DmemWordEq (s.effectiveAddress ca addr + 4 * j + l.val)) (exec (.sst r ca addr) s) (exec (.sst r ca addr) s') := by
  refine .checked .rfl (dmemWordEq_faultEntry hm ..)
    (.checked (hp.outOfRange_iff ca addr _) (dmemWordEq_faultEntry hm ..) (.retire (.advance ?_)))
  rw [hp.effectiveAddress]
  exact dmemWordEq_storeWords_words256 (hl.sregs _) _ hj

theorem exec_fstl_dmemWordEq (hp : PublicEq s s') (hl : LaneEq l s s') (hm : ∀ a, s'.byteAt .dmem a = s.byteAt .dmem a)
    (r : FReg) {k half : Nat} (hk : k < 9) (hh : half < 2) :
    BothNext (DmemWordEq (s.effectiveAddress ca addr + 2 * (4 * k + l.val) + half)) (exec (.fstl r ca addr) s)
      (exec (.fstl r ca addr) s') := by
  refine .checked (hp.outOfRange_iff ca addr _) (dmemWordEq_faultEntry hm ..) (.retire (.advance ?_))
  rw [hp.effectiveAddress]
  exact dmemWordEq_storeWords_wordsLimbs (hl.fregs _) _ hk hh

end

/-- Settles O59: every instruction keeps the agreement of two states on a lane, and the words a store writes for the lane
come from that lane. -/
theorem noLaneDependsOnAnotherLane : Obligations.NoLaneDependsOnAnotherLane := by
  intro i l s s' hp hl hm
  obtain ⟨t, t', ht, ht', hlane⟩ := exec_laneEq i hp hl hm
  refine ⟨t, t', ht, ht', hlane, ?_, ?_⟩
  · rintro r ca addr (rfl | rfl) j hj
    · exact (exec_fst_dmemWordEq hp hl hm r hj).rel ht ht'
    · exact (exec_sst_dmemWordEq hp hl hm r hj).rel ht ht'
  · rintro r ca addr rfl k hk half hh
    exact (exec_fstl_dmemWordEq hp hl hm r hk hh).rel ht ht'

/-! ## Canonical limbs -/

/-- A split gives the limbs' bits one by one, and its top limb all the bits above them (R9, R10). -/
theorem splitOf_splitLimbs {k top : Nat} (ht : top ≤ 64) (hk : k < 2 ^ (232 + top)) : SplitOf (splitLimbs k top) k := by
  have htop : k / 2 ^ 232 < 2 ^ top := Nat.div_lt_of_lt_mul (by rwa [← Nat.pow_add])
  refine ⟨fun i => ?_, ?_⟩
  · rw [splitLimbs_get, if_pos (by simp), slice, BitVec.toNat_ofNat, Fin.val_castLE]
    exact Nat.mod_eq_of_lt (Nat.lt_trans (Nat.mod_lt _ (by decide)) (by decide))
  · rw [splitLimbs_get, if_neg (by decide), slice, Nat.mod_eq_of_lt htop, BitVec.toNat_ofNat]
    exact Nat.mod_eq_of_lt (Nat.lt_of_lt_of_le htop (Nat.pow_le_pow_right (by decide) ht))

theorem splitOf_canon (v : Int) : SplitOf (canon v) (redc v) :=
  splitOf_splitLimbs (by decide) (Nat.lt_trans (redc_lt v) p_lt)

theorem splitOf_limbs {k : Nat} (hk : k < 2 ^ 256) : SplitOf (limbs k) k := splitOf_splitLimbs (by decide) hk

theorem canon_toNat_lt (v : Int) (i : Fin 9) : ((canon v).get i).toNat < 2 ^ 29 := by
  refine Nat.lt_of_lt_of_le (splitLimbs_toNat_lt (redc v) 23 i) ?_
  split <;> decide

theorem canon_top_toNat_lt (v : Int) : ((canon v).get 8).toNat < 2 ^ 23 := splitLimbs_toNat_lt (redc v) 23 8

theorem normalized_canon (v : Int) : Normalized (canon v) := (canon_val_canon v).symm

/-- The value of any limb vector, each limb below 2^64 (R9). -/
theorem val_lt (x : Limbs) : val x < 2 ^ 297 := by
  have hx := fun i : Fin 9 => (x.get i).isLt
  have h0 := hx 0; have h1 := hx 1; have h2 := hx 2; have h3 := hx 3; have h4 := hx 4
  have h5 := hx 5; have h6 := hx 6; have h7 := hx 7; have h8 := hx 8
  unfold val
  omega

/-- Settles O21: canon and limbs are splits of a number that fits the limbs. -/
theorem canonicalLimbsSplitTheResidue : Obligations.CanonicalLimbsSplitTheResidue :=
  ⟨fun v => ⟨splitOf_canon v, val_canon_cast v, canon_toNat_lt v, canon_top_toNat_lt v, normalized_canon v⟩,
    fun _ hk => ⟨splitOf_limbs hk, val_limbs hk⟩, val_lt⟩

end Sys2Proof.Machine
end

section
/-! PROOFS. The host's accesses to the registers (spec/10_state.md R38 to R48), what each leaves unchanged, the reset
event (R52, spec/70_reset_and_hazards.md R320), and the turns of the host and the reset input. -/

namespace Sys2Proof.Machine

open Sys2Proof.Config

/-! ## The window -/

/-- The offset of a register in the window (R38). -/
def csrOffset : Csr → Half
  | .id => 0x0000
  | .version => 0x0004
  | .ctrl => 0x0008
  | .status => 0x000C
  | .startPc => 0x0010
  | .pc => 0x0014
  | .cause => 0x0018
  | .faultPc => 0x001C
  | .faultInsn => 0x0020
  | .params => 0x0024

theorem hostTarget_csrOffset (P : Params) (r : Csr) : hostTarget P .word (csrOffset r) = some (.csr r) := by
  cases r <;> rfl

theorem hostRead_csrOffset (s : State) (r : Csr) : s.hostRead .word (csrOffset r) = (s.readCsr r, s) := by
  simp only [State.hostRead, hostTarget_csrOffset]

theorem hostWrite_csrOffset (s : State) (r : Csr) (data : Word) :
    s.hostWrite .word (csrOffset r) data = s.writeCsr r data := by
  simp only [State.hostWrite, hostTarget_csrOffset]

/-- A memory target of the window lies in its memory (R70). -/
theorem hostTarget_mem {P : Params} {width : HostWidth} {o : Half} {sp : Space} {i : Nat}
    (h : hostTarget P width o = some (.mem sp i)) :
    sp = .imem ∧ i < P.imemWords ∨ sp = .dmem ∧ i < P.dmemWords := by
  unfold hostTarget regionAt at h
  split at h
  · split at h
    · simp at h
    · split at h
      · simp only [Option.some.injEq, Target.mem.injEq] at h
        exact .inl ⟨h.1.symm, by omega⟩
      · split at h
        · simp only [Option.some.injEq, Target.mem.injEq] at h
          exact .inr ⟨h.1.symm, by omega⟩
        · contradiction
  · contradiction

/-- A host read leaves the state as it is, or sets HBERR (R71, R72). -/
theorem hostRead_state (s : State) (width : HostWidth) (o : Half) :
    (s.hostRead width o).2 = s ∨ (s.hostRead width o).2 = s.busError := by
  unfold State.hostRead
  split
  · exact .inr rfl
  · exact .inl rfl
  · split
    · exact .inr rfl
    · exact .inl rfl

/-! ## Register words -/

theorem flagBit_getLsbD (b : Bool) (n : Nat) {i : Nat} (hi : i < 32) :
    (flagBit b n).getLsbD i = (decide (i = n) && b) := by
  cases b
  · simp [flagBit]
  · rw [Bool.eq_iff_iff]
    simp [flagBit, hi]
    omega

theorem readCsr_ctrl_getLsbD (s : State) {i : Nat} (hi : i < 32) :
    (s.readCsr .ctrl).getLsbD i = (if i = 1 then s.ie else if i = 2 then s.msbmask else false) := by
  simp only [State.readCsr, BitVec.getLsbD_or, flagBit_getLsbD _ _ hi]
  obtain rfl | rfl | h : i = 1 ∨ i = 2 ∨ (i ≠ 1 ∧ i ≠ 2) := by omega
  · simp
  · simp
  · simp [h]

theorem readCsr_status_getLsbD (s : State) {i : Nat} (hi : i < 32) : (s.readCsr .status).getLsbD i =
    (if i = 0 then s.busy else if i = 1 then s.done else if i = 2 then s.fault else if i = 3 then s.hberr else false) := by
  simp only [State.readCsr, BitVec.getLsbD_or, flagBit_getLsbD _ _ hi]
  obtain rfl | rfl | rfl | rfl | h : i = 0 ∨ i = 1 ∨ i = 2 ∨ i = 3 ∨ (i ≠ 0 ∧ i ≠ 1 ∧ i ≠ 2 ∧ i ≠ 3) := by omega
  · simp
  · simp
  · simp
  · simp
  · simp [h]

theorem causeCode_le (c : Cause) : causeCode c ≤ 6 := by
  cases c <;> decide

theorem readCsr_cause_toNat (s : State) : (s.readCsr .cause).toNat = causeCode s.cause := by
  have := causeCode_le s.cause
  rw [State.readCsr, BitVec.toNat_ofNat]
  omega

/-- The fields of PARAMS for sizes that fit five bits (R48). -/
theorem readCsr_params_toNat (s : State) (h : s.params.Legal) :
    (s.readCsr .params).toNat = s.params.imemBits + 256 * s.params.dmemBits := by
  obtain ⟨⟨-, hi⟩, ⟨-, hd⟩, -⟩ := h
  rw [State.readCsr, BitVec.toNat_ofNat]
  omega

/-- Settles O49: each offset reaches its register, whose word is read field by field. -/
theorem registerReadsReturnTheirFields : Obligations.RegisterReadsReturnTheirFields := by
  intro s
  have read := hostRead_csrOffset s
  have wide : ∀ h : Half, (h.setWidth 32).toNat = h.toNat := fun _ => BitVec.toNat_setWidth_of_le (by decide)
  refine ⟨read .id, read .version, ⟨_, read .ctrl, fun _ => readCsr_ctrl_getLsbD s⟩,
    ⟨_, read .status, fun _ => readCsr_status_getLsbD s⟩, ⟨_, read .startPc, wide _⟩,
    ⟨_, read .pc, wide _⟩, ⟨_, read .cause, readCsr_cause_toNat s, ?_⟩,
    ⟨_, read .faultPc, wide _⟩, read .faultInsn, fun hlegal => ⟨_, read .params, ?_⟩⟩
  · rw [readCsr_cause_toNat]
    exact causeCode_le s.cause
  · rw [readCsr_params_toNat s hlegal]
    obtain ⟨⟨-, hi⟩, -⟩ := hlegal
    omega

/-! ## Register writes -/

section

variable {s : State}

theorem writeCtrl_busy (hb : s.busy = true) (data : Word) :
    s.writeCtrl data = { s with ie := data.getLsbD 1, hberr := s.hberr || data.getLsbD 0,
                                abortReq := s.abortReq || data.getLsbD 3 } := by
  simp only [State.writeCtrl, hb, if_true]

theorem writeCtrl_start (hb : s.busy = false) {data : Word} (hd : data.getLsbD 0 = true) :
    s.writeCtrl data = State.startRun { s with ie := data.getLsbD 1, msbmask := data.getLsbD 2 } := by
  simp only [State.writeCtrl, hb, hd, if_true, Bool.false_eq_true, if_false]

theorem writeCtrl_idle (hb : s.busy = false) {data : Word} (hd : data.getLsbD 0 = false) :
    s.writeCtrl data = { s with ie := data.getLsbD 1, msbmask := data.getLsbD 2 } := by
  simp only [State.writeCtrl, hb, hd, Bool.false_eq_true, if_false]

theorem writeStartPc_busy (hb : s.busy = true) (data : Word) : s.writeStartPc data = s.busError := if_pos hb

theorem writeStartPc_idle (hb : s.busy = false) (data : Word) :
    s.writeStartPc data = { s with startPc := data.setWidth 16 } := if_neg (by simp [hb])

end

/-- The engine's registers and both memories are no target of a write of CTRL. -/
theorem writeCtrl_keeps (s : State) (data : Word) :
    SameOutside {} s (s.writeCtrl data) ∧ (s.writeCtrl data).imem = s.imem ∧ (s.writeCtrl data).dmem = s.dmem := by
  have hsame : SameOutside {} s s := (Frame.refl {} s).outside
  cases hb : s.busy
  · cases hd : data.getLsbD 0
    · rw [writeCtrl_idle hb hd]
      exact ⟨{ hsame with }, rfl, rfl⟩
    · rw [writeCtrl_start hb hd]
      exact ⟨{ hsame with }, rfl, rfl⟩
  · rw [writeCtrl_busy hb]
    exact ⟨{ hsame with }, rfl, rfl⟩

theorem writeCtrl_ie (s : State) (data : Word) : (s.writeCtrl data).ie = data.getLsbD 1 := by
  unfold State.writeCtrl
  split
  · rfl
  · split <;> rfl

theorem writeCtrl_turns (s : State) (data : Word) : (s.writeCtrl data).turns = s.turns := by
  unfold State.writeCtrl
  split
  · rfl
  · split <;> rfl

theorem writeCtrl_msbmask (s : State) (data : Word) :
    (s.writeCtrl data).msbmask = if s.busy then s.msbmask else data.getLsbD 2 := by
  cases hb : s.busy
  · cases hd : data.getLsbD 0
    · rw [writeCtrl_idle hb hd]; rfl
    · rw [writeCtrl_start hb hd]; rfl
  · rw [writeCtrl_busy hb]; rfl

/-- Settles O47: busy, taking a START, or idle without one. -/
theorem aWriteOfCtrlStartsAbortsAndConfigures : Obligations.AWriteOfCtrlStartsAbortsAndConfigures := by
  intro s data
  obtain ⟨houtside, himem, hdmem⟩ := writeCtrl_keeps s data
  refine ⟨s.writeCtrl data, hostWrite_csrOffset s .ctrl data, writeCtrl_ie s data, writeCtrl_msbmask s data, fun hb => ?_,
    fun hb hd => ?_, fun hb hd => ?_, houtside, himem, hdmem, _, hostRead_csrOffset _ .ctrl,
    fun _ => readCsr_ctrl_getLsbD _⟩
  · rw [writeCtrl_busy hb]
    exact ⟨rfl, rfl, SameControl.refl _, rfl⟩
  · rw [writeCtrl_start hb hd]
    exact ⟨by constructor <;> rfl, rfl⟩
  · rw [writeCtrl_idle hb hd]
    exact ⟨SameControl.refl _, rfl⟩

/-- Settles O50: the writes of STATUS and START_PC, and the registers no write changes. -/
theorem registerWritesClearStatusAndSetStartPc : Obligations.RegisterWritesClearStatusAndSetStartPc := by
  intro s data
  have write := fun r => hostWrite_csrOffset s r data
  refine ⟨write .status, fun hb => ?_, fun hb => (write .startPc).trans (writeStartPc_busy hb data), ?_⟩
  · have hlow : data.setWidth 16 = BitVec.ofNat 16 (data.toNat % 2 ^ 16) := BitVec.eq_of_toNat_eq (by simp)
    rw [← hlow]
    exact (write .startPc).trans (writeStartPc_idle hb data)
  · rintro o (rfl | rfl | rfl | rfl | rfl | rfl | rfl)
    · exact write .id
    · exact write .version
    · exact write .pc
    · exact write .cause
    · exact write .faultPc
    · exact write .faultInsn
    · exact write .params

/-! ## Reset -/

theorem readCsr_resetEvent_ctrl (s : State) : s.resetEvent.readCsr .ctrl = 0 := by
  show flagBit false 1 ||| flagBit false 2 = 0
  decide

theorem readCsr_resetEvent_status (s : State) : s.resetEvent.readCsr .status = 0 := by
  show flagBit false 0 ||| flagBit false 1 ||| flagBit false 2 ||| flagBit false 3 = 0
  decide

/-- Settles O54: the reset event answers the reset values, and the registers read them. -/
theorem resetPutsEveryRegisterToItsResetValue : Obligations.ResetPutsEveryRegisterToItsResetValue := by
  intro s
  have read := hostRead_csrOffset s.resetEvent
  refine ⟨s.resetEvent, rfl, ?_, ?_, ?_, ?_, ?_, rfl, rfl, read .id, read .version, ?_, rfl, rfl, rfl, rfl⟩
  · intro r l i
    simp [State.freg, State.resetEvent, State.reset]
  · intro r l
    simp [State.sreg, State.resetEvent, State.reset]
  · intro r l i
    simp [State.dreg, State.resetEvent, State.reset]
  · intro r
    simp [State.creg, State.resetEvent, State.reset]
  · intro l
    simp [State.resetEvent, State.reset]
  · rintro o (rfl | rfl | rfl | rfl | rfl | rfl | rfl)
    · exact (read .ctrl).trans (by rw [readCsr_resetEvent_ctrl])
    · exact (read .status).trans (by rw [readCsr_resetEvent_status])
    · exact read .startPc
    · exact read .pc
    · exact read .cause
    · exact read .faultPc
    · exact read .faultInsn

/-! ## Turns -/

theorem step_turn {s : State} {turn : Turn} {rest : List Turn} (h : s.turns = turn :: rest) :
    step s = turnStep turn { s with turns := rest } := by
  simp only [step, h]

theorem writeCsr_turns (s : State) (r : Csr) (data : Word) : (s.writeCsr r data).turns = s.turns := by
  cases r with
  | ctrl => exact writeCtrl_turns s data
  | startPc =>
    show (s.writeStartPc data).turns = s.turns
    unfold State.writeStartPc
    split <;> rfl
  | _ => rfl

theorem hostWrite_turns (s : State) (width : HostWidth) (o : Half) (data : Word) :
    (s.hostWrite width o data).turns = s.turns := by
  unfold State.hostWrite
  split
  · rfl
  · exact writeCsr_turns s _ data
  · next sp i _ =>
    split
    · rfl
    · cases sp <;> rfl

/-- Settles O60: `step` takes the first turn off the list and serves it. -/
theorem aStepServesTheNextTurn : Obligations.AStepServesTheNextTurn := by
  intro s rest u
  refine ⟨fun width o h => ⟨u.hostReadTurn width o, step_turn h, rfl, ?_, ?_⟩,
    fun width o data h => ⟨step_turn h, hostWrite_turns u width o data⟩,
    fun h => ⟨step_turn h, rfl, rfl, rfl⟩⟩
  · obtain e | e := hostRead_state u width o <;> simp only [State.hostReadTurn, e] <;> rfl
  · obtain e | e := hostRead_state u width o <;> simp only [State.hostReadTurn, e] <;> rfl

end Sys2Proof.Machine
end

section
/-! PROOFS. The invariant holds at reset and every step keeps it (spec/10_state.md R33, R42 to R49,
spec/70_reset_and_hazards.md R325). Each operation that a turn is made of keeps it: a write of a running instruction and
its PC update, the two ends of a run, each host write, and the reset event. -/

namespace Sys2Proof.Machine

open Sys2Proof.Config

section

variable {s t : State}

/-! ## What the writes of an instruction do to the digits and to DMEM -/

theorem Memory.putWords_inside {m : Memory} {words i : Nat} {ws : List Word} (h : ∀ c ∈ m, c.1 < 4 * words)
    (hi : i + ws.length ≤ words) : ∀ c ∈ m.putWords i ws, c.1 < 4 * words := by
  intro c hc
  rcases List.mem_append.1 hc with hc | hc
  · rcases List.mem_append.1 hc with hc | hc
    · exact h c (List.mem_of_mem_filter hc)
    · have hlt := (mem_cellsFrom hc).2
      rw [length_bytesOfWords] at hlt
      omega
  · exact h c (List.mem_of_mem_filter hc)

/-- The only digits an instruction writes are those of a recoding (R33, R229). -/
theorem Writes.digits_range (hw : Writes s t) (h : ∀ r l i, -8 ≤ ((s.dreg r).get l).get i ∧ ((s.dreg r).get l).get i ≤ 16)
    (r : DReg) (l : Lane) (i : Fin 64) : -8 ≤ ((t.dreg r).get l).get i ∧ ((t.dreg r).get l).get i ≤ 16 := by
  cases hw with
  | digits q k =>
    rw [State.dreg_setD]
    split
    · rw [vector_get_map]
      exact recode_range _ i
    · exact h r l i
  | _ => simpa [State.dreg] using h r l i

theorem Writes.dmem_cases (hw : Writes s t) :
    t.dmem = s.dmem ∨ ∃ ea ws, ea + ws.length ≤ s.params.dmemWords ∧ t = s.storeWords ea ws := by
  cases hw with
  | store ea ws h => exact .inr ⟨ea, ws, h, rfl⟩
  | _ => exact .inl (by simp)

/-! ## What the invariant does not speak of -/

/-- CTRL, HBERR, START_PC and the model's own fields are free. -/
theorem Inv.setUntracked (h : Inv s) (ie msbmask hberr : Bool) (startPc : Half) (memEpoch : Nat) (hostRdata : Word)
    (turns : List Turn) :
    Inv { s with ie := ie, msbmask := msbmask, hberr := hberr, startPc := startPc, memEpoch := memEpoch,
                 hostRdata := hostRdata, turns := turns } := { h with }

theorem Inv.setTurns (h : Inv s) (rest : List Turn) : Inv { s with turns := rest } :=
  h.setUntracked _ _ _ _ _ _ rest

theorem Inv.busError (h : Inv s) : Inv s.busError := h.setUntracked _ _ true _ _ _ _

/-! ## The engine -/

/-- While a run goes on, one write of an instruction and the PC update after it keep the invariant. -/
theorem Inv.write (h : Inv s) (hb : s.busy = true) (hw : Writes s t) (pc : Half) : Inv (t.jump pc) := by
  have hc := hw.control
  obtain ⟨hdone, hfault, hcause, hfaultPc, hfaultInsn⟩ := h.running hb
  have hdone := hc.done.trans hdone
  have hfault := hc.fault.trans hfault
  have hfaultInsn := hc.faultInsn.trans hfaultInsn
  have hdmem : t.dmem.wf ∧ ∀ c ∈ t.dmem, c.1 < 4 * s.params.dmemWords := by
    obtain hsame | ⟨ea, ws, hin, rfl⟩ := hw.dmem_cases
    · rw [hsame]
      exact ⟨h.dmemWf, h.dmemIn⟩
    · exact ⟨Memory.putWords_wf h.dmemWf ea ws, Memory.putWords_inside h.dmemIn hin⟩
  exact {
    params := by rw [State.jump_params, hc.params]; exact h.params
    imemWf := by rw [State.jump_imem, hw.imem]; exact h.imemWf
    dmemWf := hdmem.1
    imemIn := by rw [State.jump_imem, State.jump_params, hw.imem, hc.params]; exact h.imemIn
    dmemIn := by rw [State.jump_params, hc.params]; exact hdmem.2
    digits := hw.digits_range h.digits
    oneEnd := by simp [hdone]
    running := fun _ => ⟨hdone, hfault, hc.cause.trans hcause, hc.faultPc.trans hfaultPc, hfaultInsn⟩
    abort := fun _ => hc.busy.trans hb
    endedDone := by simp [hdone]
    endedBad := by simp [hfault]
    noWord := fun _ => hfaultInsn }

/-- A run that ends in a fault (R284): the faulting word is recorded only where one was fetched. -/
theorem Inv.faultEntry (h : Inv s) (hb : s.busy = true) {c : Cause} {w : Word} (hc : c ≠ .none)
    (hw : c = .fetchRange ∨ c = .aborted → w = 0) : Inv (s.faultEntry c w) := by
  have hdone := (h.running hb).1
  exact { h with
    oneEnd := fun hends => by simp [hdone] at hends
    running := nofun
    abort := nofun
    endedDone := fun hd => by simp [hdone] at hd
    endedBad := fun _ => ⟨hc, rfl⟩
    noWord := fun hcause => hw (or_assoc.2 hcause |>.resolve_right hc) }

/-- A run that ends with HALT (R141). -/
theorem Inv.halt (h : Inv s) (hb : s.busy = true) :
    Inv { s.advance with done := true, busy := false, abortReq := false } := by
  obtain ⟨-, hfault, hcause, hfaultPc, hfaultInsn⟩ := h.running hb
  exact { h with
    oneEnd := fun hends => by simp [hfault] at hends
    running := nofun
    abort := nofun
    endedDone := fun _ => ⟨hcause, hfaultPc, hfaultInsn⟩
    endedBad := fun hf => by simp [hfault] at hf
    noWord := fun _ => hfaultInsn }

theorem Inv.of_exec {i : Instr} (h : Inv s) (hb : s.busy = true) (ht : exec i s = .next t) : Inv t := by
  obtain ⟨c, hc, e⟩ | ⟨-, e⟩ | ⟨-, u, pc, hw, e⟩ := exec_cases i s
  · cases e.symm.trans ht
    obtain rfl | rfl | rfl := hc <;> exact h.faultEntry hb (by decide) nofun
  · cases e.symm.trans ht
    exact h.halt hb
  · cases e.symm.trans ht
    exact h.write hb hw pc

theorem Inv.of_engineStep (h : Inv s) (ht : engineStep s = .next t) : Inv t := by
  obtain ⟨-, e⟩ | ⟨hb, -, e⟩ | ⟨hb, -, -, e⟩ | ⟨hb, -, -, _, -, e⟩ | ⟨hb, -, -, i, -, e⟩ := engineStep_cases s
  · cases e.symm.trans ht
    exact h
  · cases e.symm.trans ht
    exact h.faultEntry hb (by decide) fun _ => rfl
  · cases e.symm.trans ht
    exact h.faultEntry hb (by decide) fun _ => rfl
  · cases e.symm.trans ht
    exact h.faultEntry hb (by decide) nofun
  · exact h.of_exec hb (e.symm.trans ht)

/-! ## The host -/

theorem Inv.hostStore (h : Inv s) {sp : Space} {i : Nat}
    (hi : sp = .imem ∧ i < s.params.imemWords ∨ sp = .dmem ∧ i < s.params.dmemWords) (data : Word) :
    Inv (s.hostStore sp i data) := by
  obtain ⟨rfl, hi⟩ | ⟨rfl, hi⟩ := hi
  · exact { h with
      imemWf := Memory.putWords_wf h.imemWf i _
      imemIn := Memory.putWords_inside h.imemIn hi }
  · exact { h with
      dmemWf := Memory.putWords_wf h.dmemWf i _
      dmemIn := Memory.putWords_inside h.dmemIn hi }

/-- A START begins a run with everything of the last one cleared (R323). -/
theorem Inv.startRun (h : Inv s) : Inv s.startRun := { h with
  oneEnd := nofun
  running := fun _ => ⟨rfl, rfl, rfl, rfl, rfl⟩
  abort := fun _ => rfl
  endedDone := nofun
  endedBad := nofun
  noWord := fun _ => rfl }

theorem Inv.writeCtrl (h : Inv s) (data : Word) : Inv (s.writeCtrl data) := by
  cases hb : s.busy
  · have hfree := h.setUntracked (data.getLsbD 1) (data.getLsbD 2) s.hberr s.startPc s.memEpoch s.hostRdata s.turns
    cases hd : data.getLsbD 0
    · rw [writeCtrl_idle hb hd]
      exact hfree
    · rw [writeCtrl_start hb hd]
      exact hfree.startRun
  · rw [writeCtrl_busy hb]
    exact { h with abort := fun _ => hb }

/-- Clearing DONE and FAULT takes conditions away (R42). -/
theorem Inv.writeStatus (h : Inv s) (data : Word) : Inv (s.writeStatus data) := by
  have hdone : (s.writeStatus data).done = true → s.done = true := fun hd => (Bool.and_eq_true_iff.1 hd).1
  have hfault : (s.writeStatus data).fault = true → s.fault = true := fun hf => (Bool.and_eq_true_iff.1 hf).1
  exact { h with
    oneEnd := fun hends => h.oneEnd (hends.imp hdone hfault)
    running := fun hb => by
      obtain ⟨hd, hf, hrest⟩ := h.running hb
      exact ⟨by simp [State.writeStatus, hd], by simp [State.writeStatus, hf], hrest⟩
    endedDone := fun hd => h.endedDone (hdone hd)
    endedBad := fun hf => h.endedBad (hfault hf) }

theorem Inv.writeStartPc (h : Inv s) (data : Word) : Inv (s.writeStartPc data) := by
  cases hb : s.busy
  · rw [writeStartPc_idle hb]
    exact h.setUntracked _ _ _ _ _ _ _
  · rw [writeStartPc_busy hb]
    exact h.busError

theorem Inv.writeCsr (h : Inv s) (r : Csr) (data : Word) : Inv (s.writeCsr r data) := by
  cases r with
  | ctrl => exact h.writeCtrl data
  | status => exact h.writeStatus data
  | startPc => exact h.writeStartPc data
  | id | version | pc | cause | faultPc | faultInsn | params => exact h

theorem Inv.hostWrite (h : Inv s) (width : HostWidth) (o : Half) (data : Word) : Inv (s.hostWrite width o data) := by
  unfold State.hostWrite
  split
  · exact h.busError
  · exact h.writeCsr _ data
  · next htarget =>
    split
    · exact h.busError
    · exact h.hostStore (hostTarget_mem htarget) data

theorem Inv.hostReadTurn (h : Inv s) (width : HostWidth) (o : Half) : Inv (s.hostReadTurn width o) := by
  have hread : Inv (s.hostRead width o).2 := by
    obtain e | e := hostRead_state s width o <;> rw [e]
    · exact h
    · exact h.busError
  exact hread.setUntracked _ _ _ _ _ _ _

/-! ## Reset -/

theorem inv_resetEvent (h : s.params.Legal) : Inv s.resetEvent where
  params := h
  imemWf := List.Pairwise.nil
  dmemWf := List.Pairwise.nil
  imemIn := nofun
  dmemIn := nofun
  digits r l i := by
    have hzero : (((s.resetEvent).dreg r).get l).get i = 0 := by
      simp [State.dreg, State.resetEvent, State.reset]
    rw [hzero]
    decide
  oneEnd := nofun
  running := nofun
  abort := nofun
  endedDone := nofun
  endedBad := nofun
  noWord _ := rfl

end

theorem reset_params_legal : State.reset.params.Legal := by decide +kernel

/-- Settles O55: the reset state differs from the state after a reset event only in the model's counter of resets. -/
theorem theInvariantHoldsAtReset : Obligations.TheInvariantHoldsAtReset :=
  (inv_resetEvent reset_params_legal).setUntracked _ _ _ _ 0 _ _

/-- Settles O56: the agent whose turn it is keeps the invariant. -/
theorem everyStepKeepsTheInvariant : Obligations.EveryStepKeepsTheInvariant := by
  intro s t h ht
  obtain ⟨-, e⟩ | ⟨rest, -, e⟩ | ⟨width, o, rest, -, e⟩ | ⟨width, o, data, rest, -, e⟩ | ⟨rest, -, e⟩ := step_cases s
  · exact h.of_engineStep (e.symm.trans ht)
  · exact (h.setTurns rest).of_engineStep (e.symm.trans ht)
  · cases e.symm.trans ht
    exact (h.setTurns rest).hostReadTurn width o
  · cases e.symm.trans ht
    exact (h.setTurns rest).hostWrite width o data
  · cases e.symm.trans ht
    exact inv_resetEvent h.params

end Sys2Proof.Machine
end

section
/-! PROOFS. Each kind of state is written only by its writers (spec/10_state.md R31 to R35, spec/20_memory.md R73, R74).
Every write of the state is kept to the instructions that may make it, and each instruction makes one write it may make. -/

namespace Sys2Proof.Machine

open Sys2Proof.Config

/-! ## Writers -/

/-- The instructions that write a counter (R34). -/
def WritesCounter (i : Instr) : Prop :=
  (∃ cd imm, i = .cseti cd imm) ∨ (∃ cd imm, i = .caddi cd imm) ∨ (∃ ca tgt, i = .dbnz ca tgt)

/-- The instructions that write a scalar register (R32). -/
def WritesScalar (i : Instr) : Prop := (∃ sd ca addr, i = .sld sd ca addr) ∨ (∃ sd sa, i = .clamp sd sa)

/-- The instructions that write SWP (R35). -/
def WritesSwp (i : Instr) : Prop := (∃ fa fb sa cc n, i = .cswap fa fb sa cc n) ∨ (∃ fa fb n, i = .cswapf fa fb n)

/-- The instructions that write DMEM (R74). -/
def WritesDmem (i : Instr) : Prop :=
  (∃ r ca addr, i = .fst r ca addr) ∨ (∃ r ca addr, i = .fstl r ca addr) ∨ (∃ r ca addr, i = .sst r ca addr)

/-- From `s` to `t` a kind of state changes only if the instruction is one of its writers. -/
structure WritesOwn (i : Instr) (s t : State) : Prop where
  fregs : writesField i = true ∨ t.fregs = s.fregs
  cregs : WritesCounter i ∨ t.cregs = s.cregs
  sregs : WritesScalar i ∨ t.sregs = s.sregs
  dregs : (∃ dd sa, i = .recode dd sa) ∨ t.dregs = s.dregs
  swp   : WritesSwp i ∨ t.swp = s.swp
  dmem  : WritesDmem i ∨ t.dmem = s.dmem

section

variable {i : Instr} {s t : State} {r : Result}

theorem WritesOwn.nothing : WritesOwn i s s := ⟨.inr rfl, .inr rfl, .inr rfl, .inr rfl, .inr rfl, .inr rfl⟩

theorem WritesOwn.setF (h : writesField i = true) (q : FReg) (x : Lanes Limbs) : WritesOwn i s (s.setF q x) :=
  ⟨.inl h, .inr rfl, .inr rfl, .inr rfl, .inr rfl, .inr rfl⟩

theorem WritesOwn.setGroup (h : writesField i = true) (q : FReg) (xs : List (Lanes Limbs)) :
    WritesOwn i s (s.setGroup q xs) :=
  ⟨.inl h, .inr (by simp), .inr (by simp), .inr (by simp), .inr (by simp), .inr (by simp)⟩

theorem WritesOwn.swap (h : writesField i = true) (hs : WritesSwp i) (fa fb : FReg) (sw b : Lanes Bool) (n : Nat) :
    WritesOwn i s ((s.swapGroups fa fb sw n).setSwp b) :=
  ⟨.inl h, .inr (by simp), .inr (by simp), .inr (by simp), .inl hs, .inr (by simp)⟩

theorem WritesOwn.setC (h : WritesCounter i) (q : CReg) (v : Half) : WritesOwn i s (s.setC q v) :=
  ⟨.inr (by simp), .inl h, .inr (by simp), .inr (by simp), .inr (by simp), .inr (by simp)⟩

theorem WritesOwn.setS (h : WritesScalar i) (q : SReg) (x : Lanes Scalar) : WritesOwn i s (s.setS q x) :=
  ⟨.inr rfl, .inr rfl, .inl h, .inr rfl, .inr rfl, .inr rfl⟩

theorem WritesOwn.setD (h : ∃ dd sa, i = .recode dd sa) (q : DReg) (x : Lanes Digits) : WritesOwn i s (s.setD q x) :=
  ⟨.inr rfl, .inr rfl, .inr rfl, .inl h, .inr rfl, .inr rfl⟩

theorem WritesOwn.storeWords (h : WritesDmem i) (ea : Nat) (ws : List Word) : WritesOwn i s (s.storeWords ea ws) :=
  ⟨.inr rfl, .inr rfl, .inr rfl, .inr rfl, .inr rfl, .inl h⟩

theorem WritesOwn.jump (h : WritesOwn i s t) (pc : Half) : WritesOwn i s (t.jump pc) := { h with }

theorem WritesOwn.faultEntry (c : Cause) (w : Word) : WritesOwn i s (s.faultEntry c w) := { WritesOwn.nothing with }

theorem WritesOwn.halt : WritesOwn i s { s.advance with done := true, busy := false, abortReq := false } :=
  { WritesOwn.nothing with }

/-! ## Executing one instruction -/

/-- The next state, if there is one, differs from `s` only where the instruction may write. -/
def ResultOwn (i : Instr) (s : State) (r : Result) : Prop := ∀ t, r = .next t → WritesOwn i s t

theorem ResultOwn.next (h : WritesOwn i s t) : ResultOwn i s (.next t) := fun _ e => by
  cases e
  exact h

theorem ResultOwn.retire (h : WritesOwn i s t) : ResultOwn i s (retire t) := .next (h.jump _)

theorem ResultOwn.branch {P : Prop} [Decidable P] {r' : Result} (h : ResultOwn i s r) (h' : ResultOwn i s r') :
    ResultOwn i s (if P then r else r') := by
  split
  · exact h
  · exact h'

/-- An instruction with a check: a fault writes nothing (R283). -/
theorem ResultOwn.checked {P : Prop} [Decidable P] {c : Cause} {j : Instr} (h : ResultOwn i s r) :
    ResultOwn i s (if P then raise c j s else r) := .branch (.next (.faultEntry c (encode j))) h

theorem exec_writesOwn (i : Instr) (s : State) : ResultOwn i s (exec i s) := by
  cases i with
  | nop => exact .retire .nothing
  | halt => exact .next .halt
  | jmp tgt => exact .next (.jump .nothing tgt)
  | bnez ca tgt => exact .branch (.next (.jump .nothing tgt)) (.retire .nothing)
  | dbnz ca tgt =>
    have hw : WritesOwn (.dbnz ca tgt) s (s.setC ca (s.creg ca - 1)) := .setC (.inr (.inr ⟨_, _, rfl⟩)) _ _
    exact .branch (.next (hw.jump tgt)) (.retire hw)
  | cseti cd imm => exact .retire (.setC (.inl ⟨_, _, rfl⟩) _ _)
  | caddi cd simm => exact .retire (.setC (.inr (.inl ⟨_, _, rfl⟩)) _ _)
  | fld _ _ _ | fldl _ _ _ => exact .checked (.retire (.setF rfl _ _))
  | fst fs ca addr => exact .checked (.retire (.storeWords (.inl ⟨_, _, _, rfl⟩) _ _))
  | fstl fs ca addr => exact .checked (.retire (.storeWords (.inr (.inl ⟨_, _, _, rfl⟩)) _ _))
  | sld sd ca addr => exact .checked (.checked (.retire (.setS (.inl ⟨_, _, _, rfl⟩) _ _)))
  | sst ss ca addr => exact .checked (.checked (.retire (.storeWords (.inr (.inr ⟨_, _, _, rfl⟩)) _ _)))
  | fadd _ _ _ | fsub _ _ _ | fmul _ _ _ | fsqr _ _ | fmov _ _ | fnorm _ _ | finv _ _ | fmulc _ _ _ | fseti _ _ =>
    exact .retire (.setF rfl _ _)
  | clamp sd sa => exact .checked (.retire (.setS (.inr ⟨_, _, rfl⟩) _ _))
  | recode dd sa => exact .checked (.retire (.setD ⟨_, _, rfl⟩ _ _))
  | cswap fa fb sa cc n => exact .checked (.checked (.retire (.swap rfl (.inl ⟨_, _, _, _, _, rfl⟩) _ _ _ _ _)))
  | cswapf fa fb n => exact .checked (.retire (.swap rfl (.inr ⟨_, _, _, rfl⟩) _ _ _ _ _))
  | tblsel fd dd cc => exact .checked (.checked (.retire (.setGroup rfl _ _)))
  | edinit _ | edadd _ _ _ | eddbl _ _ | ladstep _ _ | edfbmul _ _ | monfb _ _ | monvb _ _ _ =>
    exact .checked (.retire (.setGroup rfl _ _))
  | keygen _ _ | shsec _ _ _ => exact .checked (.retire (.setF rfl _ _))

/-! ## What no instruction writes -/

/-- No instruction writes IMEM, the parameters, the host's settings, HBERR or the model's own fields (R73, R76, R301). -/
theorem exec_keeps_shared (h : exec i s = .next t) :
    t.imem = s.imem ∧ t.params = s.params ∧ t.ie = s.ie ∧ t.msbmask = s.msbmask ∧ t.startPc = s.startPc ∧
      t.hberr = s.hberr ∧ t.memEpoch = s.memEpoch ∧ t.turns = s.turns := by
  obtain ⟨c, -, e⟩ | ⟨-, e⟩ | ⟨-, u, pc, hw, e⟩ := exec_cases i s <;> cases e.symm.trans h
  · exact ⟨rfl, rfl, rfl, rfl, rfl, rfl, rfl, rfl⟩
  · exact ⟨rfl, rfl, rfl, rfl, rfl, rfl, rfl, rfl⟩
  · have hc := hw.control
    exact ⟨hw.imem, hc.params, hc.ie, hc.msbmask, hc.startPc, hc.hberr, hc.memEpoch, hc.turns⟩

end

/-- Settles O11: a change of a register shows that its register file is not the same, so the instruction is a writer. -/
theorem eachKindOfStateIsWrittenOnlyByItsWriters : Obligations.EachKindOfStateIsWrittenOnlyByItsWriters := by
  intro i s t ht
  have hown := exec_writesOwn i s t ht
  refine ⟨?_, ?_, ?_, ?_, hown.swp.resolve_right, hown.dmem.resolve_right, exec_keeps_shared ht⟩
  · rintro ⟨r, hr⟩
    exact hown.fregs.resolve_right fun e => hr (by simp only [State.freg, e])
  · rintro ⟨r, hr⟩
    exact hown.cregs.resolve_right fun e => hr (by simp only [State.creg, e])
  · rintro ⟨r, hr⟩
    exact hown.sregs.resolve_right fun e => hr (by simp only [State.sreg, e])
  · rintro ⟨r, hr⟩
    exact hown.dregs.resolve_right fun e => hr (by simp only [State.dreg, e])

end Sys2Proof.Machine
end

section
/-! PROOFS. Memory (spec/20_memory.md): what the host's accesses to a memory read and store and where they are errors
(R70 to R74, R327), and what the loads and stores of the engine move (R79, R80, spec/41_load_store.md R160 to R166). -/

namespace Sys2Proof.Machine

open Sys2Proof.Config

section

variable {s : State} {P : Params} {width : HostWidth} {o : Half} {sp : Space} {i : Nat}

/-! ## One word stored by the host -/

/-- Byte `b` of word `x` of a memory after the word `w` is written at word index `i` (R77). -/
theorem Memory.byte?_putWords_one (m : Memory) (i : Nat) (w : Word) (x : Nat) {b : Nat} (hb : b < 4) :
    (m.putWords i [w]).byte? (4 * x + b) = if x = i then some (w.extractLsb' (8 * b) 8) else m.byte? (4 * x + b) := by
  rw [Memory.putWords, Memory.byte?_putBytes, length_bytesOfWords, List.length_singleton]
  by_cases h : x = i
  · subst h
    rw [if_pos (by omega), if_pos rfl, Nat.add_sub_cancel_left]
    simpa using bytesOfWords_getElem? [w] 0 b hb
  · rw [if_neg (by omega), if_neg h]

/-- A host store changes nothing but the cells of its memory. -/
theorem hostStore_rest (s : State) (sp : Space) (i : Nat) (w : Word) :
    ∃ imem dmem, s.hostStore sp i w = { s with imem := imem, dmem := dmem } := by
  cases sp
  · exact ⟨_, s.dmem, rfl⟩
  · exact ⟨s.imem, _, rfl⟩

theorem State.memory_hostStore (s : State) (sp : Space) (i : Nat) (w : Word) (sp' : Space) :
    (s.hostStore sp i w).memory sp' = if sp' = sp then (s.memory sp').putWords i [w] else s.memory sp' := by
  cases sp <;> cases sp' <;> rfl

theorem State.byteAt_hostStore (s : State) (sp : Space) (i : Nat) (w : Word) (sp' : Space) (x : Nat) {b : Nat} (hb : b < 4) :
    (s.hostStore sp i w).byteAt sp' (4 * x + b) =
      if sp' = sp ∧ x = i then w.extractLsb' (8 * b) 8 else s.byteAt sp' (4 * x + b) := by
  obtain ⟨_, _, hrest⟩ := hostStore_rest s sp i w
  have hepoch : (s.hostStore sp i w).memEpoch = s.memEpoch := by rw [hrest]
  unfold State.byteAt
  rw [State.memory_hostStore, hepoch]
  by_cases hsp : sp' = sp
  · rw [if_pos hsp, Memory.byte?_putWords_one _ _ _ _ hb]
    by_cases hx : x = i <;> simp [hsp, hx]
  · rw [if_neg hsp, if_neg fun h => hsp h.1]

/-- A host store changes the word it names in the memory it names, and no other word of either memory (R73, R74). -/
theorem State.wordAt_hostStore (s : State) (sp : Space) (i : Nat) (w : Word) (sp' : Space) (x : Nat) :
    (s.hostStore sp i w).wordAt sp' x = if sp' = sp ∧ x = i then w else s.wordAt sp' x := by
  have hbyte := fun b (hb : b < 4) => State.byteAt_hostStore s sp i w sp' x hb
  have h0 := hbyte 0 (by decide)
  rw [Nat.add_zero] at h0
  unfold State.wordAt
  rw [h0, hbyte 1 (by decide), hbyte 2 (by decide), hbyte 3 (by decide)]
  split
  · exact wordOfBytes_bytesOfWord w
  · rfl

/-! ## What a host access reaches -/

/-- An access reaches a register only below 0x28, as an aligned word (R38, R71). -/
theorem hostTarget_csr {r : Csr} (h : hostTarget P width o = some (.csr r)) :
    width = .word ∧ o.toNat % 4 = 0 ∧ o.toNat < 0x28 := by
  unfold hostTarget regionAt at h
  split at h
  · next hw =>
    split at h
    · next ho => exact ⟨hw.1, hw.2, ho⟩
    · split at h
      · cases h
      · split at h <;> cases h
  · cases h

theorem imemWords_le (hP : P.Legal) : P.imemWords ≤ 4096 := Nat.pow_le_pow_right (by decide) hP.1.2

/-- Word `i` of IMEM stands at 0x4000 + 4i, word `i` of DMEM at 0x8000 + 4i, and nothing else of the window reaches a
memory (R70, R71). -/
theorem hostTarget_mem_iff (hP : P.Legal) : hostTarget P width o = some (.mem sp i) ↔
    width = .word ∧ (sp = .imem ∧ i < P.imemWords ∧ o.toNat = 0x4000 + 4 * i ∨
      sp = .dmem ∧ i < P.dmemWords ∧ o.toNat = 0x8000 + 4 * i) := by
  have hI := imemWords_le hP
  unfold hostTarget regionAt
  constructor
  · intro h
    split at h
    · next hw =>
      refine ⟨hw.1, ?_⟩
      split at h
      · simp at h
      · split at h
        · cases h
          exact .inl ⟨rfl, by omega, by omega⟩
        · split at h
          · cases h
            exact .inr ⟨rfl, by omega, by omega⟩
          · cases h
    · cases h
  · rintro ⟨rfl, ⟨rfl, hi, ho⟩ | ⟨rfl, hi, ho⟩⟩
    · rw [if_pos ⟨rfl, by omega⟩, if_neg (by omega), if_pos (by omega)]
      simp [ho]
    · rw [if_pos ⟨rfl, by omega⟩, if_neg (by omega), if_neg (by omega), if_pos (by omega)]
      simp [ho]

theorem hostRead_mem_idle (h : hostTarget s.params width o = some (.mem sp i)) (hb : s.busy = false) :
    s.hostRead width o = (s.wordAt sp i, s) := by
  simp only [State.hostRead, h, hb, Bool.false_eq_true, if_false]

theorem hostWrite_mem_idle (h : hostTarget s.params width o = some (.mem sp i)) (hb : s.busy = false) (data : Word) :
    s.hostWrite width o data = s.hostStore sp i data := by
  simp only [State.hostWrite, h, hb, Bool.false_eq_true, if_false]

/-- An access that reaches no register, and no memory unless the engine is busy, is an error (R71, R72). -/
theorem host_access_error (hcsr : ∀ r, hostTarget s.params width o ≠ some (.csr r))
    (hmem : ∀ sp i, hostTarget s.params width o = some (.mem sp i) → s.busy = true) (data : Word) :
    s.hostRead width o = (0, s.busError) ∧ s.hostWrite width o data = s.busError := by
  unfold State.hostRead State.hostWrite
  cases h : hostTarget s.params width o with
  | none => exact ⟨rfl, rfl⟩
  | some target =>
    cases target with
    | csr r => exact absurd h (hcsr r)
    | mem sp i => exact ⟨if_pos (hmem sp i h), if_pos (hmem sp i h)⟩

/-! ## The words of stored values -/

/-- Word `j` of lane `l` after a 256-bit store, as a number (R79). -/
theorem wordAt_storeWords_words256_toNat (s : State) (ea : Nat) (k : Lanes Scalar) (l : Lane) {j : Nat} (hj : j < 8) :
    ((s.storeWords ea (words256 k)).wordAt .dmem (ea + 4 * j + l.val)).toNat =
      (k.get l).toNat / 2 ^ (32 * j) % 2 ^ 32 := by
  rw [wordAt_storeWords_words256 s ea k l hj, BitVec.extractLsb'_toNat, Nat.shiftRight_eq_div_pow]

/-- The two words of limb `i` of lane `l` after a raw store, as numbers (R80). -/
theorem wordAt_storeWords_wordsLimbs_toNat (s : State) (ea : Nat) (x : Lanes Limbs) (l : Lane) (i : Fin 9) :
    ((s.storeWords ea (wordsLimbs x)).wordAt .dmem (ea + 2 * (4 * i.val + l.val))).toNat =
      ((x.get l).get i).toNat % 2 ^ 32 ∧
    ((s.storeWords ea (wordsLimbs x)).wordAt .dmem (ea + 2 * (4 * i.val + l.val) + 1)).toNat =
      ((x.get l).get i).toNat / 2 ^ 32 := by
  have hlt := ((x.get l).get i).isLt
  rw [wordAt_storeWords_wordsLimbs_low, wordAt_storeWords_wordsLimbs_high, BitVec.extractLsb'_toNat,
    BitVec.extractLsb'_toNat, Nat.shiftRight_eq_div_pow, Nat.shiftRight_eq_div_pow]
  omega

end

/-! ## The statements -/

/-- Settles O52: the offset names the word, the store changes that word only, and the read after it reaches it again. -/
theorem hostWritesAndReadsMemoryWhileIdle : Obligations.HostWritesAndReadsMemoryWhileIdle := by
  intro s sp i o data hP hb ho
  have htarget : hostTarget s.params .word o = some (.mem sp i) := (hostTarget_mem_iff hP).2 ⟨rfl, ho⟩
  refine ⟨hostRead_mem_idle htarget hb, _, hostWrite_mem_idle htarget hb data, ?_⟩
  have hword := State.wordAt_hostStore s sp i data
  have hsame : (s.hostStore sp i data).wordAt sp i = data := by rw [hword, if_pos ⟨rfl, rfl⟩]
  have hother : ∀ sp' i', (sp', i') ≠ (sp, i) → (s.hostStore sp i data).wordAt sp' i' = s.wordAt sp' i' := fun sp' i' hne => by
    rw [hword, if_neg fun ⟨hsp, hi⟩ => hne (by rw [hsp, hi])]
  obtain ⟨imem, dmem, hrest⟩ := hostStore_rest s sp i data
  refine ⟨hsame, ?_, hother, ?_⟩
  · rw [hostRead_mem_idle (by rw [hrest]; exact htarget) (by rw [hrest]; exact hb), hsame]
  · rw [hrest]
    exact ⟨by constructor <;> rfl, rfl, fun _ => rfl, fun _ => rfl, fun _ => rfl, fun _ => rfl, rfl⟩

/-- Settles O16: the loaded value fits the limbs, with bit 255 cleared or not. -/
theorem fldLoadsUnreducedLimbs : Obligations.FldLoadsUnreducedLimbs := by
  intro s fd ca addr h
  refine ⟨_, exec_fld h, rfl, (frame_setF s fd _).advance, fun l => ?_⟩
  have hlt := maskMsb_lt s (load256_lt s (s.effectiveAddress ca addr) l)
  simp only [State.advance_freg, State.freg_setF_same, forEachLane_get]
  rw [← State.effectiveAddress, laneValue_eq, ← maskMsb_eq]
  exact ⟨splitOf_limbs hlt, val_limbs hlt⟩

/-- Settles O17: the scalar stored for a lane is its value mod p, which fits 256 bits. -/
theorem fstStoresTheReducedValue : Obligations.FstStoresTheReducedValue := by
  intro s fs ca addr h
  refine ⟨_, exec_fst h, rfl, (frame_storeWords s _ (length_words256 _)).advance, fun l j hj => ?_⟩
  rw [State.advance_wordAt, wordAt_storeWords_words256_toNat s _ _ l hj, forEachLane_get, scalarOf_fieldAt_toNat,
    State.fieldAt]

/-- Settles O18: a limb is its two words, read and written as they stand. -/
theorem fldlAndFstlMoveRawLimbs : Obligations.FldlAndFstlMoveRawLimbs := by
  intro s f ca addr h
  constructor
  · refine ⟨_, exec_fldl h, rfl, (frame_setF s f _).advance, fun l i => ?_⟩
    simp only [State.advance_freg, State.freg_setF_same, forEachLane_get, vector_get_ofFn]
    exact loadLimb_toNat s _ l i.val
  · refine ⟨_, exec_fstl h, rfl, (frame_storeWords s _ (length_wordsLimbs _)).advance, fun l i => ?_⟩
    rw [State.advance_wordAt, State.advance_wordAt]
    exact wordAt_storeWords_wordsLimbs_toNat s _ _ l i

/-- Settles O19: the value of a lane's 8 words fits a scalar, so the load keeps all of it and the store writes it back. -/
theorem sldLoadsAndSstStoresWholeScalars : Obligations.SldLoadsAndSstStoresWholeScalars := by
  intro s r ca addr hr h
  constructor
  · refine ⟨_, exec_sld hr h, rfl, (frame_setS s _ _).advance, fun l => ?_⟩
    rw [State.advance_sreg, State.sreg_setS, if_pos rfl, forEachLane_get, laneValue_eq]
    exact scalarOf_toNat (load256_lt s _ l)
  · refine ⟨_, exec_sst hr h, rfl, (frame_storeWords s _ (length_words256 _)).advance, fun l j hj => ?_⟩
    rw [State.advance_wordAt]
    exact wordAt_storeWords_words256_toNat s _ _ l hj

/-- Settles O51: each error rules out every register, and every memory word while the engine is idle. -/
theorem hostAccessErrorsOnlySetHberr : Obligations.HostAccessErrorsOnlySetHberr := by
  intro s width o data hP herr
  have hI := imemWords_le hP
  refine host_access_error (fun r h => ?_) (fun sp i h => ?_) data
  · obtain ⟨hwidth, halign, hlow⟩ := hostTarget_csr h
    obtain hne | herr := herr
    · exact hne hwidth
    · omega
  · obtain ⟨hwidth, hword⟩ := (hostTarget_mem_iff hP).1 h
    obtain hne | hne | hgap | hgap | hgap | ⟨hbusy, -⟩ := herr
    · exact absurd hwidth hne
    · omega
    · omega
    · omega
    · omega
    · exact hbusy

end Sys2Proof.Machine
end

section
/-! PROOFS. The encoding (spec/30_encoding.md): a word is the concatenation of the fields of its format (R102 to R108), so a
row's mask, match value and operand fields leave no bit of a word open, and the rows are apart (R110). From this the
decoder and the encoder are inverse, each word decodes by its one row, and the words in no row are the illegal ones
(R112). -/

namespace Sys2Proof

/-! ## A word as its fields -/

/-- Two adjacent fields are one field. -/
theorem bits_append (w : Word) (lo k l : Nat) : bits w (lo + l) k ++ bits w lo l = bits w lo (k + l) := by
  apply BitVec.eq_of_getLsbD_eq
  intro i hi
  simp only [bits, BitVec.getLsbD_append, BitVec.getLsbD_extractLsb', hi]
  split
  case isTrue h => simp [h]
  case isFalse h => simp [show i - l < k by omega, show lo + l + (i - l) = lo + i by omega]

theorem bits_all (w : Word) : bits w 0 32 = w := BitVec.extractLsb'_eq_self

/-- A field that a mask keeps whole is read from the masked word (R110). -/
theorem bits_of_and {w m v : Word} (h : w &&& m = v) {lo len : Nat} {f : BitVec len}
    (hm : bits m lo len = BitVec.allOnes len) (hv : bits v lo len = f) : bits w lo len = f := by
  unfold bits at hm hv ⊢
  rw [← hv, ← h, BitVec.extractLsb'_and, hm, BitVec.and_allOnes]

section

variable {w : Word} {op : BitVec 5}

theorem formatR_of_bits {rd ra rb fn : BitVec 5} (hop : bits w 27 5 = op) (hrd : bits w 22 5 = rd)
    (hra : bits w 17 5 = ra) (hrb : bits w 12 5 = rb) (hz : bits w 5 7 = 0#7) (hfn : bits w 0 5 = fn) :
    formatR op rd ra rb fn = w := by
  subst hop hrd hra hrb hfn
  rw [formatR, ← hz, bits_append w 22 5 5, bits_append w 17 10 5, bits_append w 12 15 5, bits_append w 5 20 7,
    bits_append w 0 27 5, bits_all]

theorem formatK_of_bits {rd ra : BitVec 5} {imm : Imm17} (hop : bits w 27 5 = op) (hrd : bits w 22 5 = rd)
    (hra : bits w 17 5 = ra) (himm : bits w 0 17 = imm) : formatK op rd ra imm = w := by
  subst hop hrd hra himm
  rw [formatK, bits_append w 22 5 5, bits_append w 17 10 5, bits_append w 0 15 17, bits_all]

theorem formatJ_of_bits {ca : CReg} {tgt : Half} (hop : bits w 27 5 = op) (hca : bits w 24 3 = ca)
    (hz : bits w 16 8 = 0#8) (htgt : bits w 0 16 = tgt) : formatJ op ca tgt = w := by
  subst hop hca htgt
  rw [formatJ, ← hz, bits_append w 24 5 3, bits_append w 16 8 8, bits_append w 0 16 16, bits_all]

theorem formatC_of_bits {cd : CReg} {imm : Half} (hop : bits w 27 5 = op) (hcd : bits w 24 3 = cd)
    (hz : bits w 16 8 = 0#8) (himm : bits w 0 16 = imm) : formatC op cd imm = w :=
  formatJ_of_bits hop hcd hz himm

theorem formatM_of_bits {r : BitVec 5} {ca : CReg} {addr : Half} (hop : bits w 27 5 = op) (hr : bits w 22 5 = r)
    (hca : bits w 19 3 = ca) (hz : bits w 16 3 = 0#3) (haddr : bits w 0 16 = addr) : formatM op r ca addr = w := by
  subst hop hr hca haddr
  rw [formatM, ← hz, bits_append w 22 5 5, bits_append w 19 10 3, bits_append w 16 13 3, bits_append w 0 16 16, bits_all]

theorem formatS_of_bits {fa fb : FReg} {sa : SReg} {cc : CReg} {n : BitVec 2} {fn : BitVec 5} (hop : bits w 27 5 = op)
    (hfa : bits w 22 5 = fa) (hfb : bits w 17 5 = fb) (hsa : bits w 15 2 = sa) (hcc : bits w 12 3 = cc)
    (hn : bits w 10 2 = n) (hz : bits w 5 5 = 0#5) (hfn : bits w 0 5 = fn) : formatS op fa fb sa cc n fn = w := by
  subst hop hfa hfb hsa hcc hn hfn
  rw [formatS, ← hz, bits_append w 22 5 5, bits_append w 17 10 5, bits_append w 15 15 2, bits_append w 12 17 3,
    bits_append w 10 20 2, bits_append w 5 22 5, bits_append w 0 27 5, bits_all]

theorem formatT_of_bits {fd : FReg} {dd : DReg} {cc : CReg} (hop : bits w 27 5 = op) (hfd : bits w 22 5 = fd)
    (hdd : bits w 20 2 = dd) (hcc : bits w 17 3 = cc) (hz : bits w 0 17 = 0#17) : formatT op fd dd cc = w := by
  subst hop hfd hdd hcc
  rw [formatT, ← hz, bits_append w 22 5 5, bits_append w 20 10 2, bits_append w 17 12 3, bits_append w 0 15 17, bits_all]

end

/-! ## Every row is exact -/

/-- No bit of a word of the row is spare: encoding the instruction the row reads gives the word back. -/
def Row.Exact (r : Row) : Prop := ∀ w : Word, w &&& r.mask = r.value → encode (r.build w) = w

theorem rowsControl_exact : ∀ r ∈ rowsControl, r.Exact := by
  simp only [rowsControl, List.forall_mem_cons]
  refine ⟨?nop, ?halt, ?jmp, ?bnez, ?dbnz, ?cseti, ?caddi, nofun⟩ <;> intro w h
  case nop | halt => exact h.symm.trans (BitVec.and_allOnes ..)
  case jmp =>
    exact formatJ_of_bits (bits_of_and h rfl rfl) (bits_of_and h rfl rfl) (bits_of_and h rfl rfl) rfl
  case bnez | dbnz => exact formatJ_of_bits (bits_of_and h rfl rfl) rfl (bits_of_and h rfl rfl) rfl
  case cseti | caddi => exact formatC_of_bits (bits_of_and h rfl rfl) rfl (bits_of_and h rfl rfl) rfl

theorem rowsMemory_exact : ∀ r ∈ rowsMemory, r.Exact := by
  simp only [rowsMemory, List.forall_mem_cons]
  refine ⟨?fld, ?fst, ?fldl, ?fstl, ?sld, ?sst, nofun⟩ <;> intro w h <;>
    exact formatM_of_bits (bits_of_and h rfl rfl) rfl rfl (bits_of_and h rfl rfl) rfl

theorem rowsField_exact : ∀ r ∈ rowsField, r.Exact := by
  simp only [rowsField, List.forall_mem_cons]
  refine ⟨?fadd, ?fsub, ?fmul, ?fsqr, ?fmov, ?fnorm, ?finv, ?fmulc, ?fseti, nofun⟩ <;> intro w h
  case fadd | fsub | fmul =>
    exact formatR_of_bits (bits_of_and h rfl rfl) rfl rfl rfl (bits_of_and h rfl rfl) (bits_of_and h rfl rfl)
  case fsqr | fmov | fnorm | finv =>
    exact formatR_of_bits (bits_of_and h rfl rfl) rfl rfl (bits_of_and h rfl rfl) (bits_of_and h rfl rfl)
      (bits_of_and h rfl rfl)
  case fmulc => exact formatK_of_bits (bits_of_and h rfl rfl) rfl rfl rfl
  case fseti => exact formatK_of_bits (bits_of_and h rfl rfl) rfl (bits_of_and h rfl rfl) rfl

theorem rowsScalar_exact : ∀ r ∈ rowsScalar, r.Exact := by
  simp only [rowsScalar, List.forall_mem_cons]
  refine ⟨?clamp, ?recode, ?cswap, ?cswapf, ?tblsel, nofun⟩ <;> intro w h
  case clamp | recode =>
    exact formatR_of_bits (bits_of_and h rfl rfl) rfl rfl (bits_of_and h rfl rfl) (bits_of_and h rfl rfl)
      (bits_of_and h rfl rfl)
  case cswap =>
    exact formatS_of_bits (bits_of_and h rfl rfl) rfl rfl rfl rfl rfl (bits_of_and h rfl rfl) (bits_of_and h rfl rfl)
  case cswapf =>
    exact formatS_of_bits (bits_of_and h rfl rfl) rfl rfl (bits_of_and h rfl rfl) (bits_of_and h rfl rfl) rfl
      (bits_of_and h rfl rfl) (bits_of_and h rfl rfl)
  case tblsel => exact formatT_of_bits (bits_of_and h rfl rfl) rfl rfl rfl (bits_of_and h rfl rfl)

theorem rowsPoint_exact : ∀ r ∈ rowsPoint, r.Exact := by
  simp only [rowsPoint, List.forall_mem_cons]
  refine ⟨?edinit, ?edadd, ?eddbl, ?ladstep, ?edfbmul, ?monfb, ?monvb, ?keygen, ?shsec, nofun⟩ <;> intro w h
  case edinit =>
    exact formatR_of_bits (bits_of_and h rfl rfl) rfl (bits_of_and h rfl rfl) (bits_of_and h rfl rfl)
      (bits_of_and h rfl rfl) (bits_of_and h rfl rfl)
  case edadd | monvb | shsec =>
    exact formatR_of_bits (bits_of_and h rfl rfl) rfl rfl rfl (bits_of_and h rfl rfl) (bits_of_and h rfl rfl)
  case eddbl | ladstep =>
    exact formatR_of_bits (bits_of_and h rfl rfl) rfl rfl (bits_of_and h rfl rfl) (bits_of_and h rfl rfl)
      (bits_of_and h rfl rfl)
  case edfbmul | monfb | keygen =>
    exact formatR_of_bits (bits_of_and h rfl rfl) rfl (bits_of_and h rfl rfl) rfl (bits_of_and h rfl rfl)
      (bits_of_and h rfl rfl)

theorem rows_exact : ∀ r ∈ rows, r.Exact := by
  simp only [rows, List.forall_mem_append]
  exact ⟨⟨⟨⟨rowsControl_exact, rowsMemory_exact⟩, rowsField_exact⟩, rowsScalar_exact⟩, rowsPoint_exact⟩

/-! ## The one row of a word -/

theorem Row.covers_iff {r : Row} {w : Word} : r.covers w = true ↔ w &&& r.mask = r.value := beq_iff_eq

/-- No word lies in two rows (R110). -/
theorem rows_get_unique {w : Word} {j k : Fin rows.length} (hj : (rows.get j).covers w = true)
    (hk : (rows.get k).covers w = true) : j = k := by
  have apart := List.pairwise_iff_get.1 rows_apart
  obtain h | h | h := lt_trichotomy j k
  · exact absurd ⟨hj, hk⟩ (covers_apart (apart j k h))
  · exact h
  · exact absurd ⟨hk, hj⟩ (covers_apart (apart k j h))

theorem row_unique {w : Word} {a b : Row} (ha : a ∈ rows) (hb : b ∈ rows) (hwa : a.covers w = true)
    (hwb : b.covers w = true) : a = b := by
  obtain ⟨j, rfl⟩ := List.get_of_mem ha
  obtain ⟨k, rfl⟩ := List.get_of_mem hb
  rw [rows_get_unique hwa hwb]

theorem decode_of_covers {r : Row} {w : Word} (hr : r ∈ rows) (hw : r.covers w = true) : decode w = .ok (r.build w) := by
  unfold decode
  cases hf : rows.find? (fun r => r.covers w) with
  | none => exact absurd hw (List.find?_eq_none.1 hf r hr)
  | some b => rw [row_unique (List.mem_of_find?_eq_some hf) hr (List.find?_some (p := (Row.covers · w)) hf) hw]

theorem decode_of_no_row {w : Word} (h : ∀ r ∈ rows, ¬ r.covers w = true) : decode w = .error (illegality w) := by
  unfold decode
  rw [List.find?_eq_none.2 h]

/-- Everything decoding can do: read a word by its row, or refuse a word in no row. -/
theorem decode_cases (w : Word) :
    (∃ r ∈ rows, r.covers w = true ∧ decode w = .ok (r.build w)) ∨
    ((∀ r ∈ rows, ¬ r.covers w = true) ∧ decode w = .error (illegality w)) := by
  by_cases h : ∃ r ∈ rows, r.covers w = true
  · obtain ⟨r, hr, hw⟩ := h
    exact .inl ⟨r, hr, hw, decode_of_covers hr hw⟩
  · push Not at h
    exact .inr ⟨h, decode_of_no_row h⟩

theorem decode_eq_ok_iff {w : Word} {i : Instr} :
    decode w = .ok i ↔ ∃ r ∈ rows, w &&& r.mask = r.value ∧ r.build w = i := by
  constructor
  · intro h
    obtain ⟨r, hr, hw, e⟩ | ⟨-, e⟩ := decode_cases w <;> cases e.symm.trans h
    exact ⟨r, hr, Row.covers_iff.1 hw, rfl⟩
  · rintro ⟨r, hr, hw, rfl⟩
    exact decode_of_covers hr (Row.covers_iff.2 hw)

theorem decode_error_iff {w : Word} : (∃ e, decode w = .error e) ↔ ∀ r ∈ rows, w &&& r.mask ≠ r.value := by
  simp only [← Row.covers_iff, ne_eq]
  constructor
  · rintro ⟨e, he⟩ r hr hw
    cases he.symm.trans (decode_of_covers hr hw)
  · exact fun h => ⟨_, decode_of_no_row h⟩

/-! ## Decoding and encoding are inverse -/

theorem encode_of_decode {w : Word} {i : Instr} (h : decode w = .ok i) : encode i = w := by
  obtain ⟨r, hr, hw, rfl⟩ := decode_eq_ok_iff.1 h
  exact rows_exact r hr w hw

/-- The word of every instruction lies in a row that reads the instruction back. -/
theorem rowOf (i : Instr) : Laws.RowOf.Statement i := by
  cases i with
  | nop => exact Laws.RowOf.nop
  | halt => exact Laws.RowOf.halt
  | jmp => exact Laws.RowOf.jmp ..
  | bnez => exact Laws.RowOf.bnez ..
  | dbnz => exact Laws.RowOf.dbnz ..
  | cseti => exact Laws.RowOf.cseti ..
  | caddi => exact Laws.RowOf.caddi ..
  | fld => exact Laws.RowOf.fld ..
  | fst => exact Laws.RowOf.fst ..
  | fldl => exact Laws.RowOf.fldl ..
  | fstl => exact Laws.RowOf.fstl ..
  | sld => exact Laws.RowOf.sld ..
  | sst => exact Laws.RowOf.sst ..
  | fadd => exact Laws.RowOf.fadd ..
  | fsub => exact Laws.RowOf.fsub ..
  | fmul => exact Laws.RowOf.fmul ..
  | fsqr => exact Laws.RowOf.fsqr ..
  | fmov => exact Laws.RowOf.fmov ..
  | fnorm => exact Laws.RowOf.fnorm ..
  | finv => exact Laws.RowOf.finv ..
  | fmulc => exact Laws.RowOf.fmulc ..
  | fseti => exact Laws.RowOf.fseti ..
  | clamp => exact Laws.RowOf.clamp ..
  | recode => exact Laws.RowOf.recode ..
  | cswap => exact Laws.RowOf.cswap ..
  | cswapf => exact Laws.RowOf.cswapf ..
  | tblsel => exact Laws.RowOf.tblsel ..
  | edinit => exact Laws.RowOf.edinit ..
  | edadd => exact Laws.RowOf.edadd ..
  | eddbl => exact Laws.RowOf.eddbl ..
  | ladstep => exact Laws.RowOf.ladstep ..
  | edfbmul => exact Laws.RowOf.edfbmul ..
  | monfb => exact Laws.RowOf.monfb ..
  | monvb => exact Laws.RowOf.monvb ..
  | keygen => exact Laws.RowOf.keygen ..
  | shsec => exact Laws.RowOf.shsec ..

theorem decode_encode (i : Instr) : decode (encode i) = .ok i := by
  obtain ⟨r, hr, hw, hb⟩ := rowOf i
  rw [decode_of_covers hr hw, hb]

/-- Settles O1: the encoding of the instruction that a row reads from a word is the word, since the row is exact; and the
word of an instruction lies in the row that reads it back. -/
theorem decodingAndEncodingAgree : Obligations.DecodingAndEncodingAgree := fun _ i =>
  ⟨fun h => (encode_of_decode h).symm, fun h => h ▸ decode_encode i⟩

/-- Settles O2: the decoder reads a word by the first row that covers it, and no other row does. -/
theorem aWordEncodesTheInstructionOfItsOneRow : Obligations.AWordEncodesTheInstructionOfItsOneRow := fun _ =>
  ⟨fun _ => decode_eq_ok_iff, fun _ _ hj hk => rows_get_unique (Row.covers_iff.2 hj) (Row.covers_iff.2 hk)⟩

/-- Settles O3: each word is the encoding of its instruction. -/
theorem writtenOutWordsDecode : Obligations.WrittenOutWordsDecode := by
  refine ⟨?halt, ?fsub, ?fmulc, ?bnez, ?caddi, ?fld, ?cswap, ?tblsel, ?edadd, ?ladstep, ?shsec⟩ <;>
    exact (decodingAndEncodingAgree _ _).2 rfl

/-! ## The words in no row -/

theorem rows_keep_opcode : ∀ r ∈ rows, bits r.mask 27 5 = BitVec.allOnes 5 := by decide +kernel

theorem rows_opcode_lt : ∀ r ∈ rows, (bits r.value 27 5).toNat < 0x15 := by decide +kernel

/-- The rows of a group opcode fix the function code (R101). -/
theorem rows_keep_function :
    ∀ r ∈ rows, bits r.value 27 5 ∈ groupOpcodes → bits r.mask 0 5 = BitVec.allOnes 5 := by decide +kernel

/-- A word shares the opcode of its row. -/
theorem opcode_of_covers {r : Row} {w : Word} (hr : r ∈ rows) (hw : r.covers w = true) :
    bits w 27 5 = bits r.value 27 5 := bits_of_and (Row.covers_iff.1 hw) (rows_keep_opcode r hr) rfl

/-- A word of a group opcode shares the function code of its row. -/
theorem function_of_covers {r : Row} {w : Word} (hr : r ∈ rows) (hw : r.covers w = true)
    (hg : bits w 27 5 ∈ groupOpcodes) : bits w 0 5 = bits r.value 0 5 :=
  bits_of_and (Row.covers_iff.1 hw) (rows_keep_function r hr (opcode_of_covers hr hw ▸ hg)) rfl

/-- A word with a reserved opcode is illegal (R112). -/
theorem decode_reservedOpcode {w : Word} (h : 0x15 ≤ (bits w 27 5).toNat) : decode w = .error .reservedOpcode := by
  have uncovered : ∀ r ∈ rows, ¬ r.covers w = true := fun r hr hw =>
    absurd (opcode_of_covers hr hw ▸ rows_opcode_lt r hr) (Nat.not_lt.2 h)
  rw [decode_of_no_row uncovered, illegality, if_pos h]

/-- Some row has the opcode and the function code. -/
def functionListed (op fn : BitVec 5) : Bool := rows.any fun r => bits r.value 27 5 == op && bits r.value 0 5 == fn

/-- A word with a group opcode and an unlisted function code is illegal (R112). -/
theorem decode_unlistedFunction {w : Word} (hop : (bits w 27 5).toNat < 0x15) (hg : bits w 27 5 ∈ groupOpcodes)
    (hf : functionListed (bits w 27 5) (bits w 0 5) = false) : decode w = .error .unlistedFunction := by
  have uncovered : ∀ r ∈ rows, ¬ r.covers w = true := fun r hr hw => by
    refine List.any_eq_false.1 hf r hr ?_
    simp [opcode_of_covers hr hw, function_of_covers hr hw hg]
  rw [decode_of_no_row uncovered, illegality, if_neg (Nat.not_le.2 hop), if_pos]
  unfold functionListed at hf
  simp [hg, hf]

/-- The function codes R112 calls unlisted, by opcode. -/
def UnlistedFunction (op fn : BitVec 5) : Prop :=
  op = 0x00 ∧ fn ≠ 1 ∧ fn ≠ 2 ∨ op = 0x0C ∧ 7 ≤ fn.toNat ∨ op = 0x0F ∧ 2 ≤ fn.toNat ∨ op = 0x10 ∧ 2 ≤ fn.toNat ∨
    op = 0x12 ∧ 3 ≤ fn.toNat ∨ op = 0x13 ∧ 1 ≤ fn.toNat ∨ op = 0x14 ∧ 5 ≤ fn.toNat

theorem functionListed_of_unlisted {op fn : BitVec 5} (h : UnlistedFunction op fn) :
    op.toNat < 0x15 ∧ op ∈ groupOpcodes ∧ functionListed op fn = false := by
  revert op fn
  unfold UnlistedFunction
  decide +kernel

theorem decode_of_unlisted {w : Word} (h : UnlistedFunction (bits w 27 5) (bits w 0 5)) :
    decode w = .error .unlistedFunction := by
  obtain ⟨hop, hg, hf⟩ := functionListed_of_unlisted h
  exact decode_unlistedFunction hop hg hf

/-- Settles O4: the words the decoder refuses are those in no row; a reserved opcode, and an unlisted function code of a
group, is the opcode or function code of no row, while a covered word shares its row's. -/
theorem aWordInNoRowIsIllegal : Obligations.AWordInNoRowIsIllegal := by
  intro w
  refine ⟨decode_error_iff.symm, fun s h => ?_, decode_reservedOpcode, decode_of_unlisted,
    decode_of_unlisted (.inl (by decide))⟩
  obtain ⟨e, he⟩ := decode_error_iff.2 h
  exact Machine.runWord_error he

end Sys2Proof
end

section
/-! PROOFS. When an instruction faults, and with which cause (spec/30_encoding.md R114, spec/60_exceptions.md R281, R282). The
checks of an instruction are one function of the instruction and the state, and a result that passes them is no fault
entry. -/

namespace Sys2Proof.Machine

/-! ## The operand table -/

/-- The operands of a swap are illegal as R114 writes it, with |FA - FB| an integer distance. -/
theorem swapIllegal_iff_abs (fa fb : FReg) (n : BitVec 2) : swapIllegal fa fb n ↔
    31 < fa.toNat + n.toNat ∨ 31 < fb.toNat + n.toNat ∨ |(fa.toNat : Int) - fb.toNat| < n.toNat + 1 := by
  have distance : groupsOverlap fa fb (swapSize n) ↔ |(fa.toNat : Int) - fb.toNat| < n.toNat + 1 := by
    unfold groupsOverlap swapSize
    rw [abs_lt]
    split <;> omega
  exact or_congr .rfl (or_congr .rfl distance)

/-- The operand check of an instruction as its meaning makes it; False where it makes none (R114). -/
def operandsIllegal : Instr → Prop
  | .sld r _ _ | .sst r _ _ | .keygen _ r | .shsec _ _ r => fieldTooBig r
  | .clamp r q | .recode r q => fieldTooBig r ∨ fieldTooBig q
  | .cswap fa fb _ _ n | .cswapf fa fb n => swapIllegal fa fb n
  | .tblsel fd _ _ => groupTooBig fd 3
  | .edinit fd => groupTooBig fd 5
  | .edadd fd fa fb => groupTooBig fd 5 ∨ groupTooBig fa 5 ∨ groupTooBig fb 3
  | .eddbl fd fa => groupTooBig fd 5 ∨ groupTooBig fa 5
  | .ladstep fd _ => groupTooBig fd 4
  | .edfbmul fd r | .monfb fd r | .monvb fd _ r => fieldTooBig r ∨ groupTooBig fd 2
  | _ => False

theorem named_eq_false {r : RField} : r.named = false ↔ fieldTooBig r := by
  rw [RField.named, decide_eq_false_iff_not, Nat.not_le]

theorem groupFits_eq_false {r : FReg} {len : Nat} : r.groupFits len = false ↔ groupTooBig r len := by
  rw [FReg.groupFits, decide_eq_false_iff_not, Nat.not_le]

/-- The instructions that fail their operand check are the ill-formed ones. -/
theorem wellFormed_eq_false_iff (i : Instr) : i.wellFormed = false ↔ operandsIllegal i := by
  cases i with
  | cswap fa fb _ _ n | cswapf fa fb n => exact (swapIllegal_iff fa fb n).symm
  | sld | sst | keygen | shsec => exact named_eq_false
  | tblsel | edinit | ladstep => exact groupFits_eq_false
  | clamp | recode | edadd | eddbl | edfbmul | monfb | monvb =>
    simp only [operandsIllegal, Instr.wellFormed, Bool.and_eq_false_iff, named_eq_false, groupFits_eq_false, or_assoc]
  | _ => exact iff_of_false nofun id

/-! ## The checks of an instruction -/

/-- The cause of a well-formed instruction's fault in a state, if it faults: a counter that indexes a scalar bit or a
digit, or the words of a load or store, are out of range (R166, R281). -/
def indexOrRangeFault : Instr → State → Option Cause
  | .cswap _ _ _ cc _, s => if bitIndexTooBig (s.creg cc) then some .indexRange else none
  | .tblsel _ _ cc, s => if digitIndexTooBig (s.creg cc) then some .indexRange else none
  | .fld _ ca addr, s | .fst _ ca addr, s | .sld _ ca addr, s | .sst _ ca addr, s =>
    if s.outOfRange (s.effectiveAddress ca addr) words256Count then some .dmemRange else none
  | .fldl _ ca addr, s | .fstl _ ca addr, s =>
    if s.outOfRange (s.effectiveAddress ca addr) wordsLimbsCount then some .dmemRange else none
  | _, _ => none

/-- The cause of an instruction's fault in a state, if it faults: the operand check comes first (R114, R115, R282). -/
def faultCause (i : Instr) (s : State) : Option Cause :=
  if i.wellFormed = false then some .illegalOperand else indexOrRangeFault i s

/-- `r` is the fault entry with cause `c` of `i` exactly when `o` is `some c`. -/
def FaultsAs (i : Instr) (s : State) (o : Option Cause) (r : Result) : Prop :=
  ∀ c, r = .next (s.faultEntry c (encode i)) ↔ o = some c

section

variable {i : Instr} {s t : State} {o : Option Cause} {r : Result}

theorem FaultsAs.raise (c : Cause) : FaultsAs i s (some c) (raise c i s) := fun c' =>
  ⟨fun h => congrArg some (congrArg State.cause (Host.Outcome.next.inj h)), fun h => by cases h; rfl⟩

/-- A result whose next state is still busy, or has moved the PC, is no fault entry (R284). -/
theorem FaultsAs.next (h : t.busy = true ∨ t.pc = s.pc + 1) : FaultsAs i s none (.next t) := fun c => by
  refine ⟨fun e => ?_, nofun⟩
  cases e
  rcases h with h | h
  · cases h
  · exact absurd (BitVec.self_eq_add_right.1 h) (by decide)

theorem FaultsAs.jump (hb : s.busy = true) (hw : Writes s t) (pc : Half) : FaultsAs i s none (.next (t.jump pc)) :=
  .next (.inl (hw.control.busy.trans hb))

theorem FaultsAs.retire (hb : s.busy = true) (hw : Writes s t) : FaultsAs i s none (retire t) := .jump hb hw _

theorem FaultsAs.branch {P : Prop} [Decidable P] {r' : Result} (h : FaultsAs i s o r) (h' : FaultsAs i s o r') :
    FaultsAs i s o (if P then r else r') := by
  split
  · exact h
  · exact h'

/-- A check that raises the cause `c` or goes on. -/
theorem FaultsAs.check {P Q : Prop} [Decidable P] [Decidable Q] {c : Cause} (hPQ : P ↔ Q) (h : FaultsAs i s o r) :
    FaultsAs i s (if Q then some c else o) (if P then Machine.raise c i s else r) := by
  by_cases hp : P
  · rw [if_pos hp, if_pos (hPQ.1 hp)]
    exact .raise c
  · rw [if_neg hp, if_neg (hp ∘ hPQ.2)]
    exact h

/-- An instruction without an operand check is always well-formed. -/
theorem FaultsAs.legal (hi : i.wellFormed = true) (h : FaultsAs i s (indexOrRangeFault i s) r) :
    FaultsAs i s (faultCause i s) r := by
  rw [faultCause, if_neg (by simp [hi])]
  exact h

/-- The operand check comes first, and raises ILLEGAL_OPERAND for the ill-formed instructions. -/
theorem FaultsAs.operands {P : Prop} [Decidable P] (hP : operandsIllegal i ↔ P)
    (h : FaultsAs i s (indexOrRangeFault i s) r) :
    FaultsAs i s (faultCause i s) (if P then Machine.raise .illegalOperand i s else r) :=
  .check ((wellFormed_eq_false_iff i).trans hP).symm h

/-- An instruction faults exactly when its checks say so, with the cause of the first check that fails. -/
theorem exec_faultsAs (hb : s.busy = true) : FaultsAs i s (faultCause i s) (exec i s) := by
  cases i with
  | nop => exact .legal rfl (.retire hb .nothing)
  | halt => exact .legal rfl (.next (.inr rfl))
  | jmp tgt => exact .legal rfl (.jump hb .nothing tgt)
  | bnez ca tgt => exact .legal rfl (.branch (.jump hb .nothing tgt) (.retire hb .nothing))
  | dbnz ca tgt => exact .legal rfl (.branch (.jump hb (.counter _ _) tgt) (.retire hb (.counter _ _)))
  | cseti _ _ | caddi _ _ => exact .legal rfl (.retire hb (.counter _ _))
  | fld _ _ _ | fldl _ _ _ => exact .legal rfl (.check .rfl (.retire hb (.field _ _)))
  | fadd _ _ _ | fsub _ _ _ | fmul _ _ _ | fsqr _ _ | fmov _ _ | fnorm _ _ | finv _ _ | fmulc _ _ _ | fseti _ _ =>
    exact .legal rfl (.retire hb (.field _ _))
  | fst _ _ _ | fstl _ _ _ => exact .legal rfl (.check .rfl (.next (.inl hb)))
  | sld _ _ _ => exact .operands .rfl (.check .rfl (.retire hb (.scalar _ _)))
  | sst _ _ _ => exact .operands .rfl (.check .rfl (.next (.inl hb)))
  | clamp _ _ => exact .operands .rfl (.retire hb (.scalar _ _))
  | recode _ _ => exact .operands .rfl (.retire hb (.digits _ _))
  | cswap _ _ _ _ _ => exact .operands .rfl (.check .rfl (.retire hb (.swap _ _ _ _ _)))
  | cswapf _ _ _ => exact .operands .rfl (.retire hb (.swap _ _ _ _ _))
  | tblsel _ _ _ => exact .operands .rfl (.check .rfl (.retire hb (.group _ _)))
  | edinit _ | edadd _ _ _ | eddbl _ _ | ladstep _ _ | edfbmul _ _ | monfb _ _ | monvb _ _ _ =>
    exact .operands .rfl (.retire hb (.group _ _))
  | keygen _ _ | shsec _ _ _ => exact .operands .rfl (.retire hb (.field _ _))

end

/-! ## The three causes -/

/-- The counter of a CSWAP or TBLSEL is out of range (R281). -/
def IndexOut (i : Instr) (s : State) : Prop :=
  (∃ fa fb sa cc n, i = .cswap fa fb sa cc n ∧ 255 < (s.creg cc).toNat) ∨
    (∃ fd dd cc, i = .tblsel fd dd cc ∧ 63 < (s.creg cc).toNat)

/-- The words of a load or store pass DMEM_WORDS (R75, R166). -/
def DmemOut (i : Instr) (s : State) : Prop :=
  (∃ r ca addr, (i = .fld r ca addr ∨ i = .fst r ca addr ∨ i = .sld r ca addr ∨ i = .sst r ca addr) ∧
      s.params.dmemWords < (s.creg ca).toNat + addr.toNat + 32) ∨
    (∃ r ca addr, (i = .fldl r ca addr ∨ i = .fstl r ca addr) ∧
      s.params.dmemWords < (s.creg ca).toNat + addr.toNat + 72)

theorem indexOrRangeFault_indexRange (i : Instr) (s : State) :
    indexOrRangeFault i s = some .indexRange ↔ IndexOut i s := by
  unfold IndexOut
  cases i <;> simp [indexOrRangeFault]

theorem indexOrRangeFault_dmemRange (i : Instr) (s : State) :
    indexOrRangeFault i s = some .dmemRange ↔ DmemOut i s := by
  unfold DmemOut
  cases i with
  | fld | fst | sld | sst => simp [indexOrRangeFault, State.effectiveAddress, words256Count]
  | fldl | fstl => simp [indexOrRangeFault, State.effectiveAddress, wordsLimbsCount]
  | _ => simp [indexOrRangeFault]

theorem indexOrRangeFault_ne_illegalOperand (i : Instr) (s : State) :
    indexOrRangeFault i s ≠ some .illegalOperand := by
  cases i with
  | cswap | tblsel | fld | fst | sld | sst | fldl | fstl => simp [indexOrRangeFault]
  | _ => nofun

theorem faultCause_illegalOperand (i : Instr) (s : State) :
    faultCause i s = some .illegalOperand ↔ i.wellFormed = false := by
  unfold faultCause
  split
  case isTrue h => exact iff_of_true rfl h
  case isFalse h => exact iff_of_false (indexOrRangeFault_ne_illegalOperand i s) h

/-- A cause other than ILLEGAL_OPERAND is that of a well-formed instruction's index or address (R282). -/
theorem faultCause_of_ne {c : Cause} (hc : c ≠ .illegalOperand) (i : Instr) (s : State) :
    faultCause i s = some c ↔ i.wellFormed = true ∧ indexOrRangeFault i s = some c := by
  unfold faultCause
  split
  case isTrue h => simp [h, hc.symm]
  case isFalse h => simp [h]

/-- Settles O10: an instruction faults exactly as its checks say, of which the operand check is the first; the operand
check is the table of R114, with the bounds of the groups solved for the base register. -/
theorem eachInstructionFaultsExactlyWhenTheTablesSay : Obligations.EachInstructionFaultsExactlyWhenTheTablesSay := by
  refine ⟨fun i s hb => ⟨?illegalOperand, ?indexRange, ?dmemRange⟩, ?table, ?others⟩
  case illegalOperand => exact (exec_faultsAs hb _).trans (faultCause_illegalOperand i s)
  case indexRange =>
    rw [exec_faultsAs hb, faultCause_of_ne (by decide), indexOrRangeFault_indexRange]
    rfl
  case dmemRange =>
    rw [exec_faultsAs hb, faultCause_of_ne (by decide), indexOrRangeFault_dmemRange]
    rfl
  case table =>
    intro fd fa fb r r' sa dd c n addr
    refine ⟨?sld, ?sst, ?clamp, ?recode, ?cswap, ?cswapf, ?tblsel, ?edinit, ?edadd, ?eddbl, ?ladstep, ?edfbmul, ?monfb,
      ?monvb, ?keygen, ?shsec⟩ <;> rw [wellFormed_eq_false_iff, operandsIllegal]
    case cswap | cswapf => exact swapIllegal_iff_abs fa fb n
    case tblsel | edinit | edadd | eddbl | ladstep | edfbmul | monfb | monvb => omega
  case others =>
    exact fun _ _ _ _ _ _ => ⟨rfl, rfl, rfl, rfl, rfl, rfl, rfl, rfl, rfl, rfl, rfl, rfl, rfl, rfl, rfl, rfl, rfl, rfl,
      rfl, rfl⟩

end Sys2Proof.Machine
end

section
/-! PROOFS. The sequencer (spec/40_control.md R140 to R146) and the two ends of a run (spec/70_reset_and_hazards.md R325).
A branch is one jump whose target depends on the counter; a step of a running engine is one of three: an instruction's write
with the run going on, the HALT, or a fault entry. -/

namespace Sys2Proof.Machine

section

variable {s t : State}

/-! ## How a run goes on or ends -/

/-- The engine still runs, and no flag of an end is up. -/
def RunGoesOn (t : State) : Prop := t.busy = true ∧ t.done = false ∧ t.fault = false ∧ t.abortReq = false

/-- The run ended at the HALT that `s` fetched (R141, R325). -/
def RunEndsDone (s t : State) : Prop :=
  t.busy = false ∧ t.done = true ∧ t.fault = false ∧ t.cause = .none ∧ t.abortReq = false ∧
    decode s.fetched = .ok .halt ∧ t.pc.toNat = s.pc.toNat + 1 ∧ t.pc.toNat ≤ s.params.imemWords

/-- The run ended in a fault at the instruction `s` was about to run (R284, R325). -/
def RunEndsFaulted (s t : State) : Prop :=
  t.busy = false ∧ t.done = false ∧ t.fault = true ∧ t.cause ≠ .none ∧ t.pc = t.faultPc ∧ t.pc = s.pc ∧
    t.abortReq = false

/-- A write of an instruction and the PC update after it leave the flags as they are. -/
theorem Inv.runGoesOn_write (h : Inv s) (hb : s.busy = true) (ha : s.abortReq = false) (hw : Writes s t) (pc : Half) :
    RunGoesOn (t.jump pc) := by
  have hc := hw.control
  obtain ⟨hdone, hfault, -⟩ := h.running hb
  exact ⟨hc.busy.trans hb, hc.done.trans hdone, hc.fault.trans hfault, hc.abortReq.trans ha⟩

theorem Inv.runEndsFaulted (h : Inv s) (hb : s.busy = true) {c : Cause} (hc : c ≠ .none) (w : Word) :
    RunEndsFaulted s (s.faultEntry c w) := ⟨rfl, (h.running hb).1, rfl, hc, rfl, rfl, rfl⟩

/-- IMEM has at most 2^12 words, so the PC after a fetched instruction does not wrap. -/
theorem pc_add_one_toNat (hP : s.params.Legal) (hp : s.pc.toNat < s.params.imemWords) :
    (s.pc + 1).toNat = s.pc.toNat + 1 :=
  BitVec.toNat_add_of_lt (((Nat.succ_le_of_lt hp).trans (imemWords_le hP)).trans_lt (by decide))

/-- HALT finds CAUSE 0, since CAUSE is 0 while a run goes on (log entry 11). -/
theorem Inv.runEndsDone (h : Inv s) (hb : s.busy = true) (hp : s.pc.toNat < s.params.imemWords)
    (hd : decode s.fetched = .ok .halt) :
    RunEndsDone s { s.advance with done := true, busy := false, abortReq := false } := by
  obtain ⟨-, hfault, hcause, -⟩ := h.running hb
  have hpc := pc_add_one_toNat h.params hp
  exact ⟨rfl, rfl, hfault, hcause, rfl, hd, hpc, hpc.trans_le hp⟩

theorem Inv.exec_end {i : Instr} (h : Inv s) (hb : s.busy = true) (ha : s.abortReq = false)
    (hp : s.pc.toNat < s.params.imemWords) (hd : decode s.fetched = .ok i) :
    ∃ t, exec i s = .next t ∧ (RunGoesOn t ∨ RunEndsDone s t ∨ RunEndsFaulted s t) := by
  obtain ⟨c, hc, e⟩ | ⟨rfl, e⟩ | ⟨-, t, pc, hw, e⟩ := exec_cases i s
  · have hne : c ≠ .none := by rintro rfl; simp [InstructionCause] at hc
    exact ⟨_, e, .inr (.inr (h.runEndsFaulted hb hne _))⟩
  · exact ⟨_, e, .inr (.inl (h.runEndsDone hb hp hd))⟩
  · exact ⟨_, e, .inl (h.runGoesOn_write hb ha hw pc)⟩

end

/-- Settles O57: an abort, a fetch out of range and an illegal word enter a fault; a decoded instruction enters one, halts,
or makes its write. -/
theorem aRunEndsDoneOrFaulted : Obligations.ARunEndsDoneOrFaulted := by
  intro s h hb
  have faulted {c : Cause} {w : Word} (hc : c ≠ .none) := h.runEndsFaulted hb hc w
  obtain ⟨hidle, -⟩ | ⟨-, -, e⟩ | ⟨-, -, -, e⟩ | ⟨-, -, -, _, -, e⟩ | ⟨-, ha, hp, i, hd, e⟩ := engineStep_cases s
  · simp [hb] at hidle
  · exact ⟨_, e, .inr (.inr (faulted (by decide)))⟩
  · exact ⟨_, e, .inr (.inr (faulted (by decide)))⟩
  · exact ⟨_, e, .inr (.inr (faulted (by decide)))⟩
  · rw [e]
    exact h.exec_end hb ha hp hd

/-! ## The sequencer's instructions -/

section

variable (s : State)

/-- A counter read back after a write of it: C0 stays 0 (R34). -/
theorem State.creg_setC_same (r : CReg) (v : Half) : (s.setC r v).creg r = if r = 0 then 0 else v := by
  rw [State.creg_setC, if_pos rfl]

theorem exec_bnez (ca : CReg) (tgt : Half) :
    exec (.bnez ca tgt) s = .next (s.jump (if s.creg ca ≠ 0 then tgt else s.pc + 1)) := by
  show execBnez ca tgt s = _
  unfold execBnez
  split <;> rfl

theorem exec_dbnz (ca : CReg) (tgt : Half) :
    exec (.dbnz ca tgt) s =
      .next ((s.setC ca (s.creg ca - 1)).jump (if s.creg ca - 1 ≠ 0 then tgt else s.pc + 1)) := by
  show execDbnz ca tgt s = _
  rw [← State.setC_pc s ca (s.creg ca - 1)]
  unfold execDbnz
  simp only
  split <;> rfl

/-- The sum of a counter and a signed immediate is taken modulo 2^16 (R146). -/
theorem addSigned_toNat (v simm : Half) : ((addSigned v simm).toNat : Int) = (v.toNat + simm.toInt) % 65536 := by
  rw [addSigned, BitVec.toNat_ofInt]
  exact Int.toNat_of_nonneg (Int.emod_nonneg _ (by decide))

end

/-- Settles O12: each instruction is one jump, and the PC is in no frame. -/
theorem nopJmpAndBnezSetOnlyThePc : Obligations.NopJmpAndBnezSetOnlyThePc := by
  intro s ca tgt
  have unchanged := Frame.refl {} s
  refine ⟨⟨s.advance, rfl, ?_, unchanged.advance⟩, ⟨s.jump tgt, rfl, rfl, unchanged.jump _⟩,
    ⟨_, exec_bnez s ca tgt, rfl, unchanged.jump _⟩, s.creg_zero⟩
  exact BitVec.toNat_add s.pc 1

/-- Settles O13: HALT raises its flags and advances the PC. -/
theorem haltEndsTheRunWithDone : Obligations.HaltEndsTheRunWithDone := fun _ =>
  ⟨_, rfl, rfl, rfl, rfl, rfl, (Frame.refl {} _).advance⟩

/-- Settles O14: on C0 the decremented value is 0xFFFF, so the branch is taken. -/
theorem dbnzDecrementsAndBranches : Obligations.DbnzDecrementsAndBranches := by
  intro s ca tgt
  refine ⟨_, s.creg ca - 1, ?value, exec_dbnz s ca tgt, s.creg_setC_same ca _, rfl, ?c0, (frame_setC s ca _).jump _⟩
  case value => bv_omega
  case c0 =>
    rintro rfl
    have hwrap : s.creg 0 - 1 ≠ 0 := by rw [s.creg_zero]; decide
    rw [State.jump_pc, if_pos hwrap]

/-- Settles O15: each instruction is one counter write and the PC's advance; only the value written differs. -/
theorem csetiSetsAndCaddiAddsToACounter : Obligations.CsetiSetsAndCaddiAddsToACounter := by
  intro s cd imm
  have written (v : Half) : (s.setC cd v).advance.pc = s.pc + 1 ∧ Frame { cregs := [cd] } s (s.setC cd v).advance :=
    ⟨by simp, (frame_setC s cd v).advance⟩
  refine ⟨⟨_, rfl, s.creg_setC_same cd imm, written imm⟩, ⟨_, rfl, ?_, written _⟩⟩
  have hread : (s.setC cd (addSigned (s.creg cd) imm)).advance.creg cd = _ := s.creg_setC_same cd _
  rw [hread]
  split
  · rfl
  · exact addSigned_toNat _ imm

end Sys2Proof.Machine
end

section
/-! PROOFS. Loads and stores (spec/41_load_store.md R167): a store that puts back the words a load took out changes no byte
of DMEM. -/

namespace Sys2Proof.Machine

open Sys2Proof.Config

section

variable {s : State} {ea : Nat}

/-! ## Storing what memory holds -/

/-- A store whose own block reads as before changes no byte. -/
theorem byteAt_storeWords_of_block {ws : List Word} {n : Nat} (hlen : ws.length = n)
    (hblock : ∀ i < n, (s.storeWords ea ws).wordAt .dmem (ea + i) = s.wordAt .dmem (ea + i)) (a : Nat) :
    (s.storeWords ea ws).byteAt .dmem a = s.byteAt .dmem a := by
  refine byteAt_eq_of_wordAt_eq (fun x => ?_) a
  by_cases hx : ea ≤ x ∧ x < ea + n
  · obtain ⟨i, rfl⟩ := Nat.exists_eq_add_of_le hx.1
    exact hblock i (by omega)
  · rw [State.wordAt_storeWords, dif_neg (by rwa [hlen])]

/-- Storing the 256-bit values that the block holds changes no byte (R79). -/
theorem byteAt_storeWords_words256_of_load256 {k : Lanes Scalar} (hk : ∀ l, (k.get l).toNat = s.load256 ea l) (a : Nat) :
    (s.storeWords ea (words256 k)).byteAt .dmem a = s.byteAt .dmem a := by
  refine byteAt_storeWords_of_block (length_words256 k) (fun i hi => ?_) a
  obtain ⟨j, l, hj, rfl⟩ : ∃ (j : Nat) (l : Lane), j < 8 ∧ i = 4 * j + l.val :=
    ⟨i / 4, ⟨i % 4, Nat.mod_lt i (by decide)⟩, by omega, (Nat.div_add_mod i 4).symm⟩
  rw [← Nat.add_assoc]
  apply BitVec.eq_of_toNat_eq
  rw [wordAt_storeWords_words256_toNat s ea k l hj, hk, wordAt_toNat_of_load256 s ea l hj]

/-- Storing the raw limbs that the block holds changes no byte (R80). -/
theorem byteAt_storeWords_wordsLimbs_of_loadLimb {x : Lanes Limbs}
    (hx : ∀ (l : Lane) (i : Fin 9), (x.get l).get i = s.loadLimb ea l i.val) (a : Nat) :
    (s.storeWords ea (wordsLimbs x)).byteAt .dmem a = s.byteAt .dmem a := by
  refine byteAt_storeWords_of_block (length_wordsLimbs x) (fun n hn => ?_) a
  obtain ⟨i, l, hword⟩ : ∃ (i : Fin 9) (l : Lane), n = 2 * (4 * i.val + l.val) ∨ n = 2 * (4 * i.val + l.val) + 1 :=
    ⟨⟨n / 8, by omega⟩, ⟨n / 2 % 4, Nat.mod_lt _ (by decide)⟩, by simp only; omega⟩
  obtain ⟨hlow, hhigh⟩ := wordAt_storeWords_wordsLimbs_toNat s ea x l i
  rw [hx, loadLimb_toNat] at hlow hhigh
  have hlt := (s.wordAt .dmem (ea + 2 * (4 * i.val + l.val))).isLt
  apply BitVec.eq_of_toNat_eq
  obtain rfl | rfl := hword
  · rw [hlow]
    omega
  · rw [← Nat.add_assoc, hhigh]
    omega

/-! ## What FLD leaves for FST -/

/-- Clearing bit 255 keeps a value below p. -/
theorem maskMsb_of_lt_p (s : State) {k : Nat} (hk : k < p) : s.maskMsb k = k := by
  rw [maskMsb_eq]
  split
  · exact Nat.mod_eq_of_lt (Nat.lt_trans hk p_lt)
  · rfl

/-- A register whose lane holds the unreduced limbs of `k` stands for k mod p (R10). -/
theorem fieldAt_of_limbs {r : FReg} {l : Lane} {k : Nat} (h : (s.freg r).get l = limbs k) (hk : k < 2 ^ 256) :
    s.fieldAt r l = k % p := by
  rw [State.fieldAt, h, val_limbs hk]

/-- The scalar that FST stores for a lane after FLD (R160, R161). -/
theorem scalar_stored_after_fld (s : State) (f : FReg) (ea : Nat) (l : Lane) :
    (scalarOf ((s.setF f (forEachLane fun l => limbs (s.maskMsb (s.load256 ea l)))).advance.fieldAt f l)).toNat =
      s.maskMsb (s.load256 ea l) % p := by
  rw [scalarOf_fieldAt_toNat]
  exact fieldAt_of_limbs (by simp) (maskMsb_lt s (load256_lt s ea l))

end

/-- Settles O20: the load leaves DMEM and the EA as they are, so the store meets the block the load read; FST puts back the
value read with bit 255 masked and mod p, which is the value read where that is below p. -/
theorem loadThenStoreRoundTrips : Obligations.LoadThenStoreRoundTrips := by
  intro s r f ca addr
  refine ⟨fun hr h => ?sld, fun h => ?fldl, fun h => ?fld⟩
  case sld =>
    refine ⟨_, _, exec_sld hr h, exec_sst hr h, fun a => (State.advance_byteAt ..).trans ?_⟩
    refine byteAt_storeWords_words256_of_load256 (fun l => ?_) a
    rw [State.advance_sreg, State.sreg_setS, if_pos rfl, forEachLane_get]
    exact scalarOf_toNat (load256_lt s _ l)
  case fldl =>
    refine ⟨_, _, exec_fldl h, exec_fstl h, fun a => (State.advance_byteAt ..).trans ?_⟩
    refine byteAt_storeWords_wordsLimbs_of_loadLimb (fun l i => ?_) a
    rw [State.advance_freg, State.freg_setF_same, forEachLane_get, vector_get_ofFn]
    rfl
  case fld =>
    refine ⟨_, _, exec_fld h, exec_fst h, fun l => ?value, fun hp a => (State.advance_byteAt ..).trans ?bytes⟩
    case value =>
      intro k
      have hk : k = s.load256 (s.effectiveAddress ca addr) l := laneValue_eq s _ l
      rw [laneValue_eq, ← maskMsb_eq, hk, ← scalar_stored_after_fld s f]
      refine (load256_storeWords_words256 _ _ _ l).trans ?_
      rw [forEachLane_get]
    case bytes =>
      refine byteAt_storeWords_words256_of_load256 (fun l => ?_) a
      have hlt : s.load256 (s.effectiveAddress ca addr) l < p := laneValue_eq s _ l ▸ hp l
      rw [forEachLane_get, scalar_stored_after_fld, maskMsb_of_lt_p s hlt, Nat.mod_eq_of_lt hlt]
      rfl

end Sys2Proof.Machine
end

section
/-! PROOFS. Field arithmetic (spec/42_field.md): what each field instruction writes (R180 to R189), that its results are
normalized (R190, R191), and the algebraic laws (R192), which are laws of the ring of integers mod p. -/

namespace Sys2Proof.Machine

open Sys2Proof.Config

/-! ## Canonical limbs of a number and of an inverse -/

/-- Canonical limbs decide congruence mod p (R191). -/
theorem canon_eq_iff {a b : Int} : canon a = canon b ↔ a % (p : Int) = b % (p : Int) :=
  ⟨fun h => by rw [← val_canon_cast, h, val_canon_cast], canon_congr⟩

theorem canon_natCast_eq_iff {a b : Nat} : canon (a : Int) = canon (b : Int) ↔ a % p = b % p := by
  rw [canon_eq_iff]
  norm_cast

theorem val_canon_of_lt {n : Nat} (h : n < p) : val (canon (n : Int)) = n := by rw [val_canon, redc_of_lt h]

theorem imm17_lt_p (imm : Imm17) : imm.toNat < p := Nat.lt_trans imm.isLt (by decide +kernel)

/-- The inverse depends on the residue only (R188). -/
theorem gfInv_mod (a : Nat) : gfInv (a % p) = gfInv a := by rw [gfInv_eq, gfInv_eq, ← Nat.pow_mod]

theorem gfInv_cast (a : Nat) : (gfInv a : Int) = (a : Int) ^ (p - 2) % (p : Int) := by
  rw [gfInv_eq, Int.natCast_mod, Nat.cast_pow]

/-! ## The integer each instruction computes -/

section

variable (s : State) (fd fa fb : FReg) (imm : Imm17)

theorem exec_fadd : exec (.fadd fd fa fb) s = fieldOp fd (fun l => s.intAt fa l + s.intAt fb l) s := rfl
theorem exec_fsub : exec (.fsub fd fa fb) s = fieldOp fd (fun l => s.intAt fa l - s.intAt fb l) s := rfl
theorem exec_fmul : exec (.fmul fd fa fb) s = fieldOp fd (fun l => s.intAt fa l * s.intAt fb l) s := rfl
theorem exec_fsqr : exec (.fsqr fd fa) s = fieldOp fd (fun l => s.intAt fa l * s.intAt fa l) s := rfl
theorem exec_fmulc : exec (.fmulc fd fa imm) s = fieldOp fd (fun l => s.intAt fa l * (imm.toNat : Int)) s := rfl
theorem exec_fnorm : exec (.fnorm fd fa) s = fieldOp fd (fun l => s.intAt fa l) s := rfl
theorem exec_finv : exec (.finv fd fa) s = fieldOp fd (fun l => (gfInv (s.fieldAt fa l) : Int)) s := rfl
theorem exec_fseti : exec (.fseti fd imm) s = fieldOp fd (fun _ => (imm.toNat : Int)) s := rfl
theorem exec_fmov : exec (.fmov fd fa) s = retire (s.setF fd (s.freg fa)) := rfl

end

/-! ## Any instruction that follows the common rule (R180) -/

section

variable {i : Instr} {s : State} {fd : FReg} {r v : Lane → Int}

/-- The result holds, mod p, any integer congruent to the one computed. -/
theorem exec_fieldOp_holdsModP (h : exec i s = fieldOp fd r s) (hv : ∀ l, r l % (p : Int) = v l % (p : Int)) :
    ∃ t, exec i s = .next t ∧ t.pc = s.pc + 1 ∧ Frame { fregs := [fd] } s t ∧ ∀ l, t.HoldsModP fd l (v l) := by
  obtain ⟨t, ht, hpc, hframe, hfd⟩ := exec_fieldOp h
  exact ⟨t, ht, hpc, hframe, fun l => holdsModP_of_canon (hfd l) (hv l)⟩

/-- FNORM of the result is the result (R190, R191). -/
theorem exec_fieldOp_fnorm (h : exec i s = fieldOp fd r s) (hv : ∀ l, r l % (p : Int) = v l % (p : Int)) (fn : FReg) :
    ∃ t u, exec i s = .next t ∧ exec (.fnorm fn fd) t = .next u ∧ ∀ l,
      (u.freg fn).get l = canon (v l) ∧ (u.freg fn).get l = (t.freg fd).get l := by
  obtain ⟨t, ht, -, -, hfd⟩ := exec_fieldOp h
  obtain ⟨u, hu, -, -, hfn⟩ := exec_fieldOp (exec_fnorm t fn fd)
  have hsame (l : Lane) : (u.freg fn).get l = canon (r l) := by rw [hfn, State.intAt, hfd, canon_val_canon]
  exact ⟨t, u, ht, hu, fun l => ⟨(hsame l).trans (canon_congr (hv l)), (hsame l).trans (hfd l).symm⟩⟩

theorem freg_after_fieldOp (h : exec i s = fieldOp fd r s) (q : FReg) :
    (s.after i).freg q = if q = fd then forEachLane fun l => canon (r l) else s.freg q := by
  rw [after_retire h, State.advance_freg, State.freg_setF]

/-- The result register stands for the integer computed, and every other register for what it stood for. -/
theorem intAt_after_fieldOp (h : exec i s = fieldOp fd r s) (q : FReg) (l : Lane) :
    ((s.after i).intAt q l : ZMod p) = if q = fd then (r l : ZMod p) else (s.intAt q l : ZMod p) := by
  unfold State.intAt
  rw [freg_after_fieldOp h]
  split
  · rw [forEachLane_get, Int.cast_natCast, val_canon_zmod]
  · rfl

/-- Two results are equal, limb for limb, when they stand for the same values mod p. -/
theorem freg_after_eq_of_intAt {i' : Instr} {s' : State} {fd' : FReg} {r' : Lane → Int} (h : exec i s = fieldOp fd r s)
    (h' : exec i' s' = fieldOp fd' r' s')
    (heq : ∀ l, ((s.after i).intAt fd l : ZMod p) = ((s'.after i').intAt fd' l : ZMod p)) :
    (s.after i).freg fd = (s'.after i').freg fd' := by
  rw [freg_after_fieldOp h, freg_after_fieldOp h', if_pos rfl, if_pos rfl]
  refine vector_ext_get fun l => ?_
  have hl := heq l
  rw [intAt_after_fieldOp h, intAt_after_fieldOp h', if_pos rfl, if_pos rfl] at hl
  rw [forEachLane_get, forEachLane_get, canon_eq_of_zmod_eq hl]

end

/-! ## What a register stands for after one instruction -/

section

variable (s : State) (fd fa fb q : FReg) (imm : Imm17) (l : Lane)

@[simp] theorem intAt_after_fadd : ((s.after (.fadd fd fa fb)).intAt q l : ZMod p) =
    if q = fd then (s.intAt fa l + s.intAt fb l : ZMod p) else (s.intAt q l : ZMod p) := by
  rw [intAt_after_fieldOp (exec_fadd ..), Int.cast_add]

@[simp] theorem intAt_after_fsub : ((s.after (.fsub fd fa fb)).intAt q l : ZMod p) =
    if q = fd then (s.intAt fa l - s.intAt fb l : ZMod p) else (s.intAt q l : ZMod p) := by
  rw [intAt_after_fieldOp (exec_fsub ..), Int.cast_sub]

@[simp] theorem intAt_after_fmul : ((s.after (.fmul fd fa fb)).intAt q l : ZMod p) =
    if q = fd then (s.intAt fa l * s.intAt fb l : ZMod p) else (s.intAt q l : ZMod p) := by
  rw [intAt_after_fieldOp (exec_fmul ..), Int.cast_mul]

@[simp] theorem intAt_after_fmulc : ((s.after (.fmulc fd fa imm)).intAt q l : ZMod p) =
    if q = fd then (s.intAt fa l * imm.toNat : ZMod p) else (s.intAt q l : ZMod p) := by
  rw [intAt_after_fieldOp (exec_fmulc ..), Int.cast_mul, Int.cast_natCast]

@[simp] theorem intAt_after_fnorm : ((s.after (.fnorm fd fa)).intAt q l : ZMod p) =
    if q = fd then (s.intAt fa l : ZMod p) else (s.intAt q l : ZMod p) := intAt_after_fieldOp (exec_fnorm ..) q l

@[simp] theorem intAt_after_fseti : ((s.after (.fseti fd imm)).intAt q l : ZMod p) =
    if q = fd then (imm.toNat : ZMod p) else (s.intAt q l : ZMod p) := by
  rw [intAt_after_fieldOp (exec_fseti ..), Int.cast_natCast]

end

/-! ## The statements -/

/-- Settles O22: each instruction follows the common rule, with the exact integer of its lane. -/
theorem fieldArithmeticIsExactModP : Obligations.FieldArithmeticIsExactModP := fun s fd fa fb imm =>
  ⟨exec_fieldOp_holdsModP (exec_fadd s fd fa fb) fun _ => rfl,
    exec_fieldOp_holdsModP (exec_fsub s fd fa fb) fun _ => rfl,
    exec_fieldOp_holdsModP (exec_fmul s fd fa fb) fun _ => rfl,
    exec_fieldOp_holdsModP (exec_fsqr s fd fa) fun l => by rw [State.intAt, ← sq],
    exec_fieldOp_holdsModP (exec_fmulc s fd fa imm) fun _ => rfl⟩

/-- Settles O23: FNORM and FSETI follow the common rule, where a 17-bit constant is below p; FMOV writes the register it
reads. -/
theorem fnormFsetiAndFmovWriteTheirRegister : Obligations.FnormFsetiAndFmovWriteTheirRegister := by
  intro s fd fa imm
  refine ⟨exec_fieldOp_holdsModP (exec_fnorm s fd fa) fun _ => rfl, ?fseti, ?fmov⟩
  case fseti =>
    obtain ⟨t, ht, hpc, hframe, hfd⟩ := exec_fieldOp (exec_fseti s fd imm)
    exact ⟨t, ht, hpc, hframe, fun l =>
      ⟨holdsModP_of_canon (hfd l) rfl, by rw [hfd, val_canon_of_lt (imm17_lt_p imm)]⟩⟩
  case fmov =>
    exact ⟨_, exec_fmov s fd fa, State.advance_pc _, (frame_setF s fd _).advance, fun l i => by
      rw [State.advance_freg, State.freg_setF_same]⟩

/-- Settles O24: FINV writes `gfInv` of the source's value, below p already: its power p - 2, and its inverse because p is
prime. -/
theorem finvInvertsAndMapsZeroToZero : Obligations.FinvInvertsAndMapsZeroToZero := by
  intro s fd fa
  obtain ⟨t, ht, hpc, hframe, hfd⟩ := exec_fieldOp (exec_finv s fd fa)
  refine ⟨t, ht, hpc, hframe, fun l => ?_⟩
  have hcanon : (t.freg fd).get l = canon (gfInv (val ((s.freg fa).get l)) : Int) := by
    rw [hfd, State.fieldAt, gfInv_mod]
  have hval : val ((t.freg fd).get l) = gfInv (val ((s.freg fa).get l)) := by rw [hcanon, val_canon_of_lt (gfInv_lt _)]
  rw [hval]
  exact ⟨holdsModP_of_canon hcanon (by rw [gfInv_cast, Int.emod_emod]), mul_gfInv, gfInv_of_zero⟩

/-- Settles O25: the result is already canonical, and the operands' residues give a congruent integer. -/
theorem fieldResultsAreAlreadyNormalized : Obligations.FieldResultsAreAlreadyNormalized := fun s fd fa fb fn =>
  ⟨exec_fieldOp_fnorm (exec_fadd s fd fa fb) (fun _ => Int.add_emod ..) fn,
    exec_fieldOp_fnorm (exec_fmul s fd fa fb) (fun _ => Int.mul_emod ..) fn,
    exec_fieldOp_fnorm (exec_fsub s fd fa fb) (fun _ => Int.sub_emod ..) fn⟩

/-- Settles O26: FNORM's result is canonical, and canonical limbs decide congruence mod p. -/
theorem normalizationIsIdempotentAndDecidesEquality : Obligations.NormalizationIsIdempotentAndDecidesEquality := by
  intro s fd fe fa fb
  constructor
  · obtain ⟨t, u, ht, hu, hlanes⟩ := exec_fieldOp_fnorm (exec_fnorm s fd fa) (fun _ => rfl) fe
    exact ⟨t, u, ht, hu, vector_ext_get fun l => (hlanes l).2⟩
  · obtain ⟨t, ht, -, -, hfd⟩ := exec_fieldOp (exec_fnorm s fd fa)
    obtain ⟨u, hu, -, -, hfe⟩ := exec_fieldOp (exec_fnorm s fe fb)
    exact ⟨t, u, ht, hu, fun l => by rw [hfd, hfe, State.intAt, State.intAt, canon_natCast_eq_iff]⟩

/-- Settles O27: both programs end with a field instruction on the same register, so it is enough that they compute the same
value mod p, which is a law of the ring. -/
theorem fieldInstructionsObeyTheAlgebraicLaws : Obligations.FieldInstructionsObeyTheAlgebraicLaws := by
  intro s d a b c x y z k hxa hxc hya hyc hza hzb hzy
  refine ⟨?add_comm, ?mul_comm, ?add_assoc, ?mul_assoc, ?mul_add, ?add_zero, ?mul_one, ?sub, ?mulc⟩
  case add_comm => exact freg_after_eq_of_intAt (exec_fadd ..) (exec_fadd ..) fun l => by simp [add_comm]
  case mul_comm => exact freg_after_eq_of_intAt (exec_fmul ..) (exec_fmul ..) fun l => by simp [mul_comm]
  case add_assoc =>
    exact freg_after_eq_of_intAt (exec_fadd ..) (exec_fadd ..) fun l => by simp [hxc.symm, hya.symm, add_assoc]
  case mul_assoc =>
    exact freg_after_eq_of_intAt (exec_fmul ..) (exec_fmul ..) fun l => by simp [hxc.symm, hya.symm, mul_assoc]
  case mul_add =>
    exact freg_after_eq_of_intAt (exec_fmul ..) (exec_fadd ..) fun l => by
      simp [hxa.symm, hya.symm, hyc.symm, hzy.symm, mul_add]
  case add_zero => exact freg_after_eq_of_intAt (exec_fadd ..) (exec_fnorm ..) fun l => by simp [hxa.symm]
  case mul_one => exact freg_after_eq_of_intAt (exec_fmul ..) (exec_fnorm ..) fun l => by simp [hxa.symm]
  case sub =>
    exact freg_after_eq_of_intAt (exec_fsub ..) (exec_fadd ..) fun l => by
      simp [hxa.symm, hza.symm, hzb.symm, sub_eq_add_neg]
  case mulc => exact freg_after_eq_of_intAt (exec_fmulc ..) (exec_fmul ..) fun l => by simp [hxa.symm]

end Sys2Proof.Machine
end

section
/-! PROOFS. The table lookup (spec/43_table_lookup.md): the triple that TBLSEL writes (R211, R213), and TBLSEL then EDADD as
one step of a comb pass (spec/44_edwards.md R233, R234). -/

namespace Sys2Proof.Machine
open Sys2Proof.Config

/-! ## The selected triple -/

/-- Sel in closed form: the entry |v| - 1 of the window or the neutral, negated for v < 0 (R211, R213). -/
theorem sel_eq (T : BaseTable) (w : Fin 32) (v : Int) : sel T w v =
    let e := if h : 1 ≤ v.natAbs ∧ v.natAbs ≤ 8 then tableRead T w ⟨v.natAbs - 1, by omega⟩ else duifNeutral
    if v < 0 then duifNeg e else e := by
  rw [sel, scan_eq]

/-- TBLSEL in range: each register of the group holds, in every lane, one coordinate of Sel in canonical limbs (R211). -/
theorem exec_tblsel_group (s : State) {fd : FReg} (dd : DReg) {cc : CReg} (hf : fd.toNat ≤ 29)
    (hc : (s.creg cc).toNat < 64) :
    ∃ t, exec (.tblsel fd dd cc) s = .next t ∧ t.pc = s.pc + 1 ∧ Frame { fregs := groupList fd 3 } s t ∧
      ∀ l, let e := sel s.params.table ⟨(s.creg cc).toNat / 2, by omega⟩ (((s.dreg dd).get l).get ⟨(s.creg cc).toNat, hc⟩)
        (t.freg fd).get l = canon e.yp ∧ (t.freg (groupReg fd 1)).get l = canon e.ym ∧
        (t.freg (groupReg fd 2)).get l = canon e.t2 := by
  let e : Lanes Duif := forEachLane fun l =>
    sel s.params.table (windowOf (s.creg cc).toNat) (digitAt ((s.dreg dd).get l) (s.creg cc).toNat)
  have hexec : exec (.tblsel fd dd cc) s =
      retire (s.setGroup fd [e.map fun t => canon t.yp, e.map fun t => canon t.ym, e.map fun t => canon t.t2]) :=
    (if_neg (by omega)).trans (if_neg (by omega))
  obtain ⟨t, ht, hpc, hframe, hmem⟩ := exec_group hexec (by simp only [List.length_cons, List.length_nil]; omega)
  refine ⟨t, ht, hpc, hframe, fun l => ?_⟩
  have h0 := hmem 0 (by simp)
  have h1 := hmem 1 (by simp)
  have h2 := hmem 2 (by simp)
  rw [groupReg_zero] at h0
  rw [h0, h1, h2]
  simp [e, windowOf_eq hc, digitAt_eq _ hc]

/-- Settles O33: the registers hold Sel's coordinates, and Sel is the triple the statement writes out. -/
theorem tblselWritesTheSelectedTriple : Obligations.TblselWritesTheSelectedTriple := by
  intro s fd dd cc hf hc
  obtain ⟨t, ht, hpc, hframe, hlanes⟩ := exec_tblsel_group s dd hf (Nat.lt_succ_of_le hc)
  refine ⟨t, ht, hpc, hframe, fun l => ?_⟩
  obtain ⟨hyp, hym, ht2⟩ := hlanes l
  intro v e
  have hsel : sel s.params.table ⟨(s.creg cc).toNat / 2, by omega⟩ v = if v < 0 then duifNeg e else e := sel_eq ..
  rw [hsel] at hyp hym ht2
  by_cases hv : v < 0
  · simp only [if_pos hv, duifNeg] at hyp hym ht2 ⊢
    exact ⟨holdsModP_of_canon hyp rfl, holdsModP_of_canon hym rfl,
      holdsModP_of_canon ht2 (by rw [gfNeg_cast, Int.emod_emod])⟩
  · simp only [if_neg hv] at hyp hym ht2 ⊢
    exact ⟨holdsModP_of_canon hyp rfl, holdsModP_of_canon hym rfl, holdsModP_of_canon ht2 rfl⟩

/-! ## One comb step -/

/-- EDADD in range: its group holds the canonical limbs of EdAdd (R224). -/
theorem exec_edadd_group (s : State) {fd fa fb : FReg} (hd : fd.toNat ≤ 27) (ha : fa.toNat ≤ 27) (hb : fb.toNat ≤ 29) :
    ∃ t, exec (.edadd fd fa fb) s = .next t ∧ t.pc = s.pc + 1 ∧ Frame { fregs := groupList fd 5 } s t ∧
      ∀ l, let P := edAdd (s.extAt fa l) (s.duifAt fb l)
        (t.freg fd).get l = canon P.X ∧ (t.freg (groupReg fd 1)).get l = canon P.Y ∧
        (t.freg (groupReg fd 2)).get l = canon P.Z ∧ (t.freg (groupReg fd 3)).get l = canon P.E ∧
        (t.freg (groupReg fd 4)).get l = canon P.H := by
  have hexec : exec (.edadd fd fa fb) s =
      retire (s.setGroup fd (extLimbs (forEachLane fun l => edAdd (s.extAt fa l) (s.duifAt fb l)))) :=
    if_neg (by omega)
  obtain ⟨t, ht, hpc, hframe, hmem⟩ := exec_group hexec (by simp only [extLimbs, List.length_cons, List.length_nil]; omega)
  refine ⟨t, ht, hpc, hframe, fun l => ?_⟩
  have hlane := extLimbs_members hmem l
  rwa [forEachLane_get] at hlane

/-- EdAdd reads its table point mod p only. -/
theorem edAdd_mod (P : ExtPoint) (Q : Duif) : edAdd P ⟨Q.yp % p, Q.ym % p, Q.t2 % p⟩ = edAdd P Q := by
  simp only [edAdd, gfMul, Nat.mul_mod_mod]

/-- The coordinates of EdAdd are reduced. -/
theorem edAdd_mod_self (P : ExtPoint) (Q : Duif) :
    (⟨(edAdd P Q).X % p, (edAdd P Q).Y % p, (edAdd P Q).Z % p, (edAdd P Q).E % p, (edAdd P Q).H % p⟩ : ExtPoint) =
      edAdd P Q := by
  simp only [edAdd, Nat.mod_eq_of_lt (gfMul_lt _ _), Nat.mod_eq_of_lt (gfSub_lt _ _), Nat.mod_eq_of_lt (gfAdd_lt _ _)]

/-- Settles O41: TBLSEL leaves the accumulator's group as it is, and EDADD adds the point TBLSEL wrote. -/
theorem tblselThenEdaddIsOneCombStep : Obligations.TblselThenEdaddIsOneCombStep := by
  intro s fa fd dd cc ha hf hapart hc
  obtain ⟨t, ht, -, htframe, htlanes⟩ := exec_tblsel_group s dd hf (Nat.lt_succ_of_le hc)
  obtain ⟨u, hu, -, -, hulanes⟩ := exec_edadd_group t ha ha hf
  refine ⟨t, u, ht, hu, fun l => ?_⟩
  obtain ⟨hyp, hym, ht2⟩ := htlanes l
  obtain ⟨hX, hY, hZ, hE, hH⟩ := hulanes l
  have hacc : t.extAt fa l = s.extAt fa l := by
    have hkeep : ∀ c < 5, t.fieldAt (groupReg fa c) l = s.fieldAt (groupReg fa c) l := fun c hc => by
      rw [State.fieldAt, State.fieldAt, htframe.outside.fregs _ fun h => hapart _ h (mem_groupList.2 ⟨c, hc, rfl⟩)]
    have h0 := hkeep 0 (by decide)
    rw [groupReg_zero] at h0
    rw [State.extAt, State.extAt, h0, hkeep 1 (by decide), hkeep 2 (by decide), hkeep 3 (by decide), hkeep 4 (by decide)]
  rw [State.extAt, fieldAt_of_canon hX, fieldAt_of_canon hY, fieldAt_of_canon hZ, fieldAt_of_canon hE,
    fieldAt_of_canon hH, edAdd_mod_self, hacc, State.duifAt, fieldAt_of_canon hyp, fieldAt_of_canon hym,
    fieldAt_of_canon ht2, edAdd_mod]

end Sys2Proof.Machine
end

section
/-! PROOFS. The curve's group law in the field: the curve is closed under it, and EdAdd and EdDbl compute it in projective
coordinates (spec/44_edwards.md R220 to R227). -/

namespace Sys2Proof.Machine

open Sys2Proof.Config

/-! ## Points of the curve in the field -/

theorem AffinePoint.onCurve_iff {P : AffinePoint} :
    P.OnCurve ↔ (P.y * P.y - P.x * P.x : ZMod p) = 1 + edwardsD * P.x * P.x * P.y * P.y := by
  rw [AffinePoint.OnCurve, emod_p_iff]
  push_cast
  rfl

theorem ExtPoint.consistent_iff {P : ExtPoint} : P.Consistent ↔ (P.E * P.H * P.Z : ZMod p) = P.X * P.Y := by
  rw [ExtPoint.Consistent, emod_p_iff]
  push_cast
  rfl

/-- P holds A exactly when, in the field, its X and Y are the coordinates of A scaled by its Z, which is not 0. -/
theorem ExtPoint.holds_iff {P : ExtPoint} {A : AffinePoint} :
    P.Holds A ↔ (P.Z : ZMod p) ≠ 0 ∧ (P.X : ZMod p) = A.x * P.Z ∧ (P.Y : ZMod p) = A.y * P.Z ∧
      (P.E * P.H * P.Z : ZMod p) = P.X * P.Y := by
  rw [← mod_p_ne_zero_iff, ← ExtPoint.consistent_iff]
  have hcoord : ∀ a b c : Nat, (a : Int) % p = ((b : Int) * c) % p ↔ (a : ZMod p) = b * c := fun a b c => by
    rw [emod_p_iff]
    push_cast
    rfl
  rw [← hcoord, ← hcoord]
  exact ⟨fun ⟨hz, hx, hy, ht⟩ => ⟨hz, hx, hy, ht⟩, fun ⟨hz, hx, hy, ht⟩ => ⟨hz, hx, hy, ht⟩⟩

/-- The two equations of the affine sum of points of the curve, with k = d·x1·x2·y1·y2. -/
theorem AffinePoint.OnCurve.add_eqs {A B : AffinePoint} (hA : A.OnCurve) (hB : B.OnCurve) :
    ∃ k : ZMod p, k = edwardsD * (A.x * B.x * A.y * B.y) ∧ 1 + k ≠ 0 ∧ 1 - k ≠ 0 ∧
      ((A.add B).x : ZMod p) * (1 + k) = A.x * B.y + B.x * A.y ∧
      ((A.add B).y : ZMod p) * (1 - k) = A.y * B.y + B.x * A.x := by
  obtain ⟨h1, h2⟩ := curve_complete (AffinePoint.onCurve_iff.1 hA) (AffinePoint.onCurve_iff.1 hB)
  obtain ⟨hx, hy⟩ := AffinePoint.add_zmod A B h1 h2
  exact ⟨_, rfl, h1, h2, hx, hy⟩

/-- The curve is closed under its group law: with both denominators cleared, the curve equation of the sum is a combination
of those of the two points. -/
theorem AffinePoint.OnCurve.add {A B : AffinePoint} (hA : A.OnCurve) (hB : B.OnCurve) : (A.add B).OnCurve := by
  have : Fact (Nat.Prime p) := ⟨p_prime⟩
  obtain ⟨k, hk, h1, h2, hx, hy⟩ := hA.add_eqs hB
  rw [AffinePoint.onCurve_iff] at hA hB ⊢
  generalize ((A.add B).x : ZMod p) = x3, ((A.add B).y : ZMod p) = y3, (A.x : ZMod p) = x1, (A.y : ZMod p) = y1,
    (B.x : ZMod p) = x2, (B.y : ZMod p) = y2, (edwardsD : ZMod p) = d at *
  have hcleared : ((y1 * y2 + x2 * x1) * (1 + k)) ^ 2 - ((x1 * y2 + x2 * y1) * (1 - k)) ^ 2 =
      ((1 + k) * (1 - k)) ^ 2 + d * (x1 * y2 + x2 * y1) ^ 2 * (y1 * y2 + x2 * x1) ^ 2 := by
    subst hk
    linear_combination
      ((1 + (d * (x1 * x2 * y1 * y2)) ^ 2) * (y2 ^ 2 - x2 ^ 2) -
        d * x2 ^ 2 * y2 ^ 2 * (y1 ^ 2 - x1 ^ 2 + 1 + d * x1 ^ 2 * y1 ^ 2)) * hA +
      ((1 + (d * (x1 * x2 * y1 * y2)) ^ 2) * (1 + d * x1 ^ 2 * y1 ^ 2) -
        d * x1 ^ 2 * y1 ^ 2 * (y2 ^ 2 - x2 ^ 2 + 1 + d * x2 ^ 2 * y2 ^ 2)) * hB
  rw [← hx, ← hy] at hcleared
  exact mul_left_cancel₀ (pow_ne_zero 2 (mul_ne_zero h1 h2)) (by linear_combination hcleared)

theorem two_zmod_ne_zero : (2 : ZMod p) ≠ 0 := by
  have h : ((2 : Nat) : ZMod p) ≠ 0 := mod_p_ne_zero_iff.1 (by decide +kernel)
  exact_mod_cast h

/-- The Duif form in the field (R210). -/
theorem AffinePoint.duif_zmod (B : AffinePoint) :
    2 * (B.duif.yp : ZMod p) = B.y + B.x ∧ 2 * (B.duif.ym : ZMod p) = B.y - B.x ∧
      (B.duif.t2 : ZMod p) = edwardsD * (B.x * B.y) := by
  have half : ((gfInv 2 : Nat) : ZMod p) * 2 = 1 := gfInv_mul_zmod (n := 2) (by exact_mod_cast two_zmod_ne_zero)
  simp only [AffinePoint.duif, gfMul_zmod, gfAdd_zmod, gfSub_zmod]
  exact ⟨by linear_combination (B.y + B.x : ZMod p) * half, by linear_combination (B.y - B.x : ZMod p) * half, trivial⟩

/-! ## The point formulas -/

/-- EdAdd computes the affine sum in projective coordinates (R223, R227). -/
theorem ExtPoint.Holds.edAdd_add {P : ExtPoint} {A B : AffinePoint} (h : P.Holds A) (hA : A.OnCurve) (hB : B.OnCurve) :
    (edAdd P B.duif).Holds (A.add B) := by
  have : Fact (Nat.Prime p) := ⟨p_prime⟩
  obtain ⟨k, hk, h1, h2, hx, hy⟩ := hA.add_eqs hB
  obtain ⟨hz, hX, hY, ht⟩ := ExtPoint.holds_iff.1 h
  obtain ⟨hyp, hym, ht2⟩ := B.duif_zmod
  -- T1 = E·H is x1·y1·Z, so C is k·Z
  have hT : (P.E * P.H : ZMod p) = A.x * A.y * P.Z := mul_right_cancel₀ hz (by rw [ht, hX, hY]; ring)
  have hE : ((edAdd P B.duif).E : ZMod p) = (A.x * B.y + B.x * A.y) * P.Z := by
    simp only [edAdd, gfSub_zmod, gfAdd_zmod, gfMul_zmod]
    refine mul_left_cancel₀ two_zmod_ne_zero ?_
    rw [hX, hY]
    linear_combination (A.y + A.x) * P.Z * hyp - (A.y - A.x) * P.Z * hym
  have hH : ((edAdd P B.duif).H : ZMod p) = (A.y * B.y + B.x * A.x) * P.Z := by
    simp only [edAdd, gfSub_zmod, gfAdd_zmod, gfMul_zmod]
    refine mul_left_cancel₀ two_zmod_ne_zero ?_
    rw [hX, hY]
    linear_combination (A.y + A.x) * P.Z * hyp + (A.y - A.x) * P.Z * hym
  have hC : ((gfMul (gfMul P.E P.H) B.duif.t2 : Nat) : ZMod p) = k * P.Z := by
    rw [gfMul_zmod, gfMul_zmod, hT, ht2, hk]
    ring
  have hZ : ((edAdd P B.duif).Z : ZMod p) = (1 - k) * (1 + k) * P.Z ^ 2 := by
    simp only [edAdd, gfSub_zmod, gfAdd_zmod, gfMul_zmod _ (gfAdd _ _), hC]
    ring
  have hX' : ((edAdd P B.duif).X : ZMod p) = (A.x * B.y + B.x * A.y) * (1 - k) * P.Z ^ 2 := by
    rw [edAdd_X, gfMul_zmod, gfSub_zmod, hC, hE]
    ring
  have hY' : ((edAdd P B.duif).Y : ZMod p) = (A.y * B.y + B.x * A.x) * (1 + k) * P.Z ^ 2 := by
    rw [edAdd_Y, gfMul_zmod, gfAdd_zmod, hC, hH]
    ring
  rw [ExtPoint.holds_iff, hE, hH, hZ, hX', hY']
  refine ⟨mul_ne_zero (mul_ne_zero h2 h1) (pow_ne_zero 2 hz), ?_, ?_, ?_⟩
  · linear_combination -(1 - k) * P.Z ^ 2 * hx
  · linear_combination -(1 + k) * P.Z ^ 2 * hy
  · ring

/-- EdDbl computes the affine double in projective coordinates (R225, R227). -/
theorem ExtPoint.Holds.edDbl_add {P : ExtPoint} {A : AffinePoint} (h : P.Holds A) (hA : A.OnCurve) :
    (edDbl P).Holds (A.add A) := by
  have : Fact (Nat.Prime p) := ⟨p_prime⟩
  obtain ⟨k, hk, h1, h2, hx, hy⟩ := hA.add_eqs hA
  obtain ⟨hz, hX, hY, -⟩ := ExtPoint.holds_iff.1 h
  have hcurve := AffinePoint.onCurve_iff.1 hA
  have hG : ((gfAdd (gfNeg (gfSqr P.X)) (gfSqr P.Y) : Nat) : ZMod p) = (1 + k) * P.Z ^ 2 := by
    rw [gfAdd_zmod, gfNeg_zmod, gfSqr_zmod, gfSqr_zmod, hX, hY, hk]
    linear_combination (P.Z : ZMod p) ^ 2 * hcurve
  have hF : ((gfSub (gfAdd (gfNeg (gfSqr P.X)) (gfSqr P.Y)) (gfMul 2 (gfSqr P.Z)) : Nat) : ZMod p) =
      -(1 - k) * P.Z ^ 2 := by
    rw [gfSub_zmod, hG, gfMul_zmod, gfSqr_zmod]
    push_cast
    ring
  have hE : ((edDbl P).E : ZMod p) = 2 * A.x * A.y * P.Z ^ 2 := by
    simp only [edDbl, gfSub_zmod, gfSqr_zmod, gfAdd_zmod, hX, hY]
    ring
  have hH : ((edDbl P).H : ZMod p) = -(A.x * A.x + A.y * A.y) * P.Z ^ 2 := by
    simp only [edDbl, gfSub_zmod, gfNeg_zmod, gfSqr_zmod, hX, hY]
    ring
  have hZ : ((edDbl P).Z : ZMod p) = -(1 - k) * (1 + k) * P.Z ^ 4 := by
    rw [edDbl, gfMul_zmod, hF, hG]
    ring
  have hX' : ((edDbl P).X : ZMod p) = -(2 * A.x * A.y) * (1 - k) * P.Z ^ 4 := by
    rw [edDbl_X, gfMul_zmod, hE, hF]
    ring
  have hY' : ((edDbl P).Y : ZMod p) = -(A.x * A.x + A.y * A.y) * (1 + k) * P.Z ^ 4 := by
    rw [edDbl_Y, gfMul_zmod, hG, hH]
    ring
  rw [ExtPoint.holds_iff, hE, hH, hZ, hX', hY']
  refine ⟨mul_ne_zero (mul_ne_zero (neg_ne_zero.2 h2) h1) (pow_ne_zero 4 hz), ?_, ?_, ?_⟩
  · linear_combination (1 - k) * P.Z ^ 4 * hx
  · linear_combination (1 + k) * P.Z ^ 4 * hy
  · ring

end Sys2Proof.Machine
end

section
/-! PROOFS. The default table (spec/43_table_lookup.md R210, R213, R214): its entries are the Duif forms of the multiples of
the base point. Each entry is checked against the entry it comes from by EdAdd or EdDbl, so that no inverse is computed. -/

namespace Sys2Proof.Machine

open Sys2Proof.Config

/-! ## Multiples of a point of the curve -/

theorem AffinePoint.OnCurve.doubled {A : AffinePoint} (hA : A.OnCurve) : ∀ n, (A.doubled n).OnCurve
  | 0 => hA
  | n + 1 => (hA.doubled n).add (hA.doubled n)

theorem AffinePoint.OnCurve.timesSucc {A : AffinePoint} (hA : A.OnCurve) : ∀ n, (A.timesSucc n).OnCurve
  | 0 => hA
  | n + 1 => (hA.timesSucc n).add hA

theorem basePoint_onCurve : basePoint.OnCurve := by decide +kernel

theorem tablePoint_onCurve (w j : Nat) : (tablePoint w j).OnCurve := (basePoint_onCurve.doubled (8 * w)).timesSucc j

theorem AffinePoint.doubled_add (A : AffinePoint) (m : Nat) : ∀ n, A.doubled (m + n) = (A.doubled m).doubled n
  | 0 => rfl
  | n + 1 => by rw [← Nat.add_assoc, AffinePoint.doubled, AffinePoint.doubled, AffinePoint.doubled_add A m n]

theorem AffinePoint.ext_holds (A : AffinePoint) : A.ext.Holds A := by
  rw [ExtPoint.holds_iff]
  have : Fact (Nat.Prime p) := ⟨p_prime⟩
  simp [AffinePoint.ext]

theorem ExtPoint.Holds.iterate_edDbl {P : ExtPoint} {A : AffinePoint} (h : P.Holds A) (hA : A.OnCurve) :
    ∀ n, (edDbl^[n] P).Holds (A.doubled n)
  | 0 => h
  | n + 1 => by
    rw [Function.iterate_succ_apply']
    exact (h.iterate_edDbl hA n).edDbl_add (hA.doubled n)

/-! ## The points of the table -/

/-- The affine point of a Duif form: x = yp - ym and y = yp + ym (R210). -/
def duifPoint (e : Duif) : AffinePoint := ⟨gfSub e.yp e.ym, gfAdd e.yp e.ym⟩

/-- The affine point of entry (w, j) of the default table. -/
def entryPoint (w : Fin 32) (j : Fin 8) : AffinePoint := duifPoint (tableRead defaultTable w j)

/-- An extended point that holds a sum and has the coordinates of a Duif form's point, scaled by Z: they are one point. -/
theorem ExtPoint.Holds.add_eq_duifPoint {P : ExtPoint} {A B : AffinePoint} {e : Duif} (h : P.Holds (A.add B))
    (hX : P.X = gfMul (duifPoint e).x P.Z) (hY : P.Y = gfMul (duifPoint e).y P.Z) : A.add B = duifPoint e := by
  have : Fact (Nat.Prime p) := ⟨p_prime⟩
  obtain ⟨hz, hPX, hPY, -⟩ := ExtPoint.holds_iff.1 h
  rw [hX, gfMul_zmod] at hPX
  rw [hY, gfMul_zmod] at hPY
  exact congrArg₂ AffinePoint.mk (eq_of_zmod_eq (gfMul_lt ..) (gfSub_lt ..) (mul_right_cancel₀ hz hPX.symm))
    (eq_of_zmod_eq (gfMul_lt ..) (gfAdd_lt ..) (mul_right_cancel₀ hz hPY.symm))

theorem entryPoint_zero_zero : entryPoint 0 0 = basePoint := by decide +kernel

theorem entryPoint_duif : ∀ w j, (entryPoint w j).duif = tableRead defaultTable w j := by decide +kernel

/-- Inside a window, EdAdd of an entry and the window's first entry gives the next entry. -/
theorem edAdd_entryPoint : ∀ (w : Fin 32) (j : Fin 7),
    let P := edAdd (entryPoint w j.castSucc).ext (tableRead defaultTable w 0)
    P.X = gfMul (entryPoint w j.succ).x P.Z ∧ P.Y = gfMul (entryPoint w j.succ).y P.Z := by decide +kernel

/-- Eight times EdDbl of a window's first entry gives the next window's first entry. -/
theorem iterate_edDbl_entryPoint : ∀ w : Fin 31,
    let P := edDbl^[8] (entryPoint w.castSucc 0).ext
    P.X = gfMul (entryPoint w.succ 0).x P.Z ∧ P.Y = gfMul (entryPoint w.succ 0).y P.Z := by decide +kernel

theorem doubled_basePoint_eq_entryPoint (w : Fin 32) : basePoint.doubled (8 * w) = entryPoint w 0 := by
  induction w using Fin.induction with
  | zero => exact entryPoint_zero_zero.symm
  | succ w ih =>
    rw [Fin.val_castSucc] at ih
    have hcurve : (entryPoint w.castSucc 0).OnCurve := ih ▸ basePoint_onCurve.doubled (8 * w)
    have hholds := (AffinePoint.ext_holds _).iterate_edDbl hcurve 8
    obtain ⟨hX, hY⟩ := iterate_edDbl_entryPoint w
    calc basePoint.doubled (8 * (w + 1)) = (basePoint.doubled (8 * w)).doubled 8 := AffinePoint.doubled_add ..
      _ = (entryPoint w.castSucc 0).doubled 8 := by rw [ih]
      _ = entryPoint w.succ 0 := hholds.add_eq_duifPoint hX hY

theorem tablePoint_eq_entryPoint (w : Fin 32) (j : Fin 8) : tablePoint w j = entryPoint w j := by
  have hwindow := doubled_basePoint_eq_entryPoint w
  induction j using Fin.induction with
  | zero => exact hwindow
  | succ j ih =>
    rw [Fin.val_castSucc] at ih
    have hcurve : (entryPoint w j.castSucc).OnCurve := ih ▸ tablePoint_onCurve w j
    have hfirst : (entryPoint w 0).OnCurve := hwindow ▸ tablePoint_onCurve w 0
    have hholds := (AffinePoint.ext_holds (entryPoint w j.castSucc)).edAdd_add hcurve hfirst
    rw [entryPoint_duif] at hholds
    obtain ⟨hX, hY⟩ := edAdd_entryPoint w j
    calc tablePoint w (j + 1) = (tablePoint w j).add (basePoint.doubled (8 * w)) := rfl
      _ = (entryPoint w j.castSucc).add (entryPoint w 0) := by rw [ih, hwindow]
      _ = entryPoint w j.succ := hholds.add_eq_duifPoint hX hY

/-! ## The neutral and the negated point -/

theorem duif_neutral : (⟨0, 1⟩ : AffinePoint).duif = duifNeutral := by decide +kernel

/-- Negating the x coordinate swaps y + x with y - x and negates d·x·y (R213). -/
theorem AffinePoint.duif_neg (P : AffinePoint) : (⟨gfNeg P.x, P.y⟩ : AffinePoint).duif = duifNeg P.duif := by
  have hsum : gfAdd P.y (gfNeg P.x) = gfSub P.y P.x :=
    eq_of_zmod_eq (gfAdd_lt ..) (gfSub_lt ..) (by rw [gfAdd_zmod, gfNeg_zmod, gfSub_zmod, sub_eq_add_neg])
  have hdiff : gfSub P.y (gfNeg P.x) = gfAdd P.y P.x :=
    eq_of_zmod_eq (gfSub_lt ..) (gfAdd_lt ..) (by rw [gfSub_zmod, gfNeg_zmod, gfAdd_zmod, sub_neg_eq_add])
  have hprod : gfMul edwardsD (gfMul (gfNeg P.x) P.y) = gfNeg (gfMul edwardsD (gfMul P.x P.y)) :=
    eq_of_zmod_eq (gfMul_lt ..) (gfNeg_lt _) (by simp only [gfMul_zmod, gfNeg_zmod, neg_mul, mul_neg])
  rw [AffinePoint.duif, hsum, hdiff, hprod]
  rfl

/-- Settles O34: each entry is the Duif form of its own point, which is the table's multiple of the base point. -/
theorem theDefaultTableHoldsTheMultiplesOfTheBasePoint :
    Obligations.TheDefaultTableHoldsTheMultiplesOfTheBasePoint :=
  ⟨fun w j => ⟨by rw [tablePoint_eq_entryPoint, entryPoint_duif]; rfl, tablePoint_onCurve w j⟩, duif_neutral,
    AffinePoint.duif_neg⟩

end Sys2Proof.Machine
end

section
/-! PROOFS. Scalar encoding (spec/44_edwards.md R228 to R232): the clamped scalar, the signed digits of the recoding and
their sum, and the two instructions that write them. -/

namespace Sys2Proof.Machine

/-! ## Clamping -/

/-- Every bit is forced or kept, so clamping twice is clamping once (R232). -/
theorem clamp_clamp (k : Scalar) : clamp (clamp k) = clamp k := by
  apply BitVec.eq_of_getLsbD_eq
  intro i hi
  rw [clamp_getLsbD _ hi, clamp_getLsbD _ hi]
  split
  · rfl
  · split <;> rfl

/-- Settles O28: the bits one by one, and the clamped scalar as a number. -/
theorem clampForcesTheNamedBits : Obligations.ClampForcesTheNamedBits := by
  intro k
  have hk := clamp_toNat k
  refine ⟨fun i hi => clamp_getLsbD k hi, ?_, ?_, ?_⟩ <;> omega

/-! ## Recoding -/

/-- The digits below `n`, each with its weight, and the carry into digit `n` make up the scalar's `n` low nibbles: the
carry out of a digit is what was taken off it. -/
theorem sum_digits_add_carryInto (k : Scalar) (n : Nat) :
    (∑ i ∈ Finset.range n, (nibble k i + carryInto k i - 16 * carryInto k (i + 1)) * 16 ^ i) + carryInto k n * 16 ^ n =
      ((k.toNat % 16 ^ n : Nat) : Int) := by
  induction n with
  | zero => simp [carryInto, Nat.mod_one]
  | succ n ih =>
    rw [Finset.sum_range_succ, Nat.mod_pow_succ, Nat.cast_add, ← ih, Nat.cast_mul, ← nibble_eq]
    push_cast
    ring

/-- The weighted sum of the digits is the scalar (R229). -/
theorem sum_recode (k : Scalar) : ∑ i : Fin 64, (recode k).get i * 16 ^ i.val = (k.toNat : Int) := by
  have hlow : ∑ i : Fin 63, (recode k).get i.castSucc * 16 ^ i.castSucc.val =
      ∑ i ∈ Finset.range 63, (nibble k i + carryInto k i - 16 * carryInto k (i + 1)) * 16 ^ i := by
    rw [← Fin.sum_univ_eq_sum_range]
    exact Finset.sum_congr rfl fun i _ => by rw [recode_get k i.castSucc i.isLt, Fin.val_castSucc]
  have hall : k.toNat % 16 ^ 64 = k.toNat := Nat.mod_eq_of_lt k.isLt
  calc ∑ i : Fin 64, (recode k).get i * 16 ^ i.val
      = (∑ i : Fin 63, (recode k).get i.castSucc * 16 ^ i.castSucc.val) + (recode k).get 63 * 16 ^ 63 :=
        Fin.sum_univ_castSucc _
    _ = ((k.toNat % 16 ^ 63 : Nat) : Int) + nibble k 63 * 16 ^ 63 := by
        rw [hlow, recode_get_last, ← sum_digits_add_carryInto]
        ring
    _ = ((k.toNat % 16 ^ 64 : Nat) : Int) := by
        rw [nibble_eq, Nat.mod_pow_succ (k := 63)]
        push_cast
        ring
    _ = k.toNat := by rw [hall]

/-- The digits before the last (R229). -/
theorem recode_get_range (k : Scalar) {i : Fin 64} (hi : i.val ≤ 62) : -8 ≤ (recode k).get i ∧ (recode k).get i ≤ 7 := by
  rw [recode_get k i (by omega), carryInto_succ]
  omega

/-- The last digit: the scalar's top nibble or one more (R229). -/
theorem recode_get_last_range (k : Scalar) :
    (k.toNat / 16 ^ 63 : Nat) ≤ (recode k).get 63 ∧ (recode k).get 63 ≤ (k.toNat / 16 ^ 63 : Nat) + 1 := by
  have hcarry := carryInto_range k 63
  have htop : k.toNat / 16 ^ 63 % 16 = k.toNat / 16 ^ 63 := Nat.mod_eq_of_lt (by have := k.isLt; omega)
  rw [recode_get_last, nibble_eq, htop]
  omega

/-- Settles O29: the digits are the nibbles with their carries, whose sum telescopes. -/
theorem recodingKeepsTheValue : Obligations.RecodingKeepsTheValue := by
  intro k
  have htop := recode_get_last_range k
  have hk := k.isLt
  refine ⟨⟨carryInto k, rfl, fun i => ?_⟩, sum_recode k, fun i => recode_get_range k, by omega, by omega⟩
  rw [← nibble_eq]
  refine ⟨fun hi => ⟨rfl, recode_get k i hi⟩, fun hi => ?_⟩
  obtain rfl : i = 63 := Fin.ext hi
  exact recode_get_last k

/-- Settles O30: a clamped scalar has a top nibble from 4 to 7 and a bottom nibble of 0 or 8. -/
theorem clampedScalarsRecodeToSmallDigits : Obligations.ClampedScalarsRecodeToSmallDigits := by
  intro k
  have hk := clamp_toNat k
  have htop := recode_get_last_range (clamp k)
  have hlow : ∀ i : Fin 64, i.val ≤ 62 → -8 ≤ (recode (clamp k)).get i ∧ (recode (clamp k)).get i ≤ 7 :=
    fun i => recode_get_range (clamp k)
  refine ⟨clamp_clamp k, fun i => ?_, fun i hi => (hlow i hi).2, by omega, ?_⟩
  · by_cases hi : i.val ≤ 62
    · have := hlow i hi
      omega
    · obtain rfl : i = 63 := Fin.ext (by omega)
      omega
  · have hbottom : nibble (clamp k) 0 = 0 ∨ nibble (clamp k) 0 = 8 := by
      rw [nibble_eq]
      omega
    have hcarry : carryInto (clamp k) 0 = 0 := rfl
    rw [recode_get _ 0 (by decide), carryInto_succ]
    simp only [Fin.val_zero]
    omega

/-! ## CLAMP and RECODE -/

section

variable (s : State) {rd ra : RField} (hd : rd.toNat ≤ 3) (ha : ra.toNat ≤ 3)

include hd ha

theorem exec_clamp : exec (.clamp rd ra) s = retire (s.setS (regOfField rd) ((s.sreg (regOfField ra)).map clamp)) :=
  if_neg (by omega)

theorem exec_recode : exec (.recode rd ra) s = retire (s.setD (regOfField rd) ((s.sreg (regOfField ra)).map recode)) :=
  if_neg (by omega)

end

/-- Settles O31: with legal fields each is one register write, of the values read before it. -/
theorem clampAndRecodeWriteTheirRegister : Obligations.ClampAndRecodeWriteTheirRegister := by
  intro s rd ra hd ha
  refine ⟨⟨_, exec_clamp s hd ha, rfl, (frame_setS s _ _).advance, fun l => ?_⟩,
    ⟨_, exec_recode s hd ha, rfl, (frame_setD s _ _).advance, fun l => ?_⟩⟩
  · rw [State.advance_sreg, State.sreg_setS, if_pos rfl, vector_get_map]
  · rw [State.advance_dreg, State.dreg_setD, if_pos rfl, vector_get_map]

end Sys2Proof.Machine
end

section
/-! PROOFS. Edwards points (spec/44_edwards.md R220 to R227): what EDINIT, EDADD and EDDBL write, and the laws of the two
point formulas. Each law is an identity between the formulas' coordinates in the field. -/

namespace Sys2Proof.Machine

open Sys2Proof.Config

/-! ## The formulas in the field -/

theorem edAdd_zmod (P : ExtPoint) (Q : Duif) :
    let A : ZMod p := (P.Y - P.X) * Q.ym
    let B : ZMod p := (P.Y + P.X) * Q.yp
    let C : ZMod p := P.E * P.H * Q.t2
    ((edAdd P Q).X : ZMod p) = (B - A) * (P.Z - C) ∧ ((edAdd P Q).Y : ZMod p) = (P.Z + C) * (B + A) ∧
      ((edAdd P Q).Z : ZMod p) = (P.Z - C) * (P.Z + C) ∧ ((edAdd P Q).E : ZMod p) = B - A ∧
      ((edAdd P Q).H : ZMod p) = B + A := by
  simp only [edAdd, gfMul_zmod, gfAdd_zmod, gfSub_zmod, and_self]

theorem edDbl_zmod (P : ExtPoint) :
    let E : ZMod p := (P.X + P.Y) ^ 2 - P.X ^ 2 - P.Y ^ 2
    let G : ZMod p := -P.X ^ 2 + P.Y ^ 2
    let F : ZMod p := G - 2 * P.Z ^ 2
    let H : ZMod p := -P.X ^ 2 - P.Y ^ 2
    ((edDbl P).X : ZMod p) = E * F ∧ ((edDbl P).Y : ZMod p) = G * H ∧ ((edDbl P).Z : ZMod p) = F * G ∧
      ((edDbl P).E : ZMod p) = E ∧ ((edDbl P).H : ZMod p) = H := by
  simp only [edDbl, gfMul_zmod, gfAdd_zmod, gfSub_zmod, gfNeg_zmod, gfSqr_zmod, ← sq, Nat.cast_ofNat, and_self]

/-! ## Point instructions -/

theorem fieldAt_zmod_intAt (s : State) (r : FReg) (l : Lane) : (s.fieldAt r l : ZMod p) = (s.intAt r l : ZMod p) := by
  rw [fieldAt_zmod, State.intAt, Int.cast_natCast]

/-- Canonical limbs hold any integer that they equal in the field. -/
theorem holdsModP_of_zmod {t : State} {r : FReg} {l : Lane} {v w : Int} (h : (t.freg r).get l = canon w)
    (hv : (w : ZMod p) = (v : ZMod p)) : t.HoldsModP r l v := holdsModP_of_canon h ((emod_p_iff w v).2 hv)

/-- An instruction that writes a point group: its members hold the point's coordinates (R220). -/
theorem exec_extLimbs {i : Instr} {s : State} {fd : FReg} {f : Lane → ExtPoint}
    (h : exec i s = retire (s.setGroup fd (extLimbs (forEachLane f)))) (hd : fd.toNat ≤ 27) :
    ∃ t, exec i s = .next t ∧ t.pc = s.pc + 1 ∧ Frame { fregs := groupList fd 5 } s t ∧
      ∀ l, (t.freg fd).get l = canon (f l).X ∧ (t.freg (groupReg fd 1)).get l = canon (f l).Y ∧
        (t.freg (groupReg fd 2)).get l = canon (f l).Z ∧ (t.freg (groupReg fd 3)).get l = canon (f l).E ∧
        (t.freg (groupReg fd 4)).get l = canon (f l).H := by
  obtain ⟨t, ht, hpc, hframe, hmem⟩ := exec_group h (by simp only [extLimbs, List.length_cons, List.length_nil]; omega)
  refine ⟨t, ht, hpc, hframe, fun l => ?_⟩
  have hlane := extLimbs_members hmem l
  rwa [forEachLane_get] at hlane

/-- Settles O35: the group holds the identity's coordinates. -/
theorem edinitWritesTheIdentity : Obligations.EdinitWritesTheIdentity := by
  intro s fd hd
  have hexec : exec (.edinit fd) s = retire (s.setGroup fd (extLimbs (forEachLane fun _ => identityPoint))) :=
    if_neg (by omega)
  obtain ⟨t, ht, hpc, hframe, hlanes⟩ := exec_extLimbs hexec hd
  refine ⟨t, ht, hpc, hframe, fun l => ?_⟩
  obtain ⟨hX, hY, hZ, hE, hH⟩ := hlanes l
  exact ⟨holdsModP_of_canon hX rfl, holdsModP_of_canon hY rfl, holdsModP_of_canon hZ rfl, holdsModP_of_canon hE rfl,
    holdsModP_of_canon hH rfl⟩

/-- Settles O36: the group holds EdAdd of the values mod p, which in the field is the formula of the integers themselves. -/
theorem edaddAddsATablePoint : Obligations.EdaddAddsATablePoint := by
  intro s fd fa fb hd ha hb
  obtain ⟨t, ht, hpc, hframe, hlanes⟩ := exec_edadd_group s hd ha hb
  refine ⟨t, ht, hpc, hframe, fun l => ?_⟩
  obtain ⟨hX, hY, hZ, hE, hH⟩ := hlanes l
  obtain ⟨eX, eY, eZ, eE, eH⟩ := edAdd_zmod (s.extAt fa l) (s.duifAt fb l)
  simp only [State.extAt, State.duifAt, fieldAt_zmod_intAt] at eX eY eZ eE eH
  refine ⟨holdsModP_of_zmod hX ?_, holdsModP_of_zmod hY ?_, holdsModP_of_zmod hZ ?_, holdsModP_of_zmod hE ?_,
    holdsModP_of_zmod hH ?_⟩ <;> push_cast <;> assumption

/-- Settles O37: the group holds EdDbl of the values mod p, which in the field is the formula of the integers themselves. -/
theorem eddblDoublesAPoint : Obligations.EddblDoublesAPoint := by
  intro s fd fa hd ha
  have hexec : exec (.eddbl fd fa) s = retire (s.setGroup fd (extLimbs (forEachLane fun l => edDbl (s.extAt fa l)))) :=
    if_neg (by omega)
  obtain ⟨t, ht, hpc, hframe, hlanes⟩ := exec_extLimbs hexec hd
  refine ⟨t, ht, hpc, hframe, fun l => ?_⟩
  obtain ⟨hX, hY, hZ, hE, hH⟩ := hlanes l
  obtain ⟨eX, eY, eZ, eE, eH⟩ := edDbl_zmod (s.extAt fa l)
  simp only [State.extAt, fieldAt_zmod_intAt] at eX eY eZ eE eH
  refine ⟨holdsModP_of_zmod hX ?_, holdsModP_of_zmod hY ?_, holdsModP_of_zmod hZ ?_, holdsModP_of_zmod hE ?_,
    holdsModP_of_zmod hH ?_⟩ <;> push_cast <;> assumption

/-! ## Equality of points -/

/-- All five coordinates are in [0, p). -/
structure ExtPoint.Reduced (P : ExtPoint) : Prop where
  X : P.X < p
  Y : P.Y < p
  Z : P.Z < p
  E : P.E < p
  H : P.H < p

theorem edAdd_reduced (P : ExtPoint) (Q : Duif) : (edAdd P Q).Reduced :=
  ⟨gfMul_lt .., gfMul_lt .., gfMul_lt .., gfSub_lt .., gfAdd_lt ..⟩

/-- Reduced points are equal when their coordinates are equal in the field. -/
theorem ExtPoint.Reduced.eq_of_zmod {P Q : ExtPoint} (hP : P.Reduced) (hQ : Q.Reduced) (hX : (P.X : ZMod p) = Q.X)
    (hY : (P.Y : ZMod p) = Q.Y) (hZ : (P.Z : ZMod p) = Q.Z) (hE : (P.E : ZMod p) = Q.E) (hH : (P.H : ZMod p) = Q.H) :
    P = Q := by
  cases P
  cases Q
  rw [ExtPoint.mk.injEq]
  exact ⟨eq_of_zmod_eq hP.X hQ.X hX, eq_of_zmod_eq hP.Y hQ.Y hY, eq_of_zmod_eq hP.Z hQ.Z hZ, eq_of_zmod_eq hP.E hQ.E hE,
    eq_of_zmod_eq hP.H hQ.H hH⟩

theorem ExtPoint.crossEqual_iff {P Q : ExtPoint} :
    P.CrossEqual Q ↔ (P.X * Q.Z : ZMod p) = Q.X * P.Z ∧ (P.Y * Q.Z : ZMod p) = Q.Y * P.Z := by
  rw [ExtPoint.CrossEqual, emod_p_iff, emod_p_iff]
  push_cast
  rfl

/-- Two points that hold one affine point are equal in affine terms (R221). -/
theorem ExtPoint.Holds.sameAffine {P Q : ExtPoint} {A : AffinePoint} (hP : P.Holds A) (hQ : Q.Holds A) : P.SameAffine Q := by
  obtain ⟨-, hPX, hPY, -⟩ := ExtPoint.holds_iff.1 hP
  obtain ⟨-, hQX, hQY, -⟩ := ExtPoint.holds_iff.1 hQ
  refine ⟨hP.z, hQ.z, ExtPoint.crossEqual_iff.2 ⟨?_, ?_⟩⟩
  · rw [hPX, hQX]
    ring
  · rw [hPY, hQY]
    ring

/-! ## The laws -/

theorem edAdd_consistent (P : ExtPoint) (Q : Duif) : (edAdd P Q).Consistent := by
  obtain ⟨hX, hY, hZ, hE, hH⟩ := edAdd_zmod P Q
  rw [ExtPoint.consistent_iff, hX, hY, hZ, hE, hH]
  ring

theorem edDbl_consistent (P : ExtPoint) : (edDbl P).Consistent := by
  obtain ⟨hX, hY, hZ, hE, hH⟩ := edDbl_zmod P
  rw [ExtPoint.consistent_iff, hX, hY, hZ, hE, hH]
  ring

/-- Commutativity: each of the products A, B and C is symmetric in the two points (R227). -/
theorem edAdd_ext_comm (P Q : AffinePoint) : edAdd P.ext Q.duif = edAdd Q.ext P.duif := by
  have hA : gfMul (gfSub P.y P.x) Q.duif.ym = gfMul (gfSub Q.y Q.x) P.duif.ym :=
    eq_of_zmod_eq (gfMul_lt ..) (gfMul_lt ..) (by simp only [AffinePoint.duif, gfMul_zmod, gfSub_zmod]; ring)
  have hB : gfMul (gfAdd P.y P.x) Q.duif.yp = gfMul (gfAdd Q.y Q.x) P.duif.yp :=
    eq_of_zmod_eq (gfMul_lt ..) (gfMul_lt ..) (by simp only [AffinePoint.duif, gfMul_zmod, gfAdd_zmod]; ring)
  have hC : gfMul (gfMul P.x P.y) Q.duif.t2 = gfMul (gfMul Q.x Q.y) P.duif.t2 :=
    eq_of_zmod_eq (gfMul_lt ..) (gfMul_lt ..) (by simp only [AffinePoint.duif, gfMul_zmod]; ring)
  simp only [edAdd, AffinePoint.ext, hA, hB, hC]

/-- Where Z ≡ 0 the coordinates X and Y are 0 too, and so are those of the double. -/
theorem edDbl_crossEqual_of_z_zero {P Q : ExtPoint} (hX : (P.X : ZMod p) = 0) (hY : (P.Y : ZMod p) = 0)
    (hZ : (P.Z : ZMod p) = 0) : (edDbl P).CrossEqual Q := by
  obtain ⟨eX, eY, eZ, -, -⟩ := edDbl_zmod P
  rw [ExtPoint.crossEqual_iff, eX, eY, eZ, hX, hY, hZ]
  constructor <;> ring

/-- Doubling agreement needs no Z ≢ 0 for the cross products alone (R227). -/
theorem edDbl_crossEqual_edAdd {P : ExtPoint} {A : AffinePoint} (hA : A.OnCurve) (ht : P.Consistent)
    (hX : (P.X : Int) % p = (A.x * P.Z : Int) % p) (hY : (P.Y : Int) % p = (A.y * P.Z : Int) % p) :
    (edDbl P).CrossEqual (edAdd P A.duif) := by
  by_cases hz : P.Z % p = 0
  · rw [emod_p_iff] at hX hY
    push_cast at hX hY
    have hZ : (P.Z : ZMod p) = 0 := not_not.1 fun h => mod_p_ne_zero_iff.2 h hz
    rw [hZ, mul_zero] at hX hY
    exact edDbl_crossEqual_of_z_zero hX hY hZ
  · have hP : P.Holds A := ⟨hz, hX, hY, ht⟩
    exact ((hP.edDbl_add hA).sameAffine (hP.edAdd_add hA hA)).2.2

/-- The neutral's coordinates: both halves, and 0 (R213). -/
theorem duifNeutral_zmod :
    2 * (duifNeutral.yp : ZMod p) = 1 ∧ (duifNeutral.ym : ZMod p) = duifNeutral.yp ∧ (duifNeutral.t2 : ZMod p) = 0 := by
  obtain ⟨hyp, -, ht2⟩ := (⟨0, 1⟩ : AffinePoint).duif_zmod
  rw [duif_neutral] at hyp ht2
  exact ⟨by simpa using hyp, rfl, by simpa using ht2⟩

/-- Adding the neutral scales the point by its Z (R224). -/
theorem edAdd_neutral_zmod (P : ExtPoint) : ((edAdd P duifNeutral).X : ZMod p) = P.X * P.Z ∧
    ((edAdd P duifNeutral).Y : ZMod p) = P.Y * P.Z ∧ ((edAdd P duifNeutral).Z : ZMod p) = P.Z * P.Z := by
  obtain ⟨hyp, hym, ht2⟩ := duifNeutral_zmod
  obtain ⟨hX, hY, hZ, -, -⟩ := edAdd_zmod P duifNeutral
  rw [hX, hY, hZ, hym, ht2]
  refine ⟨?_, ?_, by ring⟩
  · linear_combination (P.X * P.Z : ZMod p) * hyp
  · linear_combination (P.Y * P.Z : ZMod p) * hyp

theorem edAdd_neutral_crossEqual (P : ExtPoint) : (edAdd P duifNeutral).CrossEqual P := by
  obtain ⟨hX, hY, hZ⟩ := edAdd_neutral_zmod P
  rw [ExtPoint.crossEqual_iff, hX, hY, hZ]
  constructor <;> ring

theorem edAdd_neutral_sameAffine {P : ExtPoint} (hz : P.Z % p ≠ 0) : (edAdd P duifNeutral).SameAffine P := by
  have : Fact (Nat.Prime p) := ⟨p_prime⟩
  have hZ : ((edAdd P duifNeutral).Z : ZMod p) ≠ 0 := by
    rw [(edAdd_neutral_zmod P).2.2]
    exact mul_self_ne_zero.2 (mod_p_ne_zero_iff.1 hz)
  exact ⟨mod_p_ne_zero_iff.2 hZ, hz, edAdd_neutral_crossEqual P⟩

theorem AffinePoint.ext_reduced {A : AffinePoint} (hx : A.x < p) (hy : A.y < p) : A.ext.Reduced :=
  ⟨hx, hy, p_prime.one_lt, hx, hy⟩

/-- Adding to the identity gives the point itself, in the form (x, y, 1, x, y) (R227). -/
theorem edAdd_identityPoint {A : AffinePoint} (hx : A.x < p) (hy : A.y < p) : edAdd identityPoint A.duif = A.ext := by
  have : Fact (Nat.Prime p) := ⟨p_prime⟩
  obtain ⟨hyp, hym, -⟩ := A.duif_zmod
  have hdiff : (A.duif.yp - A.duif.ym : ZMod p) = A.x :=
    mul_left_cancel₀ two_zmod_ne_zero (by linear_combination hyp - hym)
  have hsum : (A.duif.yp + A.duif.ym : ZMod p) = A.y :=
    mul_left_cancel₀ two_zmod_ne_zero (by linear_combination hyp + hym)
  obtain ⟨hX, hY, hZ, hE, hH⟩ := edAdd_zmod identityPoint A.duif
  simp only [identityPoint, Nat.cast_zero, Nat.cast_one] at hX hY hZ hE hH
  refine (edAdd_reduced _ _).eq_of_zmod (A.ext_reduced hx hy) ?_ ?_ ?_ ?_ ?_ <;>
    simp only [identityPoint, AffinePoint.ext, Nat.cast_one]
  · linear_combination hX + hdiff
  · linear_combination hY + hsum
  · linear_combination hZ
  · linear_combination hE + hdiff
  · linear_combination hH + hsum

/-- Settles O38: completeness is that of the curve; from it both formulas hold the affine sum, and the laws are identities
of the coordinates in the field. -/
theorem edwardsAdditionAndDoublingObeyTheGroupLaws : Obligations.EdwardsAdditionAndDoublingObeyTheGroupLaws := by
  refine ⟨fun P Q => ⟨edAdd_consistent P Q, edDbl_consistent P⟩,
    fun P A B hA hB hP => ⟨hP.edAdd_add hA hB, hP.edDbl_add hA⟩, fun P Q => ⟨edAdd_ext_comm P Q, fun hP hQ => ?_⟩,
    fun P Q hQ hP => (hP.edDbl_add hQ).sameAffine (hP.edAdd_add hQ hQ), fun P Q => edDbl_crossEqual_edAdd,
    fun P => ⟨edAdd_neutral_crossEqual P, edAdd_neutral_sameAffine⟩, fun Q => edAdd_identityPoint⟩
  have hholds := P.ext_holds.edAdd_add hP hQ
  rw [← edAdd_ext_comm P Q]
  exact hholds.sameAffine hholds

end Sys2Proof.Machine
end

section
/-! PROOFS. The fixed-base comb (spec/44_edwards.md R233 to R235): the comb step by step, the entry that Sel names, and what
EDFBMUL, MONFB and KEYGEN write (spec/45_montgomery.md R260, R261, spec/46_key_exchange.md R270, R271). -/

namespace Sys2Proof.Machine

open Sys2Proof.Config

/-! ## The comb, step by step -/

section

variable (T : BaseTable) (e : Digits)

/-- Step `n` of the comb: 32 additions for the odd digits, four doublings, 32 additions for the even digits (R234). -/
def combStep (n : Nat) (P : ExtPoint) : ExtPoint :=
  if n < 32 then edAdd P (sel T (windowOf (2 * n + 1)) (digitAt e (2 * n + 1)))
  else if n < 36 then edDbl P
  else edAdd P (sel T (windowOf (2 * (n - 36))) (digitAt e (2 * (n - 36))))

/-- The accumulator after `n` steps of the comb. -/
def combAfter : Nat → ExtPoint
  | 0 => identityPoint
  | n + 1 => combStep T e n (combAfter n)

theorem combAfter_succ (n : Nat) : combAfter T e (n + 1) = combStep T e n (combAfter T e n) := rfl

theorem combAfter_odd {w : Nat} (hw : w < 32) : combAfter T e (w + 1) =
    edAdd (combAfter T e w) (sel T (windowOf (2 * w + 1)) (digitAt e (2 * w + 1))) := by
  rw [combAfter_succ, combStep, if_pos hw]

theorem combAfter_double {j : Nat} (hj : j < 4) : combAfter T e (32 + j + 1) = edDbl (combAfter T e (32 + j)) := by
  rw [combAfter_succ, combStep, if_neg (by omega), if_pos (by omega)]

theorem combAfter_even (w : Nat) : combAfter T e (36 + w + 1) =
    edAdd (combAfter T e (36 + w)) (sel T (windowOf (2 * w)) (digitAt e (2 * w))) := by
  rw [combAfter_succ, combStep, if_neg (by omega), if_neg (by omega), Nat.add_sub_cancel_left]

/-- A pass over the positions `f 0`, `f 1`, … ends where a sequence of accumulators does that adds their entries. -/
theorem combPass_eq (f : Nat → Nat) (Q : Nat → ExtPoint) (n : Nat)
    (hQ : ∀ w < n, Q (w + 1) = edAdd (Q w) (sel T (windowOf (f w)) (digitAt e (f w)))) :
    combPass T e ((List.range n).map f) (Q 0) = Q n := by
  induction n with
  | zero => rfl
  | succ n ih =>
    have hpass := ih fun w hw => hQ w (by omega)
    rw [combPass] at hpass ⊢
    rw [List.range_succ, List.map_append, List.foldl_append, hpass, hQ n (by omega)]
    rfl

theorem combPass_odd : combPass T e oddPositions identityPoint = combAfter T e 32 :=
  combPass_eq T e (fun w => 2 * w + 1) (combAfter T e) 32 fun _ hw => combAfter_odd T e hw

theorem edDbl_four_times_combAfter : edDbl (edDbl (edDbl (edDbl (combAfter T e 32)))) = combAfter T e 36 := by
  rw [combAfter_double T e (j := 3) (by decide), combAfter_double T e (j := 2) (by decide),
    combAfter_double T e (j := 1) (by decide), combAfter_double T e (j := 0) (by decide)]

theorem combPass_even : combPass T e evenPositions (combAfter T e 36) = combAfter T e 68 :=
  combPass_eq T e (fun w => 2 * w) (fun w => combAfter T e (36 + w)) 32 fun w _ => combAfter_even T e w

/-- The comb is its 68 steps on the clamped scalar's digits (R234). -/
theorem comb_eq_combAfter (k : Scalar) : comb T k = combAfter T (recode (clamp k)) 68 := by
  rw [comb, combPass_odd, edDbl_four_times_combAfter, combPass_even]

end

/-! ## The entry a digit names -/

/-- A digit of magnitude 1 to 8 selects its entry, negated for a negative digit (R233). -/
theorem sel_of_natAbs (T : BaseTable) (w : Fin 32) {v : Int} (j : Fin 8) (hv : v.natAbs = j.val + 1) :
    sel T w v = if v < 0 then duifNeg (tableRead T w j) else tableRead T w j := by
  have hj : (⟨v.natAbs - 1, by omega⟩ : Fin 8) = j := Fin.ext (by simp only; omega)
  rw [sel_eq, dif_pos (by omega), hj]

/-- Any other digit selects the neutral (R233). -/
theorem sel_neutral (T : BaseTable) (w : Fin 32) {v : Int} (hv : v = 0 ∨ 8 < v.natAbs) :
    sel T w v = if v < 0 then duifNeg duifNeutral else duifNeutral := by
  rw [sel_eq, dif_neg (by omega)]

/-- Settles O39: the accumulators are those after each step, and Sel is read off its closed form. -/
theorem theCombIsItsTwoPasses : Obligations.TheCombIsItsTwoPasses := by
  refine ⟨fun T k => ⟨combAfter T (recode (clamp k)), rfl, fun w => ?odd, fun j hj => ?double, fun w => ?even,
    comb_eq_combAfter T k⟩, fun T w v => ⟨sel_neutral T w, fun j => ⟨fun hv => ?pos, fun hv => ?neg⟩⟩⟩
  case odd =>
    have hwindow : windowOf (2 * w.val + 1) = w := (windowOf_eq (by omega)).trans (Fin.ext (by simp only; omega))
    rw [combAfter_odd T _ w.isLt, hwindow, digitAt_eq]
  case double =>
    rw [Nat.add_right_comm 32 1 j]
    exact combAfter_double T _ hj
  case even =>
    have hwindow : windowOf (2 * w.val) = w := (windowOf_eq (by omega)).trans (Fin.ext (by simp only; omega))
    rw [Nat.add_right_comm 36 1 w, combAfter_even, hwindow, digitAt_eq]
  case pos => rw [sel_of_natAbs T w j (by omega), if_neg (by omega)]
  case neg => rw [sel_of_natAbs T w j (by omega), if_pos (by omega)]

/-- The comb clamps its scalar itself (R234, R232). -/
theorem comb_clamp (T : BaseTable) (k : Scalar) : comb T (clamp k) = comb T k := by
  rw [comb, clamp_clamp, ← comb]

/-! ## The instructions that write the comb's point -/

theorem combLanes_get (s : State) (sb : RField) (l : Lane) :
    (s.combLanes sb).get l = comb s.params.table ((s.sreg (regOfField sb)).get l) := by
  rw [State.combLanes, vector_get_map]

/-- An instruction that writes two coordinates, or two combinations of them, of a point in each lane. -/
theorem exec_pair {i : Instr} {s : State} {fd : FReg} {P : Lanes ExtPoint} {x y : ExtPoint → Nat}
    (h : exec i s = retire (s.setGroup fd [P.map fun q => canon (x q), P.map fun q => canon (y q)])) (hd : fd.toNat ≤ 30) :
    ∃ t, exec i s = .next t ∧ t.pc = s.pc + 1 ∧ Frame { fregs := groupList fd 2 } s t ∧
      ∀ l, (t.freg fd).get l = canon (x (P.get l)) ∧ (t.freg (groupReg fd 1)).get l = canon (y (P.get l)) := by
  obtain ⟨t, ht, hpc, hframe, hmem⟩ := exec_group h (by simp only [List.length_cons, List.length_nil]; omega)
  refine ⟨t, ht, hpc, hframe, fun l => ?_⟩
  have h0 := hmem 0 (by simp)
  have h1 := hmem 1 (by simp)
  rw [groupReg_zero] at h0
  rw [h0, h1]
  exact ⟨vector_get_map _ P l, vector_get_map _ P l⟩

theorem montX_zmod (P : ExtPoint) : (montX P : ZMod p) = P.Z + P.Y := gfAdd_zmod ..

theorem montZ_zmod (P : ExtPoint) : (montZ P : ZMod p) = P.Z - P.Y := gfSub_zmod ..

theorem affine_zmod (X Z : Nat) : (affine X Z : ZMod p) = X * (Z : ZMod p) ^ (p - 2) := by
  rw [affine, gfMul_zmod, gfInv_zmod]

/-- KEYGEN follows the common rule of the field instructions, with the comb's quotient as its integer (R270). -/
theorem exec_keygen (s : State) (fd : FReg) {sb : RField} (hs : sb.toNat ≤ 3) : exec (.keygen fd sb) s =
    fieldOp fd (fun l => let P := (s.combLanes sb).get l; (affine (montX P) (montZ P) : Int)) s := by
  have hlanes : ((s.combLanes sb).map fun P => canon (affine (montX P) (montZ P))) =
      forEachLane fun l => canon (affine (montX ((s.combLanes sb).get l)) (montZ ((s.combLanes sb).get l))) :=
    vector_ext_get fun l => by rw [vector_get_map, forEachLane_get]
  have hexec : exec (.keygen fd sb) s =
      retire (s.setF fd ((s.combLanes sb).map fun P => canon (affine (montX P) (montZ P)))) := if_neg (by omega)
  rw [hexec, hlanes]
  rfl

/-- CLAMP in place leaves the comb of each lane as it is (R232, R271). -/
theorem combLanes_after_clamp (s : State) {sb : RField} (hs : sb.toNat ≤ 3) :
    (s.after (.clamp sb sb)).combLanes sb = s.combLanes sb := by
  refine vector_ext_get fun l => ?_
  rw [after_retire (exec_clamp s hs hs), combLanes_get, combLanes_get, State.advance_sreg, State.sreg_setS, if_pos rfl,
    vector_get_map]
  exact comb_clamp ..

/-- Settles O40: each instruction writes combinations of the comb's coordinates, which in the field are the integers the
statement names. -/
theorem edfbmulMonfbAndKeygenWriteTheCombsPoint : Obligations.EdfbmulMonfbAndKeygenWriteTheCombsPoint := by
  intro s fd sb hs
  refine ⟨fun hd => ?edfbmul, fun hd => ?monfb, ?keygen, ?clamped⟩
  case edfbmul =>
    have hexec : exec (.edfbmul fd sb) s = retire (s.setGroup fd
        [(s.combLanes sb).map fun q => canon q.Y, (s.combLanes sb).map fun q => canon q.Z]) := if_neg (by omega)
    obtain ⟨t, ht, hpc, hframe, hlanes⟩ := exec_pair hexec hd
    refine ⟨t, ht, hpc, hframe, fun l => ?_⟩
    obtain ⟨hY, hZ⟩ := hlanes l
    rw [combLanes_get] at hY hZ
    exact ⟨holdsModP_of_canon hY rfl, holdsModP_of_canon hZ rfl⟩
  case monfb =>
    have hexec : exec (.monfb fd sb) s = retire (s.setGroup fd
        [(s.combLanes sb).map fun q => canon (montX q), (s.combLanes sb).map fun q => canon (montZ q)]) :=
      if_neg (by omega)
    obtain ⟨t, ht, hpc, hframe, hlanes⟩ := exec_pair hexec hd
    refine ⟨t, ht, hpc, hframe, fun l => ?_⟩
    obtain ⟨hX, hZ⟩ := hlanes l
    rw [combLanes_get] at hX hZ
    refine ⟨holdsModP_of_zmod hX ?_, holdsModP_of_zmod hZ ?_⟩ <;> push_cast
    · exact montX_zmod _
    · exact montZ_zmod _
  case keygen =>
    refine exec_fieldOp_holdsModP (exec_keygen s fd hs) fun l => (emod_p_iff _ _).2 ?_
    rw [combLanes_get, Int.cast_natCast, affine_zmod, montX_zmod, montZ_zmod]
    push_cast
    rfl
  case clamped =>
    rw [freg_after_fieldOp (exec_keygen _ fd hs), freg_after_fieldOp (exec_keygen s fd hs),
      combLanes_after_clamp s hs, if_pos rfl, if_pos rfl]

end Sys2Proof.Machine
end

section
/-! PROOFS. The conditional swap and the Montgomery ladder (spec/45_montgomery.md R250 to R259, spec/46_key_exchange.md R271,
R272): what CSWAP, CSWAPF, LADSTEP, MONVB and SHSEC write, the ladder step by step, and the peers that give the shared
secret 0. Beside them, that no state stops the machine. -/

namespace Sys2Proof.Machine

open Sys2Proof.Config

/-! ## Every step answers a next state -/

theorem exec_answers_next (i : Instr) (s : State) : ∃ t, exec i s = .next t := by
  obtain ⟨_, _, h⟩ | ⟨_, h⟩ | ⟨_, _, _, _, h⟩ := exec_cases i s <;> exact ⟨_, h⟩

theorem engineStep_answers_next (s : State) : ∃ t, engineStep s = .next t := by
  obtain ⟨_, h⟩ | ⟨_, _, h⟩ | ⟨_, _, _, h⟩ | ⟨_, _, _, _, _, h⟩ | ⟨_, _, _, i, _, h⟩ := engineStep_cases s
  case inr.inr.inr.inr => rw [h]; exact exec_answers_next i s
  all_goals exact ⟨_, h⟩

/-- Settles O7: a host or reset turn answers its state, and the engine's turn enters a fault or executes an instruction. -/
theorem everyStepAnswersANextState : Obligations.EveryStepAnswersANextState := by
  intro s
  obtain ⟨_, h⟩ | ⟨_, _, h⟩ | ⟨_, _, _, _, h⟩ | ⟨_, _, _, _, _, h⟩ | ⟨_, _, h⟩ := step_cases s
  case inl | inr.inl => rw [h]; exact engineStep_answers_next _
  all_goals exact ⟨_, h⟩

/-! ## Conditional swap -/

/-- The two groups of a legal swap end at or before F31 and lie apart (R114). -/
theorem swap_groups_legal {fa fb : FReg} {n : BitVec 2} (h : (Instr.cswapf fa fb n).wellFormed = true) :
    fa.toNat + (n.toNat + 1) ≤ 32 ∧ fb.toNat + (n.toNat + 1) ≤ 32 ∧
      (fa.toNat + (n.toNat + 1) ≤ fb.toNat ∨ fb.toNat + (n.toNat + 1) ≤ fa.toNat) := by
  simp only [Instr.wellFormed, FReg.groupFits, FReg.groupsApart, Bool.and_eq_true, decide_eq_true_eq] at h
  omega

theorem not_swapIllegal {fa fb : FReg} {n : BitVec 2} (h : (Instr.cswapf fa fb n).wellFormed = true) :
    ¬ swapIllegal fa fb n := by
  rw [swapIllegal_iff, h]
  exact Bool.true_eq_false_eq_False

/-- An instruction that swaps two legal groups and writes SWP: the groups are exchanged in the lanes whose bit is 1 (R252). -/
theorem exec_swap {i : Instr} {s : State} {fa fb : FReg} {sw b : Lanes Bool} {n : BitVec 2}
    (h : exec i s = retire ((s.swapGroups fa fb sw (swapSize n)).setSwp b))
    (hn : (Instr.cswapf fa fb n).wellFormed = true) :
    ∃ t, exec i s = .next t ∧ t.pc = s.pc + 1 ∧
      Frame { fregs := groupList fa (n.toNat + 1) ++ groupList fb (n.toNat + 1), swp := true } s t ∧
      ∀ l, t.swp.get l = b.get l ∧ ∀ c < n.toNat + 1,
        (t.freg (groupReg fa c)).get l =
          (if sw.get l then (s.freg (groupReg fb c)).get l else (s.freg (groupReg fa c)).get l) ∧
        (t.freg (groupReg fb c)).get l =
          (if sw.get l then (s.freg (groupReg fa c)).get l else (s.freg (groupReg fb c)).get l) := by
  obtain ⟨ha, hb, hapart⟩ := swap_groups_legal hn
  refine ⟨_, h, ?_, (frame_swap s fa fb sw b _).advance, fun l => ⟨rfl, fun c hc => ?_⟩⟩
  · rw [State.advance_pc, State.setSwp_pc, State.swapGroups_pc]
  · obtain ⟨hca, hcb⟩ := State.freg_swapGroups_member s fa fb sw _ ha hb hapart c hc
    rw [← blend_get, ← blend_get, ← hca, ← hcb]
    exact ⟨rfl, rfl⟩

/-- CSWAP with legal groups, by the same check as CSWAPF, and a bit index in range (R254). -/
theorem exec_cswap (s : State) {fa fb : FReg} (sa : SReg) {cc : CReg} {n : BitVec 2}
    (hn : (Instr.cswapf fa fb n).wellFormed = true) (hc : (s.creg cc).toNat ≤ 255) :
    ∃ t, exec (.cswap fa fb sa cc n) s = .next t ∧ t.pc = s.pc + 1 ∧
      Frame { fregs := groupList fa (n.toNat + 1) ++ groupList fb (n.toNat + 1), swp := true } s t ∧
      ∀ l, let b := ((s.sreg sa).get l).getLsbD (s.creg cc).toNat
        t.swp.get l = b ∧ ∀ c < n.toNat + 1,
          (t.freg (groupReg fa c)).get l =
            (if s.swp.get l ^^ b then (s.freg (groupReg fb c)).get l else (s.freg (groupReg fa c)).get l) ∧
          (t.freg (groupReg fb c)).get l =
            (if s.swp.get l ^^ b then (s.freg (groupReg fa c)).get l else (s.freg (groupReg fb c)).get l) := by
  obtain ⟨t, ht, hpc, hframe, hlanes⟩ := exec_swap (i := .cswap fa fb sa cc n) (s := s)
    ((if_neg (not_swapIllegal hn)).trans (if_neg (Nat.not_lt.2 hc))) hn
  refine ⟨t, ht, hpc, hframe, fun l => ?_⟩
  have hlane := hlanes l
  simpa only [forEachLane_get] using hlane

/-- Settles O32: both instructions exchange by their bits, CSWAP's being SWP XOR the scalar bit. -/
theorem cswapAndCswapfExchangeTheirGroups : Obligations.CswapAndCswapfExchangeTheirGroups := by
  intro s fa fb sa cc n
  refine ⟨fun hn hc => exec_cswap s sa hn hc, fun hn => ?_⟩
  obtain ⟨t, ht, hpc, hframe, hlanes⟩ := exec_swap (i := .cswapf fa fb n) (if_neg (not_swapIllegal hn)) hn
  refine ⟨t, ht, hpc, hframe, fun l => ?_⟩
  have hlane := hlanes l
  rwa [forEachLane_get] at hlane

/-! ## The ladder step -/

/-- The ladder step in the field, as the formulas of R251. -/
theorem ladStep_zmod (x1 : Nat) (q : Ladder) :
    let A : ZMod p := q.x2 + q.z2
    let B : ZMod p := q.x2 - q.z2
    let C : ZMod p := q.x3 + q.z3
    let D : ZMod p := q.x3 - q.z3
    let E : ZMod p := A ^ 2 - B ^ 2
    ((ladStep x1 q).x2 : ZMod p) = A ^ 2 * B ^ 2 ∧ ((ladStep x1 q).z2 : ZMod p) = E * (A ^ 2 + 121665 * E) ∧
      ((ladStep x1 q).x3 : ZMod p) = (D * A + C * B) ^ 2 ∧ ((ladStep x1 q).z3 : ZMod p) = x1 * (D * A - C * B) ^ 2 := by
  simp only [ladStep, a24, gfMul_zmod, gfAdd_zmod, gfSub_zmod, gfSqr_zmod, ← sq, Nat.cast_ofNat, and_self]

/-- The values of the ladder step are reduced. -/
theorem ladStep_mod_self (x1 : Nat) (q : Ladder) :
    (⟨(ladStep x1 q).x2 % p, (ladStep x1 q).z2 % p, (ladStep x1 q).x3 % p, (ladStep x1 q).z3 % p⟩ : Ladder) =
      ladStep x1 q := by
  simp only [ladStep, gfSqr, Nat.mod_eq_of_lt (gfMul_lt _ _)]

/-- LADSTEP in range: its group holds the canonical limbs of LadStep (R250). -/
theorem exec_ladstep_group (s : State) {fd : FReg} (fa : FReg) (hd : fd.toNat ≤ 28) :
    ∃ t, exec (.ladstep fd fa) s = .next t ∧ t.pc = s.pc + 1 ∧ Frame { fregs := groupList fd 4 } s t ∧
      ∀ l, let q := ladStep (s.fieldAt fa l) (s.ladderAt fd l)
        (t.freg fd).get l = canon q.x2 ∧ (t.freg (groupReg fd 1)).get l = canon q.z2 ∧
        (t.freg (groupReg fd 2)).get l = canon q.x3 ∧ (t.freg (groupReg fd 3)).get l = canon q.z3 := by
  obtain ⟨t, ht, hpc, hframe, hmem⟩ := exec_group (i := .ladstep fd fa) (s := s) (if_neg (by omega))
    (by simp only [List.length_cons, List.length_nil]; omega)
  refine ⟨t, ht, hpc, hframe, fun l => ?_⟩
  have h0 := hmem 0 (by simp)
  have h1 := hmem 1 (by simp)
  have h2 := hmem 2 (by simp)
  have h3 := hmem 3 (by simp)
  rw [groupReg_zero] at h0
  rw [h0, h1, h2, h3]
  simp

/-- Settles O42: the group holds LadStep of the values mod p, which in the field is the formula of the integers themselves. -/
theorem ladstepStepsTheLadder : Obligations.LadstepStepsTheLadder := by
  intro s fd fa hd
  obtain ⟨t, ht, hpc, hframe, hlanes⟩ := exec_ladstep_group s fa hd
  refine ⟨t, ht, hpc, hframe, fun l => ?_⟩
  obtain ⟨hx2, hz2, hx3, hz3⟩ := hlanes l
  obtain ⟨ex2, ez2, ex3, ez3⟩ := ladStep_zmod (s.fieldAt fa l) (s.ladderAt fd l)
  simp only [State.ladderAt, fieldAt_zmod_intAt] at ex2 ez2 ex3 ez3
  refine ⟨holdsModP_of_zmod hx2 ?_, holdsModP_of_zmod hz2 ?_, holdsModP_of_zmod hx3 ?_, holdsModP_of_zmod hz3 ?_⟩ <;>
    push_cast <;> assumption

/-! ## One iteration of the ladder -/

theorem fieldAt_congr {s t : State} {r q : FReg} {l : Lane} (h : (t.freg r).get l = (s.freg q).get l) :
    t.fieldAt r l = s.fieldAt q l := by
  rw [State.fieldAt, State.fieldAt, h]

/-- A ladder group whose halves are exchanged on a bit holds the exchanged ladder state (R257). -/
theorem ladderAt_of_swapped {s t : State} {fd : FReg} {l : Lane} {b : Bool}
    (h : ∀ c < 2,
      (t.freg (groupReg fd c)).get l =
        (if b then (s.freg (groupReg (groupReg fd 2) c)).get l else (s.freg (groupReg fd c)).get l) ∧
      (t.freg (groupReg (groupReg fd 2) c)).get l =
        (if b then (s.freg (groupReg fd c)).get l else (s.freg (groupReg (groupReg fd 2) c)).get l)) :
    t.ladderAt fd l = ladSwap b (s.ladderAt fd l) := by
  obtain ⟨hx2, hx3⟩ := h 0 (by decide)
  obtain ⟨hz2, hz3⟩ := h 1 (by decide)
  simp only [groupReg_zero, groupReg_groupReg, Nat.reduceAdd] at hx2 hx3 hz2 hz3
  cases b <;>
    simp only [State.ladderAt, ladSwap, fieldAt_congr hx2, fieldAt_congr hz2, fieldAt_congr hx3, fieldAt_congr hz3] <;> rfl

/-- The halves of a ladder group are its members (R250). -/
theorem groupList_halves (r : FReg) : groupList r 2 ++ groupList (groupReg r 2) 2 = groupList r 4 := by
  simp only [groupList, List.range, List.range.loop, List.map_cons, List.map_nil, groupReg_groupReg, List.cons_append,
    List.nil_append, Nat.reduceAdd]

/-- The halves of a ladder group that ends at or before F31 are legal swap groups (R114). -/
theorem halves_wellFormed {fd : FReg} (hd : fd.toNat ≤ 28) : (Instr.cswapf fd (groupReg fd 2) 1).wellFormed = true := by
  have hhalf : (groupReg fd 2).toNat = fd.toNat + 2 := groupReg_toNat (by omega)
  simp only [Instr.wellFormed, FReg.groupFits, FReg.groupsApart, Bool.and_eq_true, decide_eq_true_eq, hhalf,
    show (1 : BitVec 2).toNat = 1 from rfl]
  omega

/-- Settles O45: CSWAP exchanges the group's halves and leaves x1 as it is, and LADSTEP steps the exchanged state. -/
theorem cswapThenLadstepIsOneLadderIteration : Obligations.CswapThenLadstepIsOneLadderIteration := by
  intro s fd fa sa cc hd ha hc
  obtain ⟨t, ht, -, htframe, htlanes⟩ := exec_cswap s sa (halves_wellFormed hd) hc
  obtain ⟨u, hu, -, huframe, hulanes⟩ := exec_ladstep_group t fa hd
  refine ⟨t, u, ht, hu, fun l => ?_⟩
  obtain ⟨hswp, hswapped⟩ := htlanes l
  obtain ⟨hx2, hz2, hx3, hz3⟩ := hulanes l
  have hx1 : t.fieldAt fa l = s.fieldAt fa l := by
    rw [State.fieldAt, State.fieldAt, htframe.outside.fregs fa fun h => ha (groupList_halves fd ▸ h)]
  refine ⟨by rw [huframe.outside.swp rfl, hswp], ?_⟩
  rw [State.ladderAt, fieldAt_of_canon hx2, fieldAt_of_canon hz2, fieldAt_of_canon hx3, fieldAt_of_canon hz3,
    ladStep_mod_self, hx1, ladderAt_of_swapped hswapped]

/-! ## The ladder, step by step -/

section

variable (x1 : Nat) (k : Scalar)

/-- The ladder's swap bit after `n` steps: the bit the last step used (R257). -/
def swapAfter : Nat → Bool
  | 0 => false
  | n + 1 => k.getLsbD (254 - n)

/-- The ladder state after `n` steps, before the final swap (R257). -/
def ladderAfter : Nat → Ladder
  | 0 => ⟨1, 0, x1, 1⟩
  | n + 1 => ladStep x1 (ladSwap (swapAfter k n ^^ k.getLsbD (254 - n)) (ladderAfter n))

/-- The steps that are left after `n` of them end in the state after all 255. -/
theorem ladLoop_ladderAfter (m n : Nat) (h : n + m = 255) :
    ladLoop x1 k m (swapAfter k n) (ladderAfter x1 k n) = ladSwap (swapAfter k 255) (ladderAfter x1 k 255) := by
  induction m generalizing n with
  | zero =>
    obtain rfl : n = 255 := h
    rfl
  | succ m ih =>
    have hbit : m = 254 - n := by omega
    rw [← ih (n + 1) (by omega), ladLoop, ladderAfter, swapAfter, ← hbit]

end

theorem ladder_eq_ladderAfter (u : Nat) (k : Scalar) :
    ladder u k = ladSwap (swapAfter (clamp k) 255) (ladderAfter (u % p) (clamp k) 255) :=
  ladLoop_ladderAfter (u % p) (clamp k) 255 0 rfl

/-- Settles O43: the states are those after each step, and the result is the last one after the final swap. -/
theorem theLadderRunsOverTheClampedBits : Obligations.TheLadderRunsOverTheClampedBits := by
  intro u k
  refine ⟨ladderAfter (u % p) (clamp k), swapAfter (clamp k), rfl, rfl, fun n _ => ⟨rfl, rfl⟩, ?_⟩
  rw [ladder_eq_ladderAfter, ladSwap]
  split <;> exact ⟨rfl, rfl⟩

/-! ## MONVB and SHSEC -/

/-- MONVB in range: its pair holds the canonical limbs of the ladder's (R258). -/
theorem exec_monvb_group (s : State) {fd : FReg} (fa : FReg) {sb : RField} (hs : sb.toNat ≤ 3) (hd : fd.toNat ≤ 30) :
    ∃ t, exec (.monvb fd fa sb) s = .next t ∧ t.pc = s.pc + 1 ∧ Frame { fregs := groupList fd 2 } s t ∧
      ∀ l, let q := ladder (val ((s.freg fa).get l)) ((s.sreg (regOfField sb)).get l)
        (t.freg fd).get l = canon q.x2 ∧ (t.freg (groupReg fd 1)).get l = canon q.z2 := by
  obtain ⟨t, ht, hpc, hframe, hmem⟩ := exec_group (i := .monvb fd fa sb) (s := s) (if_neg (by omega))
    (by simp only [List.length_cons, List.length_nil]; omega)
  refine ⟨t, ht, hpc, hframe, fun l => ?_⟩
  have h0 := hmem 0 (by simp)
  have h1 := hmem 1 (by simp)
  rw [groupReg_zero] at h0
  rw [h0, h1]
  simp

/-- SHSEC follows the common rule of the field instructions, with the ladder's quotient as its integer (R272). -/
theorem exec_shsec (s : State) (fd fa : FReg) {sb : RField} (hs : sb.toNat ≤ 3) : exec (.shsec fd fa sb) s =
    fieldOp fd (fun l =>
      let q := ladder (val ((s.freg fa).get l)) ((s.sreg (regOfField sb)).get l)
      (affine q.x2 q.z2 : Int)) s := if_neg (by omega)

/-- Settles O44: MONVB's pair is the ladder's, and SHSEC's quotient is in the field the product the statement names. -/
theorem monvbWritesTheLaddersPairAndShsecItsQuotient : Obligations.MonvbWritesTheLaddersPairAndShsecItsQuotient := by
  intro s fd fa sb hs
  refine ⟨fun hd => ?monvb, ?shsec⟩
  case monvb =>
    obtain ⟨t, ht, hpc, hframe, hlanes⟩ := exec_monvb_group s fa hs hd
    refine ⟨t, ht, hpc, hframe, fun l => ?_⟩
    obtain ⟨hx, hz⟩ := hlanes l
    exact ⟨holdsModP_of_canon hx rfl, holdsModP_of_canon hz rfl⟩
  case shsec =>
    refine exec_fieldOp_holdsModP (exec_shsec s fd fa hs) fun l => (emod_p_iff _ _).2 ?_
    rw [Int.cast_natCast, affine_zmod]
    push_cast
    rfl

/-! ## Peers of small order -/

/-- The last swap bit is 0: bit 0 of the clamped scalar is 0 (R228, R257). -/
theorem swapAfter_clamp_last (k : Scalar) : swapAfter (clamp k) 255 = false := clamp_getLsbD k (i := 0) (by decide)

/-- So the final swap exchanges nothing. -/
theorem ladder_eq_last (u : Nat) (k : Scalar) : ladder u k = ladderAfter (u % p) (clamp k) 255 := by
  rw [ladder_eq_ladderAfter, swapAfter_clamp_last]
  rfl

/-- What a ladder at a peer u with u² = 1 keeps: (x2 : z2) is an even multiple of the peer, one with x2 or z2 equal to 0, and
(x3 : z3) an odd one, (u : 1) in some scaling, where that may be 0 (R272). -/
structure Ladder.EvenOdd (u : ZMod p) (q : Ladder) : Prop where
  even : (q.x2 * q.z2 : ZMod p) = 0
  odd  : (q.x3 : ZMod p) = u * q.z3

/-- The double of either is an even multiple and their sum an odd one, whichever of the two is doubled. -/
theorem Ladder.EvenOdd.step {u : Nat} {q : Ladder} (hu : (u : ZMod p) ^ 2 = 1) (h : q.EvenOdd u) (b : Bool) :
    (ladStep u (ladSwap b q)).EvenOdd u := by
  obtain ⟨heven, hodd⟩ := h
  obtain ⟨hx2, hz2, hx3, hz3⟩ := ladStep_zmod u (ladSwap b q)
  constructor
  case even =>
    cases b
    case false =>
      have hz : ((ladStep u (ladSwap false q)).z2 : ZMod p) = 0 := by
        rw [hz2]
        simp only [ladSwap, Bool.false_eq_true, if_false]
        linear_combination 4 * ((q.x2 + q.z2) ^ 2 + 121665 * (4 * q.x2 * q.z2) : ZMod p) * heven
      rw [hz, mul_zero]
    case true =>
      have hx : ((ladStep u (ladSwap true q)).x2 : ZMod p) = 0 := by
        rw [hx2]
        simp only [ladSwap, if_true, hodd]
        linear_combination (q.z3 ^ 4 * (u ^ 2 - 1) : ZMod p) * hu
      rw [hx, zero_mul]
  case odd =>
    rw [hx3, hz3]
    cases b <;> simp only [ladSwap, Bool.false_eq_true, if_false, if_true, hodd] <;>
      linear_combination (4 * q.z3 ^ 2 * (2 * u * q.x2 * q.z2 - q.z2 ^ 2 * (1 + u ^ 2)) : ZMod p) * hu

theorem ladderAfter_evenOdd {u : Nat} (hu : (u : ZMod p) ^ 2 = 1) (k : Scalar) (n : Nat) :
    (ladderAfter u k n).EvenOdd u := by
  induction n with
  | zero => constructor <;> simp [ladderAfter]
  | succ n ih => exact ih.step hu _

/-- What a ladder at the peer 0 keeps after its first step: it holds (x2, 0, 0, 0), with x2 = 0 too after a bit that is 0.
The first sum, that of (0 : 1) and (1 : 0), is (0 : 0), and a bit that is 0 doubles it (R258). -/
structure Ladder.AtZero (swap : Bool) (q : Ladder) : Prop where
  x2 : swap = false → (q.x2 : ZMod p) = 0
  z2 : (q.z2 : ZMod p) = 0
  x3 : (q.x3 : ZMod p) = 0
  z3 : (q.z3 : ZMod p) = 0

theorem Ladder.AtZero.step {swap : Bool} {q : Ladder} (h : q.AtZero swap) (b : Bool) :
    (ladStep 0 (ladSwap (swap ^^ b) q)).AtZero b := by
  obtain ⟨hx2, hz2, hx3, hz3⟩ := h
  obtain ⟨ex2, ez2, ex3, ez3⟩ := ladStep_zmod 0 (ladSwap (swap ^^ b) q)
  constructor
  case x2 =>
    rintro rfl
    rw [ex2]
    cases swap
    case false => simp [ladSwap, hx2 rfl, hz2]
    case true => simp [ladSwap, hx3, hz3]
  case z2 =>
    rw [ez2]
    cases swap ^^ b <;> simp [ladSwap, hz2, hz3]
  case x3 =>
    rw [ex3]
    cases swap ^^ b <;> simp [ladSwap, hz2, hx3, hz3]
  case z3 => rw [ez3, Nat.cast_zero, zero_mul]

/-- The first step takes (1, 0, 0, 1), exchanged on bit 254 of the clamped scalar, to (1, 0, 0, 0). -/
theorem ladderAfter_atZero (k : Scalar) (n : Nat) :
    (ladderAfter 0 (clamp k) (n + 1)).AtZero (swapAfter (clamp k) (n + 1)) := by
  induction n with
  | zero =>
    have hbit : (clamp k).getLsbD 254 = true := clamp_getLsbD k (i := 254) (by decide)
    have hstep : ladStep 0 (ladSwap true ⟨1, 0, 0, 1⟩) = ⟨1, 0, 0, 0⟩ := by decide +kernel
    simp only [ladderAfter, swapAfter, Bool.false_xor, Nat.sub_zero, hbit, hstep]
    constructor <;> simp
  | succ n ih => exact ih.step _

/-- At the peer 0 the ladder ends at (0, 0): the last bit of the clamped scalar is 0 (R258). -/
theorem ladder_peer_zero {u : Nat} (hu : u % p = 0) (k : Scalar) :
    ((ladder u k).x2 : ZMod p) = 0 ∧ ((ladder u k).z2 : ZMod p) = 0 := by
  have hlast := ladderAfter_atZero k 254
  rw [ladder_eq_last, hu]
  exact ⟨hlast.x2 (swapAfter_clamp_last k), hlast.z2⟩

/-- The peers 1 and p - 1 are square roots of 1. -/
theorem peer_sq_eq_one {u : Nat} (hu : u % p = 1 ∨ u % p = p - 1) : ((u % p : Nat) : ZMod p) ^ 2 = 1 := by
  obtain h | h := hu
  · rw [h, Nat.cast_one, one_pow]
  · rw [h, Nat.cast_sub p_prime.one_le, CharP.cast_eq_zero, Nat.cast_one, zero_sub, neg_one_sq]

/-- At each of the three peers the ladder ends at a pair with x2 or z2 equal to 0 (R272). -/
theorem ladder_x2_mul_z2 {u : Nat} (hu : u % p = 0 ∨ u % p = 1 ∨ u % p = p - 1) (k : Scalar) :
    ((ladder u k).x2 * (ladder u k).z2 : ZMod p) = 0 := by
  obtain h | h := hu
  · rw [(ladder_peer_zero h k).1, zero_mul]
  · rw [ladder_eq_last]
    exact (ladderAfter_evenOdd (peer_sq_eq_one h) (clamp k) 255).even

/-- The quotient of a pair is 0 where either of the two is (R271). -/
theorem affine_zmod_of_mul_eq_zero {X Z : Nat} (h : (X * Z : ZMod p) = 0) : (affine X Z : ZMod p) = 0 := by
  have : Fact (Nat.Prime p) := ⟨p_prime⟩
  have hexp : p - 2 ≠ 0 := by decide +kernel
  rw [affine_zmod]
  obtain hX | hZ := mul_eq_zero.1 h
  · rw [hX, zero_mul]
  · rw [hZ, zero_pow hexp, mul_zero]

theorem canon_eq_canon_zero {n : Nat} (h : (n : ZMod p) = 0) : canon n = canon 0 :=
  canon_eq_of_zmod_eq (by rw [Int.cast_natCast, h, Int.cast_zero])

/-- Settles O46: the ladder's pair has a 0, so the quotient SHSEC writes is 0; at the peer 0 both of the pair are 0. -/
theorem smallOrderPeersGiveZero : Obligations.SmallOrderPeersGiveZero := by
  intro s fd fa sb l hs
  refine ⟨fun hu => ?shsec, fun hd hu => ?monvb⟩
  case shsec =>
    obtain ⟨t, ht, -, -, hlanes⟩ := exec_fieldOp (exec_shsec s fd fa hs)
    exact ⟨t, ht, (hlanes l).trans (canon_eq_canon_zero (affine_zmod_of_mul_eq_zero (ladder_x2_mul_z2 hu _)))⟩
  case monvb =>
    obtain ⟨t, ht, -, -, hlanes⟩ := exec_monvb_group s fa hs hd
    obtain ⟨hx, hz⟩ := hlanes l
    obtain ⟨ex, ez⟩ := ladder_peer_zero hu ((s.sreg (regOfField sb)).get l)
    exact ⟨t, ht, hx.trans (canon_eq_canon_zero ex), hz.trans (canon_eq_canon_zero ez)⟩

end Sys2Proof.Machine
end

section
/-! PROOFS. Fault entry, what an instruction does to the fault registers, and the IRQ output (spec/60_exceptions.md R283,
R284, R292, R295). An instruction enters a fault whole, halts, or makes one write and moves the PC, and no write reaches a
fault register; IRQ depends on IE, DONE and FAULT alone. -/

namespace Sys2Proof.Machine

section

variable {s : State}

/-! ## Fault entry -/

/-- The register files, SWP and the memories are no part of a fault entry (R283, R284). -/
theorem faultEntry_sameOutside (s : State) (c : Cause) (w : Word) : SameOutside {} s (s.faultEntry c w) :=
  { (Frame.refl {} s).outside with }

/-! ## The IRQ output -/

theorem irq_eq_true_iff (s : State) : s.irq = true ↔ s.ie = true ∧ (s.done = true ∨ s.fault = true) := by
  rw [State.irq, Bool.and_eq_true, Bool.or_eq_true]

/-- A state whose interrupt is not enabled does not raise IRQ. -/
theorem irq_eq_false_of_ie (h : s.ie = false) : s.irq = false := by rw [State.irq, h, Bool.false_and]

/-- Without a run end pending IRQ is not raised. -/
theorem irq_eq_false_of_no_end (hd : s.done = false) (hf : s.fault = false) : s.irq = false := by
  rw [State.irq, hd, hf, Bool.or_false, Bool.and_false]

theorem startRun_irq (s : State) : s.startRun.irq = false := irq_eq_false_of_no_end s.startRun_done s.startRun_fault

/-- A write of STATUS that clears each end that is set drops IRQ (R42). -/
theorem writeStatus_irq {data : Word} (hd : s.done = true → data.getLsbD 1 = true)
    (hf : s.fault = true → data.getLsbD 2 = true) : (s.writeStatus data).irq = false := by
  have cleared : ∀ {flag bit : Bool}, (flag = true → bit = true) → (flag && !bit) = false := fun h => by simpa using h
  exact irq_eq_false_of_no_end (cleared hd) (cleared hf)

/-- A write of CTRL with bit 1 clear drops IRQ, even when it starts a run or requests an abort (R41). -/
theorem writeCtrl_irq {data : Word} (h : data.getLsbD 1 = false) : (s.writeCtrl data).irq = false :=
  irq_eq_false_of_ie ((writeCtrl_ie s data).trans h)

end

/-! ## The statements -/

/-- Settles O9: of the three cases of an instruction only HALT clears BUSY without a fault, and a write keeps the control
registers. -/
theorem anInstructionEitherFaultsWholeOrLeavesTheFaultRegisters :
    Obligations.AnInstructionEitherFaultsWholeOrLeavesTheFaultRegisters := by
  intro i s hb
  obtain ⟨c, hc, e⟩ | ⟨hi, e⟩ | ⟨-, t, pc, hw, e⟩ := exec_cases i s
  · exact ⟨_, e, .inl ⟨c, hc, rfl⟩⟩
  · exact ⟨_, e, .inr ⟨rfl, rfl, rfl, rfl, rfl, .inr hi⟩⟩
  · have hcontrol := hw.control
    exact ⟨_, e, .inr ⟨hcontrol.fault, hcontrol.cause, hcontrol.faultPc, hcontrol.faultInsn, hcontrol.hberr,
      .inl (hcontrol.busy.trans hb)⟩⟩

/-- Settles O8: the fields that fault entry sets, and its frame. -/
theorem faultEntryRecordsTheCauseAndEndsTheRun : Obligations.FaultEntryRecordsTheCauseAndEndsTheRun := fun s c w =>
  ⟨rfl, rfl, rfl, rfl, rfl, rfl, rfl, faultEntry_sameOutside s c w, rfl, rfl, rfl, rfl, rfl, rfl, rfl, rfl⟩

/-- Settles O53: IRQ by its formula, and each way the formula becomes false. -/
theorem irqIsTheEnabledEndOfARun : Obligations.IrqIsTheEnabledEndOfARun := by
  refine ⟨fun s => ⟨irq_eq_true_iff s, fun _ => rfl, fun _ => startRun_irq s, fun data hd hf => ?status,
    fun data h => ?ctrl⟩, irq_eq_false_of_ie rfl⟩
  case status =>
    have hwrite : s.hostWrite .word 0x000C data = s.writeStatus data := hostWrite_csrOffset s .status data
    rw [hwrite]
    exact writeStatus_irq hd hf
  case ctrl =>
    have hwrite : s.hostWrite .word 0x0008 data = s.writeCtrl data := hostWrite_csrOffset s .ctrl data
    rw [hwrite]
    exact writeCtrl_irq h

end Sys2Proof.Machine
end

section
/-! PROOFS. The engine step in its order (spec/70_reset_and_hazards.md R324), START (R323), and that no PC, address or table
access depends on data (R334). For the last, two runs from states that agree outside the data are compared: a write of data
and a host read keep the agreement whatever they write or return, every other operation keeps it because its operands agree,
and every branch is taken on an operand that agrees. -/

namespace Sys2Proof.Machine

open Sys2Proof.Config

/-! ## The engine step, and START -/

/-- A step in which the engine moves is the engine's, from a state that differs from `s` in the listed turns at most. -/
theorem step_engine_setTurns {s u : State}
    (h : s.turns = [] ∧ u = s ∨ ∃ rest, s.turns = .engine :: rest ∧ u = { s with turns := rest }) :
    step s = engineStep u ∧ ∃ rest, u = { s with turns := rest } := by
  refine ⟨step_engine h, ?_⟩
  obtain ⟨-, rfl⟩ | ⟨rest, -, rfl⟩ := h
  · exact ⟨u.turns, rfl⟩
  · exact ⟨rest, rfl⟩

/-- The engine fetches where no abort is pending and the PC is in range, and runs the fetched word. -/
theorem step_fetch {s u : State}
    (h : s.turns = [] ∧ u = s ∨ ∃ rest, s.turns = .engine :: rest ∧ u = { s with turns := rest })
    (hb : s.busy = true) (ha : s.abortReq = false) (hp : s.pc.toNat < s.params.imemWords) :
    step s = u.runWord (s.wordAt .imem s.pc.toNat) := by
  obtain ⟨hstep, rest, rfl⟩ := step_engine_setTurns h
  rw [hstep]
  exact engineStep_fetch hb ha hp

/-- Settles O5: the engine step fetches, decodes, and is `exec` of the result. -/
theorem aStepRunsTheDecodedInstruction : Obligations.AStepRunsTheDecodedInstruction := by
  intro s u i hu hb ha hp hd
  exact (step_fetch hu hb ha hp).trans (runWord_ok hd)

/-- Settles O6: each branch of the engine step in turn, and that encoding undoes decoding. -/
theorem theEngineStepTestsAbortThenFetchThenWord : Obligations.TheEngineStepTestsAbortThenFetchThenWord := by
  intro s u hu
  have hfetch := step_fetch hu
  obtain ⟨hstep, rest, rfl⟩ := step_engine_setTurns hu
  exact ⟨fun hb => hstep.trans (engineStep_idle hb), fun hb ha => hstep.trans (engineStep_abort hb ha),
    fun hb ha hp => hstep.trans (engineStep_fetchRange hb ha hp),
    fun hb ha hp _ he => (hfetch hb ha hp).trans (runWord_error he), fun _ => encode_of_decode⟩

/-- Settles O48: the fields START sets, its frame, and the write of CTRL that requests it. -/
theorem startSetsThePcAndClearsTheLastRun : Obligations.StartSetsThePcAndClearsTheLastRun := by
  intro s
  have hframe : SameOutside {} s s.startRun := { (Frame.refl {} s).outside with }
  have hwrite : ∀ data, s.hostWrite .word 0x0008 data = s.writeCtrl data := hostWrite_csrOffset s .ctrl
  refine ⟨rfl, rfl, rfl, rfl, rfl, rfl, rfl, rfl, rfl, rfl, rfl, hframe, rfl, rfl, fun hb data hstart hie hmsb => ?_,
    fun hb data hstart hie habort => ?_⟩
  · rw [hwrite, writeCtrl_start hb hstart, hie, hmsb]
  · rw [hwrite, writeCtrl_busy hb, hstart, hie, habort, Bool.or_true, Bool.or_false]

section

variable {s s' : State}

/-! ## What two runs write -/

theorem PublicEq.setF (h : PublicEq s s') (r : FReg) (x x' : Lanes Limbs) : PublicEq (s.setF r x) (s'.setF r x') :=
  { h with }

theorem PublicEq.setS (h : PublicEq s s') (r : SReg) (x x' : Lanes Scalar) : PublicEq (s.setS r x) (s'.setS r x') :=
  { h with }

theorem PublicEq.setD (h : PublicEq s s') (r : DReg) (x x' : Lanes Digits) : PublicEq (s.setD r x) (s'.setD r x') :=
  { h with }

theorem PublicEq.storeWords (h : PublicEq s s') (ea ea' : Nat) (ws ws' : List Word) :
    PublicEq (s.storeWords ea ws) (s'.storeWords ea' ws') := { h with }

theorem PublicEq.setGroup (h : PublicEq s s') (r : FReg) (xs xs' : List (Lanes Limbs)) :
    PublicEq (s.setGroup r xs) (s'.setGroup r xs') := by
  obtain ⟨v, e⟩ := setGroup_rest s r xs
  obtain ⟨v', e'⟩ := setGroup_rest s' r xs'
  rw [e, e']
  exact { h with }

/-- A swap of groups that also writes SWP, whichever lanes it exchanges. -/
theorem PublicEq.swap (h : PublicEq s s') (fa fb : FReg) (sw sw' b b' : Lanes Bool) (n : Nat) :
    PublicEq ((s.swapGroups fa fb sw n).setSwp b) ((s'.swapGroups fa fb sw' n).setSwp b') := by
  obtain ⟨v, e⟩ := swapGroups_rest s fa fb sw n
  obtain ⟨v', e'⟩ := swapGroups_rest s' fa fb sw' n
  rw [e, e']
  exact { h with }

theorem PublicEq.setC (h : PublicEq s s') (r : CReg) {v v' : Half} (hv : v' = v) :
    PublicEq (s.setC r v) (s'.setC r v') := by
  subst hv
  have hcregs : ∀ q, (s'.setC r v').creg q = (s.setC r v').creg q := fun q => by
    rw [State.creg_setC, State.creg_setC, h.cregs]
  by_cases hr : r = 0
  · subst hr
    exact h
  · simp only [State.setC, if_neg hr] at hcregs ⊢
    exact { h with cregs := hcregs }

theorem PublicEq.jump (h : PublicEq s s') {target target' : Half} (ht : target' = target) :
    PublicEq (s.jump target) (s'.jump target') := { h with pc := ht }

theorem PublicEq.advance (h : PublicEq s s') : PublicEq s.advance s'.advance := h.jump (by rw [h.pc])

theorem PublicEq.faultEntry (h : PublicEq s s') (c : Cause) (w : Word) :
    PublicEq (s.faultEntry c w) (s'.faultEntry c w) :=
  { h with cause := rfl, faultPc := h.pc, faultInsn := rfl, abortReq := rfl, busy := rfl, fault := rfl }

theorem PublicEq.halt (h : PublicEq s s') : PublicEq { s.advance with done := true, busy := false, abortReq := false }
    { s'.advance with done := true, busy := false, abortReq := false } :=
  { h.advance with done := rfl, busy := rfl, abortReq := rfl }

theorem PublicEq.startRun (h : PublicEq s s') : PublicEq s.startRun s'.startRun :=
  { h with pc := h.startPc, done := rfl, fault := rfl, cause := rfl, faultPc := rfl, faultInsn := rfl, abortReq := rfl,
           busy := rfl }

theorem PublicEq.busError (h : PublicEq s s') : PublicEq s.busError s'.busError := { h with hberr := rfl }

theorem PublicEq.setTurns (h : PublicEq s s') (rest : List Turn) :
    PublicEq { s with turns := rest } { s' with turns := rest } := { h with turns := rfl }

/-! ## Executing one instruction -/

/-- An instruction that writes a group after its operand check. -/
theorem PublicEq.checkedGroup {P : Prop} [Decidable P] {i : Instr} (h : PublicEq s s') (fd : FReg)
    (xs xs' : List (Lanes Limbs)) :
    BothNext PublicEq (if P then raise .illegalOperand i s else retire (s.setGroup fd xs))
      (if P then raise .illegalOperand i s' else retire (s'.setGroup fd xs')) :=
  .checked .rfl (h.faultEntry _ _) (.retire (h.setGroup fd xs xs').advance)

/-- Every instruction keeps the agreement outside the data: its checks and branches read counters and parameters alone
(R194, R263, R276). -/
theorem exec_publicEq (i : Instr) (h : PublicEq s s') : BothNext PublicEq (exec i s) (exec i s') := by
  have fault := h.faultEntry
  cases i with
  | nop => exact .retire h.advance
  | halt => exact .next h.halt
  | jmp tgt => exact .next (h.jump rfl)
  | bnez ca tgt => exact .branch (by rw [h.cregs]) (.next (h.jump rfl)) (.retire h.advance)
  | dbnz ca tgt =>
    have hc : PublicEq (s.setC ca (s.creg ca - 1)) (s'.setC ca (s'.creg ca - 1)) := h.setC ca (by rw [h.cregs])
    exact .branch (by rw [h.cregs]) (.next (hc.jump rfl)) (.retire hc.advance)
  | cseti cd imm => exact .retire (h.setC cd rfl).advance
  | caddi cd simm => exact .retire (h.setC cd (by rw [h.cregs])).advance
  | fld _ ca addr | fldl _ ca addr =>
    exact .checked (h.outOfRange_iff ca addr _) (fault _ _) (.retire (h.setF _ _ _).advance)
  | fst _ ca addr | fstl _ ca addr =>
    exact .checked (h.outOfRange_iff ca addr _) (fault _ _) (.retire (h.storeWords _ _ _ _).advance)
  | sld sd ca addr =>
    exact .checked .rfl (fault _ _) (.checked (h.outOfRange_iff ca addr _) (fault _ _) (.retire (h.setS _ _ _).advance))
  | sst ss ca addr =>
    exact .checked .rfl (fault _ _)
      (.checked (h.outOfRange_iff ca addr _) (fault _ _) (.retire (h.storeWords _ _ _ _).advance))
  | fadd _ _ _ | fsub _ _ _ | fmul _ _ _ | fsqr _ _ | fmov _ _ | fnorm _ _ | finv _ _ | fmulc _ _ _ | fseti _ _ =>
    exact .retire (h.setF _ _ _).advance
  | clamp sd sa => exact .checked .rfl (fault _ _) (.retire (h.setS _ _ _).advance)
  | recode dd sa => exact .checked .rfl (fault _ _) (.retire (h.setD _ _ _).advance)
  | cswap fa fb sa cc n =>
    exact .checked .rfl (fault _ _) (.checked (by rw [h.cregs]) (fault _ _) (.retire (h.swap fa fb _ _ _ _ _).advance))
  | cswapf fa fb n => exact .checked .rfl (fault _ _) (.retire (h.swap fa fb _ _ _ _ _).advance)
  | tblsel fd dd cc =>
    exact .checked .rfl (fault _ _) (.checked (by rw [h.cregs]) (fault _ _) (.retire (h.setGroup fd _ _).advance))
  | edinit fd | edadd fd _ _ | eddbl fd _ | ladstep fd _ | edfbmul fd _ | monfb fd _ | monvb fd _ _ =>
    exact h.checkedGroup fd _ _
  | keygen fd _ | shsec fd _ _ => exact .checked .rfl (fault _ _) (.retire (h.setF fd _ _).advance)

/-! ## The engine step -/

theorem PublicEq.fetched (h : PublicEq s s') : s'.fetched = s.fetched := by
  have hbyte : ∀ a, s'.byteAt .imem a = s.byteAt .imem a := fun a => by
    simp only [State.byteAt, State.memory, h.imem, h.memEpoch]
  rw [State.fetched, State.fetched, h.pc, wordAt_eq_of_byteAt_eq hbyte]

theorem PublicEq.fetchOutOfRange_iff (h : PublicEq s s') : s'.fetchOutOfRange ↔ s.fetchOutOfRange := by
  rw [State.fetchOutOfRange, State.fetchOutOfRange, h.params, h.pc]

theorem runWord_publicEq (w : Word) (h : PublicEq s s') : BothNext PublicEq (s.runWord w) (s'.runWord w) := by
  cases hd : decode w with
  | error e =>
    rw [runWord_error hd, runWord_error hd]
    exact .next (h.faultEntry _ w)
  | ok i =>
    rw [runWord_ok hd, runWord_ok hd]
    exact exec_publicEq i h

theorem engineStep_publicEq (h : PublicEq s s') : BothNext PublicEq (engineStep s) (engineStep s') := by
  have run : BothNext PublicEq (s.runWord s.fetched) (s'.runWord s'.fetched) := by
    rw [h.fetched]
    exact runWord_publicEq _ h
  exact .branch (by rw [h.busy]) (.next h) (.branch (by rw [h.abortReq]) (.next (h.faultEntry _ _))
    (.branch h.fetchOutOfRange_iff (.next (h.faultEntry _ _)) run))

/-! ## The turns of the host and the reset input -/

/-- Any change of the word on the read port keeps the agreement (log entry 4). -/
theorem PublicEq.setHostRdata (h : PublicEq s s') (w w' : Word) :
    PublicEq { s with hostRdata := w } { s' with hostRdata := w' } := { h with }

/-- The word a host read of DMEM returns may differ; whether the read is an error may not. -/
theorem PublicEq.hostRead (h : PublicEq s s') (width : HostWidth) (o : Half) :
    PublicEq (s.hostRead width o).2 (s'.hostRead width o).2 := by
  unfold State.hostRead
  rw [h.params, h.busy]
  split
  · exact h.busError
  · exact h
  · split
    · exact h.busError
    · exact h

theorem PublicEq.hostReadTurn (h : PublicEq s s') (width : HostWidth) (o : Half) :
    PublicEq (s.hostReadTurn width o) (s'.hostReadTurn width o) := (h.hostRead width o).setHostRdata _ _

theorem PublicEq.setConfig (h : PublicEq s s') (ie msbmask : Bool) :
    PublicEq { s with ie := ie, msbmask := msbmask } { s' with ie := ie, msbmask := msbmask } :=
  { h with ie := rfl, msbmask := rfl }

theorem PublicEq.writeCtrl (h : PublicEq s s') (data : Word) : PublicEq (s.writeCtrl data) (s'.writeCtrl data) := by
  cases hb : s.busy with
  | true =>
    rw [writeCtrl_busy hb, writeCtrl_busy (h.busy.trans hb), h.hberr, h.abortReq]
    exact { h with ie := rfl, hberr := rfl, abortReq := rfl }
  | false =>
    cases hd : data.getLsbD 0 with
    | true =>
      rw [writeCtrl_start hb hd, writeCtrl_start (h.busy.trans hb) hd]
      exact (h.setConfig _ _).startRun
    | false =>
      rw [writeCtrl_idle hb hd, writeCtrl_idle (h.busy.trans hb) hd]
      exact h.setConfig _ _

theorem PublicEq.writeStatus (h : PublicEq s s') (data : Word) : PublicEq (s.writeStatus data) (s'.writeStatus data) := by
  unfold State.writeStatus
  rw [h.done, h.fault, h.hberr]
  exact { h with done := rfl, fault := rfl, hberr := rfl }

theorem PublicEq.writeStartPc (h : PublicEq s s') (data : Word) :
    PublicEq (s.writeStartPc data) (s'.writeStartPc data) := by
  cases hb : s.busy with
  | true =>
    rw [writeStartPc_busy hb, writeStartPc_busy (h.busy.trans hb)]
    exact h.busError
  | false =>
    rw [writeStartPc_idle hb, writeStartPc_idle (h.busy.trans hb)]
    exact { h with startPc := rfl }

theorem PublicEq.writeCsr (h : PublicEq s s') (r : Csr) (data : Word) :
    PublicEq (s.writeCsr r data) (s'.writeCsr r data) := by
  cases r with
  | ctrl => exact h.writeCtrl data
  | status => exact h.writeStatus data
  | startPc => exact h.writeStartPc data
  | id | version | pc | cause | faultPc | faultInsn | params => exact h

theorem PublicEq.hostStore (h : PublicEq s s') (sp : Space) (i : Nat) (data : Word) :
    PublicEq (s.hostStore sp i data) (s'.hostStore sp i data) := by
  cases sp with
  | imem => exact { h with imem := congrArg (·.putWords i [data]) h.imem }
  | dmem => exact { h with }

theorem PublicEq.hostWrite (h : PublicEq s s') (width : HostWidth) (o : Half) (data : Word) :
    PublicEq (s.hostWrite width o data) (s'.hostWrite width o data) := by
  unfold State.hostWrite
  rw [h.params, h.busy]
  split
  · exact h.busError
  · exact h.writeCsr _ data
  · split
    · exact h.busError
    · exact h.hostStore _ _ data

/-- A reset puts every register to one value; what it keeps agrees already (R320). -/
theorem PublicEq.resetEvent (h : PublicEq s s') : PublicEq s.resetEvent s'.resetEvent where
  params := h.params
  memEpoch := congrArg (· + 1) h.memEpoch
  turns := h.turns
  cregs _ := rfl
  pc := rfl
  ie := rfl
  msbmask := rfl
  busy := rfl
  done := rfl
  fault := rfl
  hberr := rfl
  startPc := rfl
  cause := rfl
  faultPc := rfl
  faultInsn := rfl
  abortReq := rfl
  imem := rfl

theorem turnStep_publicEq (turn : Turn) (h : PublicEq s s') : BothNext PublicEq (turnStep turn s) (turnStep turn s') := by
  cases turn with
  | engine => exact engineStep_publicEq h
  | hostRead width o => exact .next (h.hostReadTurn width o)
  | hostWrite width o data => exact .next (h.hostWrite width o data)
  | reset => exact .next h.resetEvent

/-- Every step keeps the agreement outside the data (R334). -/
theorem step_publicEq (h : PublicEq s s') : BothNext PublicEq (step s) (step s') := by
  unfold step
  rw [h.turns]
  cases s.turns with
  | nil => exact engineStep_publicEq h
  | cons turn rest => exact turnStep_publicEq turn (h.setTurns rest)

/-! ## What a step shows -/

theorem PublicEq.accessed (h : PublicEq s s') (ca : CReg) (addr : Half) (n : Nat) :
    s'.accessed ca addr n = s.accessed ca addr n := by
  simp only [State.accessed, State.outOfRange, h.effectiveAddress, h.params]

/-- The address of an access comes from a counter and the instruction (R166). -/
theorem PublicEq.dmemTouched (h : PublicEq s s') (i : Instr) : dmemTouched i s' = dmemTouched i s := by
  cases i with
  | fld _ ca addr | fst _ ca addr | fldl _ ca addr | fstl _ ca addr => exact h.accessed ca addr _
  | sld r ca addr | sst r ca addr =>
    exact congrArg (if fieldTooBig r then [] else ·) (h.accessed ca addr _)
  | _ => rfl

/-- TBLSEL scans the window its counter names, and a comb reads every entry in a fixed order (R212, R237). -/
theorem PublicEq.tableTouched (h : PublicEq s s') (i : Instr) : tableTouched i s' = tableTouched i s := by
  cases i with
  | tblsel fd dd cc => simp only [Machine.tableTouched, h.cregs]
  | _ => rfl

theorem PublicEq.runsInstruction (h : PublicEq s s') : s'.runsInstruction = s.runsInstruction := by
  simp only [State.runsInstruction, h.busy, h.abortReq, h.fetchOutOfRange_iff]

theorem PublicEq.observe (h : PublicEq s s') : s'.observe = s.observe := by
  simp only [State.observe, h.runsInstruction, h.fetched, h.pc, h.dmemTouched, h.tableTouched]

end

/-- Settles O58: what a step shows is read from the state outside the data, and every step keeps the agreement there. -/
theorem controlAndAddressesDoNotDependOnData : Obligations.ControlAndAddressesDoNotDependOnData := fun _ _ h =>
  ⟨h.observe, step_publicEq h⟩

end Sys2Proof.Machine
end
